-- ==== Sys2Proof/Word.lean ====
section
/-! DEFINITION. The widths of the block's data (00_scope.md R6, R9; 20_memory.md R76): the 32-bit
word of the host bus and registers, the 8-bit symbol or character, the 6-bit packed group, and the
bit string of R12. -/

namespace Sys2Proof

/-- A host register or bus word, 32 bits (R9, R24, R61). -/
abbrev Word := BitVec 32

/-- A symbol of the text, or a transcoded character: 8 bits (R38, R46, R47). -/
abbrev Symbol := BitVec 8

/-- A packed group, or a value of the transcoder's domain: 6 bits (R6 `GROUP_W`, R45). -/
abbrev Group := BitVec 6

/-- A bit string, its first bit at the head; `false` is "0" and `true` is "1" (R12). -/
abbrev BitString := List Bool

end Sys2Proof
end

