-- ==== Sys2Proof/Machine/Operands.lean ====
section
/-! DEFINITION. The fields of a command word (30_encoding.md R80) and the operand forms of its IMM field
(R82). Every operand is unsigned and zero-extended (R83), so a form is a slice. -/

namespace Sys2Proof

/-- OP, bits 31:24 (30_encoding.md R80). -/
def opField (w : Word) : BitVec 8 := w.extractLsb' 24 8

/-- RSV, bits 23:16, which must be 0 (30_encoding.md R80). -/
def rsvField (w : Word) : BitVec 8 := w.extractLsb' 16 8

/-- IMM, bits 15:0 (30_encoding.md R80). -/
def immField (w : Word) : BitVec 16 := w.extractLsb' 0 16

/-- The operand forms of IMM (30_encoding.md R82). -/
inductive OperandForm where
  | none | sym8 | v6 | b8
  deriving DecidableEq, Repr

/-- How many low bits of IMM a form names; the others must be 0 (30_encoding.md R82). -/
def OperandForm.width : OperandForm → Nat
  | .none => 0
  | .sym8 => 8
  | .v6 => 6
  | .b8 => 8

/-- `sym = w[7:0]` (30_encoding.md R83). -/
def symOperand (w : Word) : Symbol := w.extractLsb' 0 8

/-- `v = w[5:0]` (30_encoding.md R83). -/
def v6Operand (w : Word) : Group := w.extractLsb' 0 6

/-- `b = w[7:0]` (30_encoding.md R83). -/
def b8Operand (w : Word) : Symbol := w.extractLsb' 0 8

end Sys2Proof
end

