-- ==== Sys2Proof/Syntax.lean ====
section
/-! DEFINITION. The command set (30_encoding.md R84), the host's bus accesses (20_memory.md R61) and
the lines of a written host program (30_encoding.md R88, R89). -/

namespace Sys2Proof

/-- The twelve commands, in the order of 30_encoding.md R84. Operand widths are those of R82. -/
inductive Instr where
  /-- 0x00: does nothing (40_control.md R103). -/
  | nop
  /-- 0x01: aborts and resets the codec (40_control.md R104). -/
  | clear
  /-- 0x02: appends one symbol to the text (41_frequency.md R120). -/
  | push (sym : Symbol)
  /-- 0x03: counts the symbols (41_frequency.md R121). -/
  | count
  /-- 0x04: builds the tree (42_tree_builder.md R140). -/
  | build
  /-- 0x05: flattens the tree (43_serializer.md R160). -/
  | serialize
  /-- 0x06: derives the codes (44_code_table.md R180). -/
  | derive
  /-- 0x07: packs the text's codes (45_bit_packer.md R200). -/
  | pack
  /-- 0x08: transcodes both segments (46_transcoder.md R222). -/
  | transcode
  /-- 0x09: runs the whole pipeline (40_control.md R105). -/
  | encode
  /-- 0x0A: maps one 6-bit value (46_transcoder.md R225). -/
  | xlate (v : Group)
  /-- 0x0B: maps one byte back (46_transcoder.md R226). -/
  | unxlate (b : Symbol)
  deriving DecidableEq, Repr

/-- What a host access does at its address (20_memory.md R61). -/
inductive AccessKind where
  | read
  | write (value : Word)
  deriving DecidableEq, Repr

/-- A bus access the host makes: a byte offset in the aperture, a width in bytes, and its kind. R61
allows width 4 at a multiple of 4; R62 says what any other gets. -/
structure Access where
  addr  : Nat
  width : Nat
  kind  : AccessKind
  deriving DecidableEq, Repr

/-- One action of the host: a bus access, or the polling loop WAIT (30_encoding.md R89). -/
inductive HostAction where
  | access (a : Access)
  | wait
  deriving DecidableEq, Repr

/-- The names that may begin a line of a host program: the twelve mnemonics (30_encoding.md R88) and
the pseudo-instructions (R89). -/
inductive Mnemonic where
  | nop | clear | push | count | build | serialize | derive | pack | transcode | encode | xlate | unxlate
  | pushs | word | wait | compress | check
  deriving DecidableEq, Repr

/-- A written operand: a number, a character literal, or the string of PUSHS and COMPRESS (30_encoding.md
R88, R89). -/
inductive Literal where
  | number (n : Nat)
  | character (c : Char)
  | quoted (cs : List Char)
  deriving DecidableEq, Repr

/-- A line of a host program: a name and at most one operand (30_encoding.md R88). -/
structure Line where
  name    : Mnemonic
  operand : Option Literal
  deriving DecidableEq, Repr

end Sys2Proof
end

