-- ==== Sys2Proof/Decode.lean ====
section
/-! DEFINITION. The command decoder, total on every 32-bit word (30_encoding.md R87), with the rows of
R84, and the encoder written from the same table. -/

namespace Sys2Proof

/-- A row of the match and mask table of 30_encoding.md R84, and the command it stands for. -/
structure Row where
  pattern : Word
  mask    : Word
  command : Word → Instr

/-- The table of 30_encoding.md R84. -/
def rows : List Row :=
  [ ⟨0x00000000#32, 0xFFFFFFFF#32, fun _ => .nop⟩,
    ⟨0x01000000#32, 0xFFFFFFFF#32, fun _ => .clear⟩,
    ⟨0x02000000#32, 0xFFFFFF00#32, fun w => .push (symOperand w)⟩,
    ⟨0x03000000#32, 0xFFFFFFFF#32, fun _ => .count⟩,
    ⟨0x04000000#32, 0xFFFFFFFF#32, fun _ => .build⟩,
    ⟨0x05000000#32, 0xFFFFFFFF#32, fun _ => .serialize⟩,
    ⟨0x06000000#32, 0xFFFFFFFF#32, fun _ => .derive⟩,
    ⟨0x07000000#32, 0xFFFFFFFF#32, fun _ => .pack⟩,
    ⟨0x08000000#32, 0xFFFFFFFF#32, fun _ => .transcode⟩,
    ⟨0x09000000#32, 0xFFFFFFFF#32, fun _ => .encode⟩,
    ⟨0x0A000000#32, 0xFFFFFFC0#32, fun w => .xlate (v6Operand w)⟩,
    ⟨0x0B000000#32, 0xFFFFFF00#32, fun w => .unxlate (b8Operand w)⟩ ]

/-- `(w & mask) == match` (30_encoding.md R87). -/
def Row.matches (r : Row) (w : Word) : Bool := w &&& r.mask == r.pattern

/-- The three ways a word is illegal (30_encoding.md R85). -/
inductive IllegalWord where
  /-- OP is 0x0C to 0xFF. -/
  | reservedOpcode
  /-- OP is assigned and RSV is not 0. -/
  | reservedBits
  /-- OP is assigned, RSV is 0, and an IMM bit that the form requires to be 0 is 1. -/
  | operandBits
  deriving DecidableEq, Repr

/-- The operand form of an assigned opcode (30_encoding.md R82, R84). -/
def formOf (op : BitVec 8) : OperandForm :=
  if op = 0x02 then .sym8 else if op = 0x0A then .v6 else if op = 0x0B then .b8 else .none

/-- Whether an IMM bit that the opcode's form does not name is 1 (30_encoding.md R82, R85). -/
def hasStrayBit (w : Word) : Bool := immField w >>> (formOf (opField w)).width != 0

/-- Which case of 30_encoding.md R85 an illegal word falls under. -/
def illegalCause (w : Word) : IllegalWord :=
  if 0x0C ≤ (opField w).toNat then .reservedOpcode
  else if rsvField w ≠ 0 then .reservedBits
  else .operandBits

/-- `decode(w)` (30_encoding.md R87): the row that matches, or ILLEGAL with its cause. -/
def decode (w : Word) : Except IllegalWord Instr :=
  match rows.find? (fun r => r.matches w) with
  | some r => .ok (r.command w)
  | none => .error (illegalCause w)

/-- The opcode of a command (30_encoding.md R84). -/
def Instr.opcode : Instr → BitVec 8
  | .nop => 0x00
  | .clear => 0x01
  | .push _ => 0x02
  | .count => 0x03
  | .build => 0x04
  | .serialize => 0x05
  | .derive => 0x06
  | .pack => 0x07
  | .transcode => 0x08
  | .encode => 0x09
  | .xlate _ => 0x0A
  | .unxlate _ => 0x0B

/-- The IMM field of a command: its operand zero-extended, or 0 (30_encoding.md R82, R83). -/
def Instr.imm : Instr → BitVec 16
  | .push sym => sym.setWidth 16
  | .xlate v => v.setWidth 16
  | .unxlate b => b.setWidth 16
  | .nop | .clear | .count | .build | .serialize | .derive | .pack | .transcode | .encode => 0

/-- The word of a command: OP, then RSV = 0, then IMM (30_encoding.md R80, R88). -/
def encode (i : Instr) : Word := i.opcode ++ (0#8 : BitVec 8) ++ i.imm

/-- The CLEAR word, the only one that takes effect at the CMD write (30_encoding.md R86). -/
def clearWord : Word := 0x01000000#32

/-- The command the decoder reads from a row of the opcode table: `w` holds the word's bits with bit 0
its least significant, and every bit at or above `nbits` is 0. -/
def decodeTableWord (nbits w : Nat) : Option Instr :=
  (decode (BitVec.ofNat 32 (w % 2 ^ nbits))).toOption

end Sys2Proof
end

