-- ==== Sys2Proof/Config.lean ====
section
/-! DEFINITION. What is fixed when the block is built, and the free values: the values the spec
leaves unspecified, of which nothing can be proved. -/

namespace Sys2Proof

/-- The identity constant of register ID (10_state.md R25). -/
def Config.idWord : Word := 0x48554631#32

/-- `NSYM_MAX`, the number of symbol values (00_scope.md R6). -/
def Config.symbolCount : Nat := 256

/-- `ELEM_BIAS`, added to a tree element before it is split in two halves (00_scope.md R6). -/
def Config.elementBias : Nat := 512

/-- `T_BASE`, the first byte of the safe alphabet (00_scope.md R6). -/
def Config.alphabetBase : Nat := 42

/-- `T_SKIP`, the one byte the safe alphabet leaves out (00_scope.md R6). -/
def Config.alphabetSkip : Nat := 92

/-- The largest value of either open parameter, 2^22 (00_scope.md R7, R8). -/
def Config.maxCapacity : Nat := 4194304

/-- The size of the aperture in bytes, 64 MiB: byte offsets are 26 bits (20_memory.md R60). -/
def Config.apertureBytes : Nat := 0x4000000

/-- Free: the open parameter MAX_LEN of this machine, less one (00_scope.md R7; log 6). -/
opaque Config.freeMaxLen : Fin 4194304

/-- Free: the open parameter MAX_GROUPS of this machine, less one (00_scope.md R8; log 6). -/
opaque Config.freeMaxGroups : Fin 4194304

/-- Free: the word that the n-th read of an unspecified value returns (10_state.md R48, 20_memory.md
R63 and R67; log 4). -/
opaque Config.freeRead : Nat → Word

/-- Free: what PENDING holds once BUSY is 0 again (10_state.md R23; log 2). -/
opaque Config.freePending : Nat → Word

/-- The internal memories that a command reads (10_state.md R38 to R45). -/
inductive MemoryName where
  | text | freq | node | tree | codeLen | codeVal | group
  deriving DecidableEq, Repr

/-- Free: the bits of an element that no command has written since reset or CLEAR, by memory, draw
and index; the widest element has 256 bits and a narrower one takes its low bits (10_state.md R53,
70_reset_and_hazards.md R293; log 3). -/
opaque Config.unwritten : MemoryName → Nat → Nat → BitVec 256

end Sys2Proof
end

