-- ==== Sys2Proof/Machine/State.lean ====
section
/-! DEFINITION. The state of the block: every register, latch, internal memory and hidden working state
of 10_state.md, as plain data, with the two agents' own data (R20); and the state after reset (R53). -/

namespace Sys2Proof.Machine

/-- PHASE, the last stage completed (10_state.md R22). -/
inductive Phase where
  | empty | loaded | counted | built | serialized | derived | packed | transcoded
  deriving DecidableEq, Repr

/-- The error codes of STATUS.ERRCODE; 6 to 15 are never produced (60_exceptions.md R261). -/
inductive ErrCode where
  | none | illegalCmd | sequence | badOperand | textFull | outOverflow
  deriving DecidableEq, Repr

/-- KIND of a node (10_state.md R40). -/
inductive NodeKind where
  | leaf | internal
  deriving DecidableEq, Repr

/-- A node of the builder's store (10_state.md R40). -/
structure Node where
  kind   : NodeKind
  sym    : Symbol
  weight : Word
  live   : Bool
  left   : BitVec 9
  right  : BitVec 9
  deriving DecidableEq, Repr

/-- The visitation phase `ph` of a serializer frame, 0, 1 or 2 (43_serializer.md R161). -/
inductive Visit where
  | notEntered | leftDone | bothDone
  deriving DecidableEq, Repr

/-- A frame of the serializer's stack: node id, visitation phase, and the slot of its placeholder
(10_state.md R49, 43_serializer.md R161). -/
structure Frame where
  node  : Nat
  visit : Visit
  slot  : Nat
  deriving DecidableEq, Repr

/-- The builder's two scan candidates, `none` for NONE (10_state.md R51, 42_tree_builder.md R142). -/
structure Scan where
  first  : Option Nat
  second : Option Nat
  deriving DecidableEq, Repr

/-- The two agents (10_state.md R20). -/
inductive Agent where
  | host | engine
  deriving DecidableEq, Repr

/-- An internal memory: (index, element) pairs, the indexes strictly rising. An index that is not listed
has unspecified contents (10_state.md R48, R53; log 3). -/
abbrev Memory (α : Type) := List (Nat × α)

/-- The canonical form of a memory: the indexes strictly rise. No value is what an unlisted index holds,
so no listed element can repeat one. -/
abbrev Memory.wf {α : Type} (m : Memory α) : Prop := m.Pairwise (fun a b => a.1 < b.1)

/-- Why a step stops with a fault. -/
inductive Fault where
  /-- The host's step raises it on an access of the wrong width or alignment: the bus error response,
  which the spec's model treats as a fault of the host program (20_memory.md R62, 60_exceptions.md R268;
  log 9). Safe: the host program stops where a platform may let it go on. -/
  | busError (a : Access)
  /-- The host's step raises it on an aligned 4-byte access at an offset the block's 26-bit aperture does
  not have (20_memory.md R60; log 10). Safe: the run stops. -/
  | outsideAperture (a : Access)
  deriving DecidableEq, Repr

/-- Why a step has no meaning. -/
inductive Refusal where
  /-- An arm of exec raises it for an instruction that has no meaning yet. Safe. No arm does so now. -/
  | notModelled (mnemonic : String)
  deriving DecidableEq, Repr

/-- The whole state. The first part is the spec's (10_state.md R22 to R51); the last four fields are the
model's own (log 4, log 7, log 8, log 13). -/
structure State where
  /-- PHASE (R22). -/
  phase : Phase
  /-- STATUS.BUSY (R28). -/
  busy : Bool
  /-- STATUS.DONE (R29). -/
  done : Bool
  /-- STATUS.ERR (R30). -/
  err : Bool
  /-- STATUS.OVERRUN (R31). -/
  overrun : Bool
  /-- STATUS.ERRCODE (R30). -/
  errCode : ErrCode
  /-- ERRINFO (R32). -/
  errInfo : Word
  /-- ERRAUX (R32). -/
  errAux : Word
  /-- PENDING, the latched command word (R23). -/
  pending : Word
  /-- LEN (R33). -/
  len : Word
  /-- NSYM (R33). -/
  nsym : Word
  /-- NNODES (R34). -/
  nnodes : Word
  /-- ROOT (R34). -/
  root : Word
  /-- TOTAL_BITS (R35). -/
  totalBits : Word
  /-- NGROUPS (R35). -/
  ngroups : Word
  /-- RESULT (R35). -/
  result : Word
  /-- The parameter MAX_LEN, which CFG_MAX_LEN reads (R36). -/
  maxLen : Nat
  /-- The parameter MAX_GROUPS, which CFG_MAX_GROUPS reads (R37). -/
  maxGroups : Nat
  /-- TEXT (R38). -/
  text : Memory Symbol
  /-- FREQ (R39). -/
  freq : Memory Word
  /-- NODE (R40). -/
  node : Memory Node
  /-- TREE (R43). -/
  tree : Memory Int
  /-- CODE_LEN (R44). -/
  codeLen : Memory (BitVec 8)
  /-- CODE_VAL (R44). -/
  codeVal : Memory (BitVec 256)
  /-- GROUP (R45). -/
  group : Memory Group
  /-- OUT_TREE (R46). -/
  outTree : Memory Symbol
  /-- OUT_BITS (R47). -/
  outBits : Memory Symbol
  /-- The serializer's stack (R49). -/
  frames : List Frame
  /-- The code-table deriver's stack: index and code so far (R49, 44_code_table.md R181). -/
  walk : List (Nat × BitString)
  /-- The packer's bit accumulator (R50). -/
  accumulator : BitString
  /-- The builder's scan candidates (R51). -/
  scan : Scan
  /-- The host's coming actions, the next one first. -/
  script : List HostAction
  /-- Whose step each coming step is (60_exceptions.md R265). -/
  turns : List Agent
  /-- The words the host's reads have returned, the newest first. -/
  received : List Word
  /-- How many free values have been drawn. -/
  draws : Nat
  deriving DecidableEq, Repr

/-- The state after reset of a block built with the given parameters (10_state.md R53, R291). Every
memory lists nothing, since its contents are unspecified; PENDING and the hidden working state have the
values log 1 and log 5 name; the agents have nothing to do yet (log 7, log 8). -/
def State.resetWith (maxLen maxGroups : Nat) : State where
  phase := .empty
  busy := false
  done := false
  err := false
  overrun := false
  errCode := .none
  errInfo := 0
  errAux := 0
  pending := 0
  len := 0
  nsym := 0
  nnodes := 0
  root := 0
  totalBits := 0
  ngroups := 0
  result := 0
  maxLen := maxLen
  maxGroups := maxGroups
  text := []
  freq := []
  node := []
  tree := []
  codeLen := []
  codeVal := []
  group := []
  outTree := []
  outBits := []
  frames := []
  walk := []
  accumulator := []
  scan := ⟨none, none⟩
  script := []
  turns := []
  received := []
  draws := 0

/-- The machine right after reset, with this machine's open parameters (10_state.md R53; log 6). -/
def State.reset : State :=
  State.resetWith (Config.freeMaxLen.val + 1) (Config.freeMaxGroups.val + 1)

end Sys2Proof.Machine
end

