-- ==== Sys2Proof/Machine/Ops.lean ====
section
/-! DEFINITION. The named operations over the memories and registers: element reads and writes, bit
strings, and the events that change STATUS: the error latch, a completion, a latched command, CLEAR. -/

namespace Sys2Proof.Machine

/-- The element a memory lists at an index, if it lists one. -/
def Memory.read? {α : Type} : Memory α → Nat → Option α
  | [], _ => none
  | (k, v) :: rest, i => if k = i then some v else Memory.read? rest i

/-- `MEM[i] <- v` (00_scope.md R13), keeping the canonical form. -/
def Memory.write {α : Type} : Memory α → Nat → α → Memory α
  | [], i, v => [(i, v)]
  | (k, u) :: rest, i, v =>
    if i < k then (i, v) :: (k, u) :: rest
    else if i = k then (i, v) :: rest
    else (k, u) :: Memory.write rest i v

/-- The listing of the elements of `vals` at indexes from `i` on. -/
def Memory.listing {α : Type} : Nat → List α → Memory α
  | _, [] => []
  | i, v :: vs => (i, v) :: Memory.listing (i + 1) vs

/-- Write the elements of `vals` at indexes 0, 1, …, leaving every later index alone. -/
def Memory.writeRun {α : Type} (m : Memory α) (vals : List α) : Memory α :=
  Memory.listing 0 vals ++ m.filter (fun c => decide (vals.length ≤ c.1))

/-- The number a bit string stands for, its first bit the most significant (10_state.md R44). -/
def bitsValue (p : BitString) : Nat := p.foldl (fun n b => 2 * n + b.toNat) 0

/-! ## Engine reads of the internal memories

An element that no command has written since reset or CLEAR reads as unspecified bits of its width (log 3);
in a run the engine reads none (10_state.md R53). -/

/-- TEXT[i] (10_state.md R38). -/
def State.textAt (s : State) (i : Nat) : Symbol :=
  (s.text.read? i).getD ((Config.unwritten .text s.draws i).setWidth 8)

/-- FREQ[i] (10_state.md R39). -/
def State.freqAt (s : State) (i : Nat) : Word :=
  (s.freq.read? i).getD ((Config.unwritten .freq s.draws i).setWidth 32)

/-- A node's fields from unspecified bits (10_state.md R40). -/
def nodeOfBits (w : BitVec 256) : Node where
  kind := if w.getLsbD 0 then .internal else .leaf
  sym := w.extractLsb' 1 8
  weight := w.extractLsb' 9 32
  live := w.getLsbD 41
  left := w.extractLsb' 42 9
  right := w.extractLsb' 51 9

/-- NODE[i] (10_state.md R40). -/
def State.nodeAt (s : State) (i : Nat) : Node :=
  (s.node.read? i).getD (nodeOfBits (Config.unwritten .node s.draws i))

/-- A tree element from unspecified bits: 10 bits, signed (20_memory.md R76). -/
def elementOfBits (w : BitVec 256) : Int := (w.setWidth 10).toInt

/-- TREE[i] (10_state.md R43). -/
def State.treeAt (s : State) (i : Nat) : Int :=
  (s.tree.read? i).getD (elementOfBits (Config.unwritten .tree s.draws i))

/-- CODE_LEN[i] (10_state.md R44). -/
def State.codeLenAt (s : State) (i : Nat) : BitVec 8 :=
  (s.codeLen.read? i).getD ((Config.unwritten .codeLen s.draws i).setWidth 8)

/-- CODE_VAL[i] (10_state.md R44). -/
def State.codeValAt (s : State) (i : Nat) : BitVec 256 :=
  (s.codeVal.read? i).getD (Config.unwritten .codeVal s.draws i)

/-- GROUP[i] (10_state.md R45). -/
def State.groupAt (s : State) (i : Nat) : Group :=
  (s.group.read? i).getD ((Config.unwritten .group s.draws i).setWidth 6)

/-- TEXT[0 .. LEN-1]. -/
def State.textList (s : State) : List Symbol := (List.range s.len.toNat).map s.textAt

/-- FREQ[0 .. 255]. -/
def State.freqList (s : State) : List Word := (List.range Config.symbolCount).map s.freqAt

/-- TREE[0 .. NNODES-1]. -/
def State.treeList (s : State) : List Int := (List.range s.nnodes.toNat).map s.treeAt

/-- GROUP[0 .. NGROUPS-1]. -/
def State.groupList (s : State) : List Group := (List.range s.ngroups.toNat).map s.groupAt

/-! ## Errors and completion -/

/-- What a command's own check reports: a code and the value of ERRAUX (60_exceptions.md R262). -/
structure CommandError where
  code : ErrCode
  aux  : Word
  deriving DecidableEq, Repr

/-- `raise Error(code, aux)`: the error latch (60_exceptions.md R262). This is the block's only exception
entry; ERRINFO gets the latched word, and nothing else of the command is kept. -/
def State.raiseError (s : State) (code : ErrCode) (aux : Word) : State :=
  { s with err := true, errCode := code, errInfo := s.pending, errAux := aux }

/-- The completion of a command: BUSY <- 0, DONE <- 1 (40_control.md R101). PENDING is unspecified from
here on (10_state.md R23; log 2). -/
def State.complete (s : State) : State :=
  { s with busy := false, done := true, pending := Config.freePending s.draws, draws := s.draws + 1 }

/-- A CMD write that latches a command: PENDING <- w, BUSY <- 1, DONE <- 0 (40_control.md R100). -/
def State.latch (s : State) (w : Word) : State := { s with pending := w, busy := true, done := false }

/-- A dropped CMD write: OVERRUN <- 1 (40_control.md R100, 10_state.md R31). -/
def State.setOverrun (s : State) : State := { s with overrun := true }

/-- `PHASE <- p` (00_scope.md R13). -/
def State.setPhase (s : State) (p : Phase) : State := { s with phase := p }

/-- The exit from the error latch, and the abort: every field of the block at its reset value, with DONE
<- 1 (40_control.md R104, 10_state.md R54, 60_exceptions.md R266). The parameters and the two agents' own
data stay; PENDING is unspecified (log 2). -/
def State.cleared (s : State) : State :=
  { State.resetWith s.maxLen s.maxGroups with
    done := true, pending := Config.freePending s.draws,
    script := s.script, turns := s.turns, received := s.received, draws := s.draws + 1 }

/-- A word a host read returned (20_memory.md R63). -/
def State.receive (s : State) (w : Word) : State := { s with received := w :: s.received }

/-- A host read of an unspecified value: a word drawn for this one read (20_memory.md R67; log 4). -/
def State.receiveFree (s : State) : State :=
  { s with received := Config.freeRead s.draws :: s.received, draws := s.draws + 1 }

end Sys2Proof.Machine
end

