-- ==== Sys2Proof/Machine/Flags.lean ====
section
/-! DEFINITION. The fields of STATUS (10_state.md R27), the phase columns of the opcode map
(30_encoding.md R84), and the order of a command's checks (40_control.md R102). -/

namespace Sys2Proof.Machine

/-- The value of PHASE (10_state.md R22). -/
def Phase.bits : Phase → BitVec 3
  | .empty => 0
  | .loaded => 1
  | .counted => 2
  | .built => 3
  | .serialized => 4
  | .derived => 5
  | .packed => 6
  | .transcoded => 7

/-- The order of the phases (10_state.md R22), in which PHASE only rises. -/
def Phase.rank (p : Phase) : Nat := p.bits.toNat

/-- The value of ERRCODE (60_exceptions.md R261). -/
def ErrCode.bits : ErrCode → BitVec 4
  | .none => 0
  | .illegalCmd => 1
  | .sequence => 2
  | .badOperand => 3
  | .textFull => 4
  | .outOverflow => 5

/-- The word STATUS reads: PHASE 18:16, ERRCODE 11:8, OVERRUN 3, ERR 2, DONE 1, BUSY 0, and 0 in every bit
not listed (10_state.md R27). -/
def State.statusWord (s : State) : Word :=
  (0#13 : BitVec 13) ++ s.phase.bits ++ (0#4 : BitVec 4) ++ s.errCode.bits ++ (0#4 : BitVec 4)
    ++ BitVec.ofBool s.overrun ++ BitVec.ofBool s.err ++ BitVec.ofBool s.done ++ BitVec.ofBool s.busy

/-- "Phase in" of 30_encoding.md R84: the phases in which a command is legal. -/
def phaseIn : Instr → Phase → Bool
  | .nop, _ => true
  | .clear, _ => true
  | .push _, p => p == .empty || p == .loaded
  | .count, p => p == .empty || p == .loaded
  | .build, p => p == .counted
  | .serialize, p => p == .built
  | .derive, p => p == .serialized
  | .pack, p => p == .derived
  | .transcode, p => p == .packed
  | .encode, p => p == .empty || p == .loaded
  | .xlate _, _ => true
  | .unxlate _, _ => true

/-- "Phase out" of 30_encoding.md R84: PHASE after the command succeeds; `none` is "unchanged". -/
def phaseOut : Instr → Option Phase
  | .nop => none
  | .clear => some .empty
  | .push _ => some .loaded
  | .count => some .counted
  | .build => some .built
  | .serialize => some .serialized
  | .derive => some .derived
  | .pack => some .packed
  | .transcode => some .transcoded
  | .encode => some .transcoded
  | .xlate _ => none
  | .unxlate _ => none

/-- `if phase_out(m) != unchanged: PHASE <- phase_out(m)` (40_control.md R102). -/
def State.advance (s : State) (i : Instr) : State :=
  match phaseOut i with
  | some p => s.setPhase p
  | none => s

/-- What a command's rule does to the state once its phase is right: the state it writes, or the error it
raises (40_control.md R102). -/
abbrev Rule := State → Except CommandError State

/-- `Execute(w)` past decoding: the phase check, the command's rule, then PHASE; the first check that
fails latches its error and keeps nothing else (40_control.md R102, 60_exceptions.md R263 and R264). -/
def State.perform (s : State) (i : Instr) (rule : Rule) : State :=
  if phaseIn i s.phase then
    match rule s with
    | .ok t => t.advance i
    | .error e => s.raiseError e.code e.aux
  else s.raiseError .sequence 0

end Sys2Proof.Machine
end

