-- ==== Sys2Proof/WellFormed.lean ====
section
/-! DEFINITION. What is well formed: a bus access of the form the block accepts (20_memory.md R61), and
a line an assembler takes (30_encoding.md R88). A command is well formed by its type: `Instr` carries
each operand at the width 30_encoding.md R82 gives it, and every value of that width is legal (R83). -/

namespace Sys2Proof

/-- The one access form the block accepts: 4 bytes, at a multiple of 4 (20_memory.md R61), inside the
aperture (R60). -/
def Access.wellFormed (a : Access) : Bool :=
  decide (a.width = 4) && decide (a.addr % 4 = 0) && decide (a.addr < Config.apertureBytes)

/-- An action that meets no bus error: WAIT polls STATUS, an accepted access (20_memory.md R61, R62). -/
def HostAction.wellFormed : HostAction → Bool
  | .access a => a.wellFormed
  | .wait => true

/-- A character that has an ASCII code (30_encoding.md R88). -/
def isAscii (c : Char) : Bool := decide (c.toNat < 128)

/-- The range check of an assembler: an operand out of range is rejected, never truncated, and a line has
an operand exactly where its form names one (30_encoding.md R82, R88, R89). -/
def Line.wellFormed (l : Line) : Bool :=
  match l.name with
  | .nop | .clear | .count | .build | .serialize | .derive | .pack | .transcode | .encode | .wait | .check =>
    l.operand.isNone
  | .push =>
    match l.operand with
    | some (.number n) => decide (n < 256)
    | some (.character c) => isAscii c
    | _ => false
  | .xlate =>
    match l.operand with
    | some (.number n) => decide (n < 64)
    | _ => false
  | .unxlate =>
    match l.operand with
    | some (.number n) => decide (n < 256)
    | _ => false
  | .word =>
    match l.operand with
    | some (.number n) => decide (n < 2 ^ 32)
    | _ => false
  | .pushs | .compress =>
    match l.operand with
    | some (.quoted cs) => cs.all isAscii
    | _ => false

end Sys2Proof
end

