-- ==== Sys2Proof/Machine/Bus.lean ====
section
/-! DEFINITION. The host's view of the block: the address map (20_memory.md R60), the registers
(10_state.md R24), the windows (R38 to R47) and their validity (R48), and a read (20_memory.md R63). -/

namespace Sys2Proof.Machine

/-- The host registers, in offset order (10_state.md R24). -/
inductive Register where
  | id | cmd | status | errInfo | errAux | len | nsym | nnodes | root | totalBits | ngroups | result
  | cfgMaxLen | cfgMaxGroups
  deriving DecidableEq, Repr

/-- The host registers in the order of their offsets, four bytes each from 0x000 (10_state.md R24). -/
def registerMap : List Register :=
  [.id, .cmd, .status, .errInfo, .errAux, .len, .nsym, .nnodes, .root, .totalBits, .ngroups, .result,
    .cfgMaxLen, .cfgMaxGroups]

/-- What a word-aligned offset names (20_memory.md R60). -/
inductive Location where
  | register (r : Register)
  | freq (sym : Nat)
  | node (id word : Nat)
  | tree (i : Nat)
  | codeLen (sym : Nat)
  | codeVal (sym word : Nat)
  | outTree (c : Nat)
  | text (i : Nat)
  | group (j : Nat)
  | outBits (j : Nat)
  | reserved
  deriving DecidableEq, Repr

/-- The address map. A word of the TEXT, GROUP or OUT_BITS region at or beyond the memory's capacity is
reserved (20_memory.md R60). -/
def locate (maxLen maxGroups addr : Nat) : Location :=
  if addr < 0x38 then
    match registerMap[addr / 4]? with
    | some r => .register r
    | none => .reserved
  else if addr < 0x1000 then .reserved
  else if addr < 0x1400 then .freq ((addr - 0x1000) / 4)
  else if addr < 0x2000 then .reserved
  else if addr < 0x3FF0 then .node ((addr - 0x2000) / 16) ((addr - 0x2000) % 16 / 4)
  else if addr < 0x4000 then .reserved
  else if addr < 0x47FC then .tree ((addr - 0x4000) / 4)
  else if addr < 0x5000 then .reserved
  else if addr < 0x5400 then .codeLen ((addr - 0x5000) / 4)
  else if addr < 0x6000 then .reserved
  else if addr < 0x8000 then .codeVal ((addr - 0x6000) / 32) ((addr - 0x6000) % 32 / 4)
  else if addr < 0x8FF8 then .outTree ((addr - 0x8000) / 4)
  else if addr < 0x1000000 then .reserved
  else if addr < 0x2000000 then
    if (addr - 0x1000000) / 4 < maxLen then .text ((addr - 0x1000000) / 4) else .reserved
  else if addr < 0x3000000 then
    if (addr - 0x2000000) / 4 < maxGroups then .group ((addr - 0x2000000) / 4) else .reserved
  else if addr < 0x4000000 then
    if (addr - 0x3000000) / 4 < maxGroups then .outBits ((addr - 0x3000000) / 4) else .reserved
  else .reserved

/-- What a register reads while BUSY = 0 (10_state.md R24 to R37). -/
def State.registerWord (s : State) : Register → Word
  | .id => Config.idWord
  | .cmd => 0
  | .status => s.statusWord
  | .errInfo => s.errInfo
  | .errAux => s.errAux
  | .len => s.len
  | .nsym => s.nsym
  | .nnodes => s.nnodes
  | .root => s.root
  | .totalBits => s.totalBits
  | .ngroups => s.ngroups
  | .result => s.result
  | .cfgMaxLen => BitVec.ofNat 32 s.maxLen
  | .cfgMaxGroups => BitVec.ofNat 32 s.maxGroups

/-- The registers that are defined while BUSY = 1 too (20_memory.md R63; log 16 for CMD). -/
def Register.definedWhileBusy : Register → Bool
  | .id | .status | .cfgMaxLen | .cfgMaxGroups => true
  | .cmd | .errInfo | .errAux | .len | .nsym | .nnodes | .root | .totalBits | .ngroups | .result => false

/-- Whether a window element is valid (10_state.md R48). -/
def State.valid (s : State) : Location → Bool
  | .register _ => true
  | .reserved => true
  | .text i => !s.busy && decide (i < s.len.toNat)
  | .freq _ => !s.busy && decide (Phase.counted.rank ≤ s.phase.rank)
  | .node j _ => !s.busy && decide (Phase.built.rank ≤ s.phase.rank) && decide (j < s.nnodes.toNat)
  | .tree i => !s.busy && decide (Phase.serialized.rank ≤ s.phase.rank) && decide (i < s.nnodes.toNat)
  | .codeLen _ => !s.busy && decide (Phase.derived.rank ≤ s.phase.rank)
  | .codeVal _ _ => !s.busy && decide (Phase.derived.rank ≤ s.phase.rank)
  | .group j => !s.busy && decide (Phase.packed.rank ≤ s.phase.rank) && decide (j < s.ngroups.toNat)
  | .outTree c => !s.busy && decide (s.phase = .transcoded) && decide (c < 2 * s.nnodes.toNat)
  | .outBits j => !s.busy && decide (s.phase = .transcoded) && decide (j < s.ngroups.toNat)

/-- INFO: bit 0 = KIND, bit 1 = LIVE, bits 15:8 = SYM (10_state.md R41). -/
def Node.infoWord (n : Node) : Word :=
  (0#16 : BitVec 16) ++ n.sym ++ (0#6 : BitVec 6) ++ BitVec.ofBool n.live
    ++ BitVec.ofBool (n.kind == .internal)

/-- The four window words of a node (10_state.md R41). -/
def Node.windowWord (n : Node) (word : Nat) : Word :=
  match word with
  | 0 => n.weight
  | 1 => n.infoWord
  | 2 => n.left.setWidth 32
  | _ => n.right.setWidth 32

/-- The window word of a listed element (10_state.md R38 to R47). -/
def State.windowWord (s : State) : Location → Option Word
  | .register r => some (s.registerWord r)
  | .reserved => some 0
  | .text i => (s.text.read? i).map (·.setWidth 32)
  | .freq v => s.freq.read? v
  | .node j w => (s.node.read? j).map (·.windowWord w)
  | .tree i => (s.tree.read? i).map (BitVec.ofInt 32)
  | .codeLen v => (s.codeLen.read? v).map (·.setWidth 32)
  | .codeVal v w => (s.codeVal.read? v).map (·.extractLsb' (32 * w) 32)
  | .group j => (s.group.read? j).map (·.setWidth 32)
  | .outTree c => (s.outTree.read? c).map (·.setWidth 32)
  | .outBits j => (s.outBits.read? j).map (·.setWidth 32)

/-- The word at a location, or `none` where its value is unspecified: a register that BUSY = 1 hides, or
an element that is not valid (20_memory.md R63). -/
def State.wordAt (s : State) (loc : Location) : Option Word :=
  match loc with
  | .register r => if s.busy && !r.definedWhileBusy then none else some (s.registerWord r)
  | _ => if s.valid loc then s.windowWord loc else none

/-- `MemRead(addr, 4)` of an accepted access (20_memory.md R63): the word, or `none` where unspecified. -/
def State.readWord (s : State) (addr : Nat) : Option Word := s.wordAt (locate s.maxLen s.maxGroups addr)

/-- A host read: the host receives the word, or a drawn one where the value is unspecified (20_memory.md
R63, R67). -/
def State.hostRead (s : State) (addr : Nat) : State :=
  match s.readWord addr with
  | some w => s.receive w
  | none => s.receiveFree

/-- The offset of CMD (10_state.md R24). -/
def cmdOffset : Nat := 0x004

/-- The offset of STATUS (10_state.md R24). -/
def statusOffset : Nat := 0x008

end Sys2Proof.Machine
end

