-- ==== Sys2Proof/Machine/BitPacker.lean ====
section
/-! DEFINITION. The variable-length bit-packer: PACK (45_bit_packer.md). -/

namespace Sys2Proof.Machine

/-- `CODE(s)` from CODE_LEN and CODE_VAL: bit j is `CODE_VAL[s][L-1-j]` (45_bit_packer.md R201, 10_state.md
R44). -/
def codeBits (len : BitVec 8) (val : BitVec 256) : BitString :=
  (List.range len.toNat).map (fun j => val.getLsbD (len.toNat - 1 - j))

/-- The code of a symbol as the memories hold it (45_bit_packer.md R201). -/
def State.codeOf (s : State) (sym : Symbol) : BitString :=
  codeBits (s.codeLenAt sym.toNat) (s.codeValAt sym.toNat)

/-- S, the packed bit string: the codes of the text's symbols in input order (45_bit_packer.md R201). -/
def State.packedBits (s : State) : BitString := s.textList.flatMap s.codeOf

/-- `ceil(tb / 6)` (45_bit_packer.md R201). -/
def groupsNeeded (tb : Nat) : Nat := (tb + 5) / 6

/-- GROUP[j]: bits 6j to 6j + 5, the first one most significant, with zeros past the end (45_bit_packer.md
R201, R204). -/
def groupOf (bits : BitString) (j : Nat) : Group :=
  BitVec.ofNat 6 (bitsValue ((List.range 6).map (fun t => bits.getD (6 * j + t) false)))

/-- GROUP[0 .. ng-1] (45_bit_packer.md R201). -/
def packGroups (bits : BitString) : List Group := (List.range (groupsNeeded bits.length)).map (groupOf bits)

/-- PACK's rule: OUT_OVERFLOW with the groups needed, or GROUP, TOTAL_BITS and NGROUPS (45_bit_packer.md
R201, R202); the accumulator's contents are discarded (10_state.md R50). -/
def packRule : Rule := fun s =>
  let bits := s.packedBits
  let ng := groupsNeeded bits.length
  if s.maxGroups < ng then .error ⟨.outOverflow, BitVec.ofNat 32 ng⟩
  else .ok { s with
    group := s.group.writeRun (packGroups bits), totalBits := BitVec.ofNat 32 bits.length,
    ngroups := BitVec.ofNat 32 ng, accumulator := [] }

/-- PACK (45_bit_packer.md R200). -/
def execPack (s : State) : Host.Outcome State Fault Refusal :=
  .next (s.perform .pack packRule)

/-! ## The streaming form of 45_bit_packer.md R207 -/

/-- Take 6 bits at a time while at least 6 are held: the groups taken and the remainder (R207). -/
def takeGroups : BitString → List Group × BitString
  | a :: b :: c :: d :: e :: f :: rest =>
    (BitVec.ofNat 6 (bitsValue [a, b, c, d, e, f]) :: (takeGroups rest).1, (takeGroups rest).2)
  | held => ([], held)

/-- Flush what is held, with zero padding on the right; nothing where nothing is held (R204, R207). -/
def flushGroup (held : BitString) : List Group :=
  if held = [] then []
  else [BitVec.ofNat 6 (bitsValue (held ++ List.replicate (6 - held.length) false))]

/-- The streaming packer: for each code, append it to the accumulator and take full groups; then flush
(R207). -/
def packStream : List BitString → BitString → List Group
  | [], held => flushGroup held
  | code :: codes, held =>
    (takeGroups (held ++ code)).1 ++ packStream codes (takeGroups (held ++ code)).2

end Sys2Proof.Machine
end

