-- ==== Sys2Proof/Machine/CodeTable.lean ====
section
/-! DEFINITION. The code-table derivation: DERIVE (44_code_table.md). A code table is the list of the 256
symbols' codes, the empty string for a symbol that has none. -/

namespace Sys2Proof.Machine

/-- CODE_LEN = 0 and CODE_VAL = 0 for every symbol (44_code_table.md R181). -/
def emptyTable : List BitString := List.replicate Config.symbolCount []

/-- The loop of `derive()` over a stack of (index, code so far) pairs, the top first (44_code_table.md
R181). `none`: the rounds ran out with the stack not empty. -/
def deriveLoop (elemAt : Nat → Int) : Nat → List (Nat × BitString) → List BitString → Option (List BitString)
  | _, [], table => some table
  | 0, _ :: _, _ => none
  | rounds + 1, (i, p) :: rest, table =>
    if 0 ≤ elemAt i then deriveLoop elemAt rounds rest (table.set (elemAt i).toNat p)
    else
      deriveLoop elemAt rounds ((i + 1, p ++ [false]) :: ((-elemAt i).toNat, p ++ [true]) :: rest) table

/-- `derive()` (44_code_table.md R181): the empty table (R184), the single leaf (R183), or the walk. A tree
of n elements takes n rounds; `none` where the walk takes more, so that TREE holds no tree. -/
def deriveCodes (elemAt : Nat → Int) (nnodes root : Nat) : Option (List BitString) :=
  if nnodes = 0 then some emptyTable
  else if 0 ≤ elemAt root then some (emptyTable.set (elemAt root).toNat [false])
  else deriveLoop elemAt nnodes [(root, [])] emptyTable

/-- `CODE_LEN[s] <- |p|` (44_code_table.md R182; log 19). -/
def codeLength (p : BitString) : BitVec 8 := BitVec.ofNat 8 p.length

/-- `CODE_VAL[s] <- sum over j < |p| of p(j) * 2^(|p|-1-j)` (44_code_table.md R182). -/
def codeValue (p : BitString) : BitVec 256 := BitVec.ofNat 256 (bitsValue p)

/-- The 256 elements of CODE_LEN that DERIVE writes: free where TREE holds no tree (log 11). -/
def State.derivedLengths (s : State) : Option (List BitString) → List (BitVec 8)
  | some table => table.map codeLength
  | none =>
    (List.range Config.symbolCount).map (fun i => (Config.unwritten .codeLen s.draws i).setWidth 8)

/-- The 256 elements of CODE_VAL that DERIVE writes: free where TREE holds no tree (log 11). -/
def State.derivedValues (s : State) : Option (List BitString) → List (BitVec 256)
  | some table => table.map codeValue
  | none => (List.range Config.symbolCount).map (fun i => Config.unwritten .codeVal s.draws i)

/-- DERIVE's rule: every element of CODE_LEN and CODE_VAL; the stack is empty again (44_code_table.md R180). -/
def deriveRule : Rule := fun s =>
  let table := deriveCodes s.treeAt s.nnodes.toNat s.root.toNat
  .ok { s with
    codeLen := s.codeLen.writeRun (s.derivedLengths table),
    codeVal := s.codeVal.writeRun (s.derivedValues table), walk := [] }

/-- DERIVE (44_code_table.md R180). -/
def execDerive (s : State) : Host.Outcome State Fault Refusal :=
  .next (s.perform .derive deriveRule)

end Sys2Proof.Machine
end

