-- ==== Sys2Proof/Machine/Frequency.lean ====
section
/-! DEFINITION. The input text and the frequency counter: PUSH and COUNT (41_frequency.md). -/

namespace Sys2Proof.Machine

/-- PUSH's rule: TEXT[LEN] <- sym and LEN <- LEN + 1, or TEXT_FULL (41_frequency.md R120). -/
def pushRule (sym : Symbol) : Rule := fun s =>
  if s.len.toNat = s.maxLen then .error ⟨.textFull, 0⟩
  else .ok { s with text := s.text.write s.len.toNat sym, len := s.len + 1 }

/-- `FREQ[s] <- #(i : 0 <= i < LEN and TEXT[i] = s)`, for s = 0 to 255 (41_frequency.md R121; log 19). -/
def frequencyTable (text : List Symbol) : List Word :=
  (List.range Config.symbolCount).map (fun v => BitVec.ofNat 32 (text.count (BitVec.ofNat 8 v)))

/-- `NSYM <- #(s : FREQ[s] > 0)` (41_frequency.md R121). -/
def distinctCount (freq : List Word) : Nat := freq.countP (fun c => decide (0 < c.toNat))

/-- COUNT's rule (41_frequency.md R121). -/
def countRule : Rule := fun s =>
  let table := frequencyTable s.textList
  .ok { s with freq := s.freq.writeRun table, nsym := BitVec.ofNat 32 (distinctCount table) }

/-- PUSH (41_frequency.md R120). -/
def execPush (sym : Symbol) (s : State) : Host.Outcome State Fault Refusal :=
  .next (s.perform (.push sym) (pushRule sym))

/-- COUNT (41_frequency.md R121). -/
def execCount (s : State) : Host.Outcome State Fault Refusal :=
  .next (s.perform .count countRule)

end Sys2Proof.Machine
end

