-- ==== Sys2Proof/Machine/Serializer.lean ====
section
/-! DEFINITION. The iterative tree serializer: SERIALIZE (43_serializer.md). -/

namespace Sys2Proof.Machine

/-- The PLACEHOLDER of `flatten()`, which every walk overwrites (43_serializer.md R161; log 20). -/
def placeholder : Int := -1

/-- The frame pushed for a child, or for the root: `(node, ph = 0, slot = 0)` (43_serializer.md R161). -/
def childFrame (id : Nat) : Frame := ⟨id, .notEntered, 0⟩

/-- The loop of `flatten()` over a stack of frames, the top first; `out` is TREE[0 .. pos-1]
(43_serializer.md R161). `none`: the rounds ran out with the stack not empty. -/
def flattenLoop (nodeAt : Nat → Node) : Nat → List Frame → List Int → Option (List Int)
  | _, [], out => some out
  | 0, _ :: _, _ => none
  | rounds + 1, f :: rest, out =>
    let n := nodeAt f.node
    match n.kind with
    | .leaf => flattenLoop nodeAt rounds rest (out ++ [(n.sym.toNat : Int)])
    | .internal =>
      match f.visit with
      | .notEntered =>
        flattenLoop nodeAt rounds
          (childFrame n.left.toNat :: ⟨f.node, .leftDone, out.length⟩ :: rest) (out ++ [placeholder])
      | .leftDone =>
        flattenLoop nodeAt rounds
          (childFrame n.right.toNat :: ⟨f.node, .bothDone, f.slot⟩ :: rest)
          (out.set f.slot (-(out.length : Int)))
      | .bothDone => flattenLoop nodeAt rounds rest out

/-- `flatten()` from the root, node NNODES - 1 (43_serializer.md R160, R161). A full binary tree of n nodes
takes 2n - 1 rounds and gives n elements, "here pos == NNODES"; `none` where the walk does otherwise, so that
NODE holds no tree. -/
def flatten (nodeAt : Nat → Node) (nnodes : Nat) : Option (List Int) :=
  if nnodes = 0 then some []
  else
    (flattenLoop nodeAt (2 * nnodes) [childFrame (nnodes - 1)] []).filter
      (fun out => decide (out.length = nnodes))

/-- Free tree elements, for a NODE that holds no tree, where the spec states no result (log 11). -/
def State.freeTree (s : State) : List Int :=
  (List.range s.nnodes.toNat).map (fun i => elementOfBits (Config.unwritten .tree s.draws i))

/-- SERIALIZE's rule: TREE by `flatten()`, then ROOT <- 0; the stack is empty again (43_serializer.md R160). -/
def serializeRule : Rule := fun s =>
  .ok { s with
    tree := s.tree.writeRun ((flatten s.nodeAt s.nnodes.toNat).getD s.freeTree), root := 0, frames := [] }

/-- SERIALIZE (43_serializer.md R160). -/
def execSerialize (s : State) : Host.Outcome State Fault Refusal :=
  .next (s.perform .serialize serializeRule)

end Sys2Proof.Machine
end

