-- ==== Sys2Proof/Machine/Transcoder.lean ====
section
/-! DEFINITION. The alphabet-safe transcoder: TRANSCODE, XLATE and UNXLATE (46_transcoder.md). -/

namespace Sys2Proof.Machine

/-- `T(v)`: 42 + v, and one more from 92 on (46_transcoder.md R220). -/
def toSafe (v : Group) : Symbol :=
  let byte := Config.alphabetBase + v.toNat
  if Config.alphabetSkip ≤ byte then BitVec.ofNat 8 (byte + 1) else BitVec.ofNat 8 byte

/-- The range of T, 42 to 91 and 93 to 106 (46_transcoder.md R220, R221). -/
def isSafe (b : Symbol) : Bool :=
  (decide (42 ≤ b.toNat) && decide (b.toNat ≤ 91)) || (decide (93 ≤ b.toNat) && decide (b.toNat ≤ 106))

/-- `U(b)`, for a byte in the range of T (46_transcoder.md R221). -/
def fromSafe (b : Symbol) : Group :=
  let v := if Config.alphabetSkip < b.toNat then b.toNat - 1 else b.toNat
  BitVec.ofNat 6 (v - Config.alphabetBase)

/-- `u <- TREE[i] + 512`, a 12-bit value (46_transcoder.md R223). -/
def elementBits (e : Int) : BitVec 12 := BitVec.ofInt 12 (e + Config.elementBias)

/-- The two characters of a tree element, the high half first (46_transcoder.md R223). -/
def elementChars (e : Int) : List Symbol :=
  [toSafe ((elementBits e).extractLsb' 6 6), toSafe ((elementBits e).extractLsb' 0 6)]

/-- `transcode_tree()`: OUT_TREE[0 .. 2*NNODES-1] (46_transcoder.md R223). -/
def transcodeTree (elements : List Int) : List Symbol := elements.flatMap elementChars

/-- `transcode_bits()`: OUT_BITS[0 .. NGROUPS-1] (46_transcoder.md R224). -/
def transcodeBits (groups : List Group) : List Symbol := groups.map toSafe

/-- TRANSCODE's rule (46_transcoder.md R222). -/
def transcodeRule : Rule := fun s =>
  .ok { s with
    outTree := s.outTree.writeRun (transcodeTree s.treeList),
    outBits := s.outBits.writeRun (transcodeBits s.groupList) }

/-- XLATE's rule: `RESULT <- zext_32(T(v))` (46_transcoder.md R225). -/
def xlateRule (v : Group) : Rule := fun s => .ok { s with result := (toSafe v).setWidth 32 }

/-- UNXLATE's rule: BAD_OPERAND outside T's range, or `RESULT <- zext_32(U(b))` (46_transcoder.md R226). -/
def unxlateRule (b : Symbol) : Rule := fun s =>
  if isSafe b then .ok { s with result := (fromSafe b).setWidth 32 }
  else .error ⟨.badOperand, 0⟩

/-- TRANSCODE (46_transcoder.md R222). -/
def execTranscode (s : State) : Host.Outcome State Fault Refusal :=
  .next (s.perform .transcode transcodeRule)

/-- XLATE (46_transcoder.md R225). -/
def execXlate (v : Group) (s : State) : Host.Outcome State Fault Refusal :=
  .next (s.perform (.xlate v) (xlateRule v))

/-- UNXLATE (46_transcoder.md R226). -/
def execUnxlate (b : Symbol) (s : State) : Host.Outcome State Fault Refusal :=
  .next (s.perform (.unxlate b) (unxlateRule b))

end Sys2Proof.Machine
end

