-- ==== Sys2Proof/Machine/TreeBuilder.lean ====
section
/-! DEFINITION. The Huffman tree builder: BUILD (42_tree_builder.md). The node store the command works
on is a list, a node's id being its place in it. -/

namespace Sys2Proof.Machine

/-- A leaf of `init_leaves()` (42_tree_builder.md R141). -/
def leafNode (sym : Symbol) (weight : Word) : Node :=
  ⟨.leaf, sym, weight, true, 0, 0⟩

/-- `init_leaves()`: one leaf per symbol whose count is not 0, in ascending symbol order (42_tree_builder.md
R141). `freq` lists FREQ from symbol 0 on. -/
def initLeaves (freq : List Word) : List Node :=
  (freq.zipIdx.filter (fun c => decide (0 < c.1.toNat))).map (fun c => leafNode (BitVec.ofNat 8 c.2) c.1)

/-- `NODE[j]` while BUILD runs; every id it looks up is in the list. -/
def nodeIn (nodes : List Node) (j : Nat) : Node := nodes.getD j (leafNode 0 0)

/-- `c == NONE or NODE[j].W < NODE[c].W` (42_tree_builder.md R142). -/
def lighter (nodes : List Node) (j : Nat) : Option Nat → Bool
  | none => true
  | some c => decide ((nodeIn nodes j).weight.toNat < (nodeIn nodes c).weight.toNat)

/-- One round of the scan of `select2` (42_tree_builder.md R142). -/
def scanNode (nodes : List Node) (sc : Scan) (j : Nat) : Scan :=
  if (nodeIn nodes j).live = false then sc
  else if lighter nodes j sc.first then ⟨some j, sc.first⟩
  else if lighter nodes j sc.second then ⟨sc.first, some j⟩
  else sc

/-- `select2(nnext)`: the ids in ascending order, strict comparisons (42_tree_builder.md R142). -/
def select2 (nodes : List Node) : Scan :=
  (List.range nodes.length).foldl (scanNode nodes) ⟨none, none⟩

/-- `NODE[j].LIVE <- 0`; the weight stays (42_tree_builder.md R143, 10_state.md R42). -/
def Node.consume (n : Node) : Node := { n with live := false }

/-- The internal node that a merge makes: the lighter one becomes its RIGHT child (42_tree_builder.md R143). -/
def mergedNode (nodes : List Node) (first second : Nat) : Node where
  kind := .internal
  sym := 0
  weight := (nodeIn nodes first).weight + (nodeIn nodes second).weight
  live := true
  left := BitVec.ofNat 9 second
  right := BitVec.ofNat 9 first

/-- `merge(first, second, nnext)` (42_tree_builder.md R143). -/
def merge (nodes : List Node) (first second : Nat) : List Node :=
  (nodes.modify first Node.consume).modify second Node.consume ++ [mergedNode nodes first second]

/-- `#(j < nnext : NODE[j].LIVE == 1)` (42_tree_builder.md R140). -/
def liveCount (nodes : List Node) : Nat := nodes.countP Node.live

/-- The loop of BUILD (42_tree_builder.md R140). Each round lowers the live count by one, so as many rounds
as there are nodes at the start are enough. Where two nodes are live, both candidates are ids. -/
def mergeLoop : Nat → List Node → Scan → List Node × Scan
  | 0, nodes, sc => (nodes, sc)
  | rounds + 1, nodes, sc =>
    if 2 ≤ liveCount nodes then
      mergeLoop rounds
        (merge nodes ((select2 nodes).first.getD 0) ((select2 nodes).second.getD 0)) (select2 nodes)
    else (nodes, sc)

/-- The nodes that BUILD makes of a frequency table (42_tree_builder.md R140). -/
def buildNodes (leaves : List Node) (sc : Scan) : List Node × Scan :=
  mergeLoop leaves.length leaves sc

/-- BUILD's rule: `k <- NSYM` leaves, then the merges; NNODES <- nnext (42_tree_builder.md R140; log 12). -/
def buildRule : Rule := fun s =>
  let leaves := (initLeaves s.freqList).take s.nsym.toNat
  let built := buildNodes leaves s.scan
  .ok { s with
    node := s.node.writeRun built.1, nnodes := BitVec.ofNat 32 built.1.length, scan := built.2 }

/-- BUILD (42_tree_builder.md R140). -/
def execBuild (s : State) : Host.Outcome State Fault Refusal :=
  .next (s.perform .build buildRule)

end Sys2Proof.Machine
end

