-- ==== Sys2Proof/Machine/Control.lean ====
section
/-! DEFINITION. The control commands: NOP, CLEAR and ENCODE (40_control.md R103 to R105). -/

namespace Sys2Proof.Machine

/-- NOP's rule: `skip` (40_control.md R103). -/
def nopRule : Rule := fun s => .ok s

/-- NOP (40_control.md R103). -/
def execNop (s : State) : Host.Outcome State Fault Refusal :=
  .next (s.perform .nop nopRule)

/-- CLEAR: everything at its reset value, with DONE = 1, whatever BUSY and ERR are (40_control.md R104). -/
def execClear (s : State) : Host.Outcome State Fault Refusal :=
  .next s.cleared

/-- The stages of ENCODE, in order, each with its rule (40_control.md R105). -/
def encodeStages : List (Instr × Rule) :=
  [(.count, countRule), (.build, buildRule), (.serialize, serializeRule), (.derive, deriveRule),
    (.pack, packRule), (.transcode, transcodeRule)]

/-- The loop of ENCODE: a stage that succeeds commits its writes and its PHASE; one that raises an error
latches it and stops, PHASE staying at the last stage completed (40_control.md R105). -/
def runStages : List (Instr × Rule) → State → State
  | [], s => s
  | (i, rule) :: stages, s =>
    match rule s with
    | .ok t => runStages stages (t.advance i)
    | .error e => s.raiseError e.code e.aux

/-- ENCODE (40_control.md R105): the phase check of R102, then the stages, all in one engine step (log 14). -/
def execEncode (s : State) : Host.Outcome State Fault Refusal :=
  .next (if phaseIn .encode s.phase then runStages encodeStages s else s.raiseError .sequence 0)

end Sys2Proof.Machine
end

