-- ==== Sys2Proof/Machine/Dispatch.lean ====
section
/-! DEFINITION. The effect of each command: `Execute(w)` past decoding (40_control.md R102), and for CLEAR
its action at the CMD write (R104). -/

namespace Sys2Proof.Machine

/-- One arm per command of 30_encoding.md R84. -/
def exec (i : Instr) (s : State) : Host.Outcome State Fault Refusal :=
  match i with
  | .nop => Sys2Proof.Machine.execNop s
  | .clear => Sys2Proof.Machine.execClear s
  | .push sym => Sys2Proof.Machine.execPush sym s
  | .count => Sys2Proof.Machine.execCount s
  | .build => Sys2Proof.Machine.execBuild s
  | .serialize => Sys2Proof.Machine.execSerialize s
  | .derive => Sys2Proof.Machine.execDerive s
  | .pack => Sys2Proof.Machine.execPack s
  | .transcode => Sys2Proof.Machine.execTranscode s
  | .encode => Sys2Proof.Machine.execEncode s
  | .xlate v => Sys2Proof.Machine.execXlate v s
  | .unxlate b => Sys2Proof.Machine.execUnxlate b s

end Sys2Proof.Machine
end

