-- ==== Sys2Proof/Machine/Engine.lean ====
section
/-! DEFINITION. The two steps of the block: the host step, a bus access with the CMD write's acceptance
(40_control.md R100), and the engine step, the completion of a command (R101). -/

namespace Sys2Proof.Machine

/-- What comes of a command's effect once the completion step is taken (40_control.md R101). -/
def completeOutcome : Host.Outcome State Fault Refusal → Host.Outcome State Fault Refusal
  | .next t => .next t.complete
  | .fault r => .fault r
  | .refused r => .refused r

/-- The engine step, with BUSY = 1: decode PENDING, execute, complete (40_control.md R101, R102). An
illegal word raises ILLEGAL_CMD (30_encoding.md R85; log 18). -/
def completeCommand (s : State) : Host.Outcome State Fault Refusal :=
  match decode s.pending with
  | .ok i => completeOutcome (exec i s)
  | .error _ => .next (s.raiseError .illegalCmd 0).complete

/-- The engine's turn: its only step is enabled while BUSY = 1; otherwise it waits (40_control.md R101,
60_exceptions.md R276). -/
def engineTurn (s : State) : Host.Outcome State Fault Refusal :=
  if s.busy then completeCommand s else .next s

/-- A CMD write of `w`: the CLEAR word acts at once; with BUSY = 1 the word is dropped and OVERRUN set; with
ERR = 1 it is ignored; otherwise it is latched (40_control.md R100). -/
def submit (w : Word) (s : State) : Host.Outcome State Fault Refusal :=
  if w = clearWord then exec .clear s
  else if s.busy then .next s.setOverrun
  else if s.err then .next s
  else .next (s.latch w)

/-- A bus access: a bus error for the wrong width or alignment (20_memory.md R62), a fault outside the
aperture (R60), a read (R63), or a write, which acts only at CMD (R64). -/
def busAccess (a : Access) (s : State) : Host.Outcome State Fault Refusal :=
  if a.width ≠ 4 ∨ a.addr % 4 ≠ 0 then .fault (.busError a)
  else if Config.apertureBytes ≤ a.addr then .fault (.outsideAperture a)
  else
    match a.kind with
    | .read => .next (s.hostRead a.addr)
    | .write w => if a.addr = cmdOffset then submit w s else .next s

/-- The host's turn: its next action, or nothing where it has none. WAIT reads STATUS and stays the next
action while the BUSY it read is 1 (30_encoding.md R89, 70_reset_and_hazards.md R300). -/
def hostTurn (s : State) : Host.Outcome State Fault Refusal :=
  match s.script with
  | [] => .next s
  | .access a :: rest => busAccess a { s with script := rest }
  | .wait :: rest =>
    if s.busy then .next (s.hostRead statusOffset)
    else .next (({ s with script := rest } : State).hostRead statusOffset)

/-- Whose step comes next: what `turns` says, and past its end the engine's while it is enabled, which is
the weak fairness of 40_control.md R101 (log 8). -/
def nextAgent (s : State) : Agent :=
  match s.turns with
  | a :: _ => a
  | [] => if s.busy then .engine else .host

/-- One step of the agent whose turn it is (60_exceptions.md R265). -/
def agentStep (s : State) : Host.Outcome State Fault Refusal :=
  match nextAgent s with
  | .engine => engineTurn { s with turns := s.turns.tail }
  | .host => hostTurn { s with turns := s.turns.tail }

/-- The state in which the very next step runs the command word `w`: the CLEAR word as the host's next CMD
write, since it acts at the write, and any other word as the latch of 40_control.md R100 leaves it, with
the engine's turn next (log 7). -/
def State.withCommand (s : State) (w : Word) : State :=
  if w = clearWord then
    { s with script := .access ⟨cmdOffset, 4, .write w⟩ :: s.script, turns := .host :: s.turns }
  else { s.latch w with turns := .engine :: s.turns }

end Sys2Proof.Machine
end

