-- ==== Sys2Proof/Machine/Step.lean ====
section
/-! DEFINITION. One step of the machine, and how a command word is placed where the next step runs it. -/

namespace Sys2Proof.Machine

/-- One step: the next agent's (60_exceptions.md R265). -/
def step (s : State) : Host.Outcome State Fault Refusal := agentStep s

/-- `s` with the command word `w` (its bits at or above `nbits` 0) placed so that the next step runs it. -/
def State.withFetchWord (s : State) (nbits w : Nat) : State :=
  s.withCommand (BitVec.ofNat 32 (w % 2 ^ nbits))

end Sys2Proof.Machine
end

