-- ==== Sys2Proof/Machine/Assembler.lean ====
section
/-! DEFINITION. Host programs as they are written: the assembler syntax and the pseudo-instructions
(30_encoding.md R88, R89). A line is a list of characters (log 15). -/

namespace Sys2Proof.Machine

/-- The written names, upper case (30_encoding.md R88, R89). -/
def mnemonicNames : List (List Char × Mnemonic) :=
  [ (['N', 'O', 'P'], .nop),
    (['C', 'L', 'E', 'A', 'R'], .clear),
    (['P', 'U', 'S', 'H'], .push),
    (['C', 'O', 'U', 'N', 'T'], .count),
    (['B', 'U', 'I', 'L', 'D'], .build),
    (['S', 'E', 'R', 'I', 'A', 'L', 'I', 'Z', 'E'], .serialize),
    (['D', 'E', 'R', 'I', 'V', 'E'], .derive),
    (['P', 'A', 'C', 'K'], .pack),
    (['T', 'R', 'A', 'N', 'S', 'C', 'O', 'D', 'E'], .transcode),
    (['E', 'N', 'C', 'O', 'D', 'E'], .encode),
    (['X', 'L', 'A', 'T', 'E'], .xlate),
    (['U', 'N', 'X', 'L', 'A', 'T', 'E'], .unxlate),
    (['P', 'U', 'S', 'H', 'S'], .pushs),
    (['.', 'w', 'o', 'r', 'd'], .word),
    (['W', 'A', 'I', 'T'], .wait),
    (['C', 'O', 'M', 'P', 'R', 'E', 'S', 'S'], .compress),
    (['C', 'H', 'E', 'C', 'K'], .check) ]

/-- A digit of a decimal or hexadecimal number, in either case (log 15). -/
def digitValue (base : Nat) (c : Char) : Option Nat :=
  let n := c.toNat
  let v :=
    if 48 ≤ n ∧ n ≤ 57 then n - 48
    else if 97 ≤ n ∧ n ≤ 102 then n - 87
    else if 65 ≤ n ∧ n ≤ 70 then n - 55
    else 16
  if v < base then some v else none

/-- A run of digits after what has been read so far. -/
def parseDigits (base : Nat) : Nat → List Char → Option Nat
  | acc, [] => some acc
  | acc, c :: cs =>
    match digitValue base c with
    | some d => parseDigits base (acc * base + d) cs
    | none => none

/-- An operand: a decimal number, a hexadecimal number with the first two characters 0x, a character literal, or a quoted
string (30_encoding.md R88, R89). -/
def parseLiteral : List Char → Option Literal
  | [] => none
  | ['\'', c, '\''] => some (.character c)
  | '0' :: 'x' :: d :: ds => (parseDigits 16 0 (d :: ds)).map .number
  | '"' :: cs => if cs.getLast? = some '"' then some (.quoted cs.dropLast) else none
  | cs => (parseDigits 10 0 cs).map .number

/-- The part of a line before its comment, which starts with a semicolon outside a character literal and
outside a quoted string (30_encoding.md R88; log 15). The flag says that a quoted string is open. -/
def dropComment : Bool → List Char → List Char
  | _, [] => []
  | true, c :: cs => c :: dropComment (c != '"') cs
  | false, '\'' :: c :: '\'' :: cs => '\'' :: c :: '\'' :: dropComment false cs
  | false, c :: cs => if c = ';' then [] else c :: dropComment (c == '"') cs

/-- A line without the blanks at its two ends. -/
def trimBlanks (cs : List Char) : List Char :=
  ((cs.dropWhile (· == ' ')).reverse.dropWhile (· == ' ')).reverse

/-- `MNEMONIC` or `MNEMONIC operand` (30_encoding.md R88). -/
def parseLine (cs : List Char) : Option Line :=
  let body := trimBlanks (dropComment false cs)
  let name := body.takeWhile (· != ' ')
  let rest := trimBlanks (body.drop name.length)
  match mnemonicNames.lookup name with
  | none => none
  | some m =>
    if rest = [] then some ⟨m, none⟩
    else (parseLiteral rest).map (fun operand => ⟨m, some operand⟩)

/-- The host's write of a word to CMD. -/
def writeCmd (w : Word) : HostAction := .access ⟨cmdOffset, 4, .write w⟩

/-- The ASCII code of a character, as an operand (30_encoding.md R88; log 15). -/
def asciiCode (c : Char) : Symbol := BitVec.ofNat 8 c.toNat

/-- `PUSHS`: PUSH c and WAIT for each character, in order (30_encoding.md R89). -/
def expandPushs (cs : List Char) : List HostAction :=
  cs.flatMap (fun c => [writeCmd (encode (.push (asciiCode c))), .wait])

/-- The value of a number or character operand. -/
def lineValue (l : Line) : Nat :=
  match l.operand with
  | some (.number n) => n
  | some (.character c) => c.toNat
  | _ => 0

/-- The characters of a string operand. -/
def lineChars (l : Line) : List Char :=
  match l.operand with
  | some (.quoted cs) => cs
  | _ => []

/-- The host actions of a line: its command word, or the expansion of a pseudo-instruction; `none` where
the assembler rejects the line (30_encoding.md R88, R89). -/
def assembleLine (l : Line) : Option (List HostAction) :=
  if l.wellFormed then
    some (match l.name with
      | .nop => [writeCmd (encode .nop)]
      | .clear => [writeCmd (encode .clear)]
      | .push => [writeCmd (encode (.push (BitVec.ofNat 8 (lineValue l))))]
      | .count => [writeCmd (encode .count)]
      | .build => [writeCmd (encode .build)]
      | .serialize => [writeCmd (encode .serialize)]
      | .derive => [writeCmd (encode .derive)]
      | .pack => [writeCmd (encode .pack)]
      | .transcode => [writeCmd (encode .transcode)]
      | .encode => [writeCmd (encode .encode)]
      | .xlate => [writeCmd (encode (.xlate (BitVec.ofNat 6 (lineValue l))))]
      | .unxlate => [writeCmd (encode (.unxlate (BitVec.ofNat 8 (lineValue l))))]
      | .pushs => expandPushs (lineChars l)
      | .word => [writeCmd (BitVec.ofNat 32 (lineValue l))]
      | .wait => [.wait]
      | .compress => writeCmd (encode .clear) :: (expandPushs (lineChars l) ++ [writeCmd (encode .encode), .wait])
      | .check => [.access ⟨statusOffset, 4, .read⟩])
  else none

/-- A written program: the actions of its lines in order; a line that holds only blanks or a comment gives
none, and one line that is rejected rejects the program (log 15). -/
def assemble : List (List Char) → Option (List HostAction)
  | [] => some []
  | cs :: rest =>
    if trimBlanks (dropComment false cs) = [] then assemble rest
    else
      match (parseLine cs).bind assembleLine, assemble rest with
      | some here, some later => some (here ++ later)
      | _, _ => none

/-- What the host reads off a STATUS word in CHECK: ERR and ERRCODE (30_encoding.md R89). -/
def checkStatus (r : Word) : Bool × BitVec 4 := (r.getLsbD 2, r.extractLsb' 8 4)

end Sys2Proof.Machine
end

