-- ==== Sys2Proof/Machine/Contract.lean ====
section
/-! DEFINITION. The decode contract (48_decode_contract.md): the pure function `decodeOutput`, the meaning
of the block's output, beside the machine and not inside it; and the artifact of a run (40_control.md R106). -/

namespace Sys2Proof.Machine

/-- The decode error kinds (48_decode_contract.md R245). -/
inductive DecodeError where
  | oddTree | badChar | emptyTree | badElement | badIndex | bitsExhausted | badBranch
  deriving DecidableEq, Repr

/-- `E[i] <- U(OT[2i]) * 64 + U(OT[2i+1]) - 512` (48_decode_contract.md R241). -/
def elementsOf : List Symbol → List Int
  | high :: low :: rest =>
    ((fromSafe high).toNat * 64 + (fromSafe low).toNat - Config.elementBias : Int) :: elementsOf rest
  | _ => []

/-- `B[6j + t] <- U(OB[j])[5 - t]` (48_decode_contract.md R241). -/
def bitsOf (ob : List Symbol) : BitString :=
  ob.flatMap (fun c => (List.range 6).map (fun t => (fromSafe c).getLsbD (5 - t)))

/-- An element that an encoder of n elements can write: at most 255, not -1, at least -(n-1)
(48_decode_contract.md R242). -/
def elementOk (n : Nat) (e : Int) : Bool :=
  decide (e ≤ 255) && decide (e ≠ -1) && decide (-((n : Int) - 1) ≤ e)

/-- `E[i]`; every index the walk uses is in the array. -/
def elementIn (elements : List Int) (i : Nat) : Int := elements.getD i 0

/-- The inner loop of the walk from index i: a leaf's element and the bits left, or the error
(48_decode_contract.md R243). -/
def descend (elements : List Int) : BitString → Nat → Except DecodeError (Int × BitString)
  | [], i =>
    if 0 ≤ elementIn elements i then .ok (elementIn elements i, []) else .error .bitsExhausted
  | b :: bits, i =>
    if 0 ≤ elementIn elements i then .ok (elementIn elements i, b :: bits)
    else
      let j := if b then (-elementIn elements i).toNat else i + 1
      if elements.length ≤ j then .error .badIndex else descend elements bits j

/-- The symbol of a leaf element, 0 to 255 (48_decode_contract.md R242). -/
def elementSymbol (e : Int) : Symbol := BitVec.ofInt 8 e

/-- The walk for a tree that is not degenerate, over the symbols still to emit (48_decode_contract.md R243). -/
def walkTree (elements : List Int) (root : Nat) : Nat → BitString → Except DecodeError (List Symbol)
  | 0, _ => .ok []
  | n + 1, bits =>
    match descend elements bits root with
    | .error e => .error e
    | .ok (e, bits') =>
      match walkTree elements root n bits' with
      | .error e' => .error e'
      | .ok out => .ok (elementSymbol e :: out)

/-- The walk for a degenerate tree: one bit a symbol, which must be 0 (48_decode_contract.md R244). -/
def walkLeaf (leaf : Int) : Nat → BitString → Except DecodeError (List Symbol)
  | 0, _ => .ok []
  | _ + 1, [] => .error .bitsExhausted
  | n + 1, b :: bits =>
    if b then .error .badBranch
    else
      match walkLeaf leaf n bits with
      | .error e => .error e
      | .ok out => .ok (elementSymbol leaf :: out)

/-- The third step: the walk of a tree that is degenerate (48_decode_contract.md R244) or not (R243). -/
def walkBits (elements : List Int) (root n : Nat) (bits : BitString) : Except DecodeError (List Symbol) :=
  if 0 ≤ elementIn elements root then walkLeaf (elementIn elements root) n bits
  else walkTree elements root n bits

/-- `decode(OT, OB, N, R)` (48_decode_contract.md R240): un-transcode (R241), validate (R242), walk (R243,
R244); the first check that fails gives the error (R245). -/
def decodeOutput (ot ob : List Symbol) (n root : Nat) : Except DecodeError (List Symbol) :=
  if ot.length % 2 = 1 then .error .oddTree
  else if !(ot.all isSafe && ob.all isSafe) then .error .badChar
  else if n = 0 then .ok []
  else if (elementsOf ot).length = 0 then .error .emptyTree
  else if !((elementsOf ot).all (elementOk (elementsOf ot).length)) then .error .badElement
  else if (elementsOf ot).length ≤ root then .error .badIndex
  else walkBits (elementsOf ot) root n (bitsOf ob)

/-- The output artifact of an encoding run (40_control.md R106). -/
structure Artifact where
  outTree : List Symbol
  outBits : List Symbol
  len     : Nat
  root    : Nat
  deriving DecidableEq, Repr

/-- An output memory's elements 0 to n - 1, which are listed where they are valid (10_state.md R48). -/
def listedRun (m : Memory Symbol) (n : Nat) : List Symbol := (List.range n).filterMap m.read?

/-- (OUT_TREE[0 .. 2*NNODES-1], OUT_BITS[0 .. NGROUPS-1], LEN, ROOT) (40_control.md R106). -/
def State.artifact (s : State) : Artifact where
  outTree := listedRun s.outTree (2 * s.nnodes.toNat)
  outBits := listedRun s.outBits s.ngroups.toNat
  len := s.len.toNat
  root := s.root.toNat

/-- The text an artifact means (40_control.md R106, 48_decode_contract.md R246). -/
def Artifact.decode (a : Artifact) : Except DecodeError (List Symbol) :=
  decodeOutput a.outTree a.outBits a.len a.root

end Sys2Proof.Machine
end

