-- ==== Sys2Proof/Safety.lean ====
section
/-! DEFINITION. The terms claims use: when a run is safe and when it has ended, what every state a run
reaches satisfies, and the trees that the block's memories picture. -/

namespace Sys2Proof.Machine

/-! ## Runs -/

/-- A step that goes on: no bus error of the host program, no refusal. -/
def goesOn : Host.Outcome State Fault Refusal → Bool
  | .next _ => true
  | .fault _ => false
  | .refused _ => false

/-- A host program whose accesses all have the form the block accepts (20_memory.md R61). -/
def State.safeScript (s : State) : Bool := s.script.all HostAction.wellFormed

/-- The state after a number of steps, if they all go on. -/
def State.afterSteps : Nat → State → Option State
  | 0, s => some s
  | n + 1, s =>
    match step s with
    | .next t => State.afterSteps n t
    | .fault _ => none
    | .refused _ => none

/-- The next step is the host's write of the CLEAR word (30_encoding.md R86). -/
def State.clearsNext (s : State) : Prop :=
  nextAgent s = .host ∧ ∃ rest, s.script = .access ⟨cmdOffset, 4, .write clearWord⟩ :: rest

/-- An encoding run has ended: BUSY = 0, DONE = 1, ERR = 0 and PHASE = TRANSCODED (40_control.md R106). -/
def State.runEnded (s : State) : Bool :=
  !s.busy && s.done && !s.err && decide (s.phase = .transcoded)

/-! ## The invariant of the registers and memories -/

/-- Every index below `n` is listed. -/
def Memory.listedTo {α : Type} (m : Memory α) (n : Nat) : Prop := ∀ i, i < n → (m.read? i).isSome = true

/-- Every listed index is below the memory's capacity. -/
def Memory.within {α : Type} (m : Memory α) (n : Nat) : Prop := ∀ c ∈ m, c.1 < n

/-- Every memory is in canonical form and inside its capacity (20_memory.md R76). -/
structure State.Canonical (s : State) : Prop where
  text : s.text.wf ∧ s.text.within s.maxLen
  freq : s.freq.wf ∧ s.freq.within 256
  node : s.node.wf ∧ s.node.within 511
  tree : s.tree.wf ∧ s.tree.within 511
  codeLen : s.codeLen.wf ∧ s.codeLen.within 256
  codeVal : s.codeVal.wf ∧ s.codeVal.within 256
  group : s.group.wf ∧ s.group.within s.maxGroups
  outTree : s.outTree.wf ∧ s.outTree.within 1022
  outBits : s.outBits.wf ∧ s.outBits.within s.maxGroups

/-- The elements that 10_state.md R48 makes valid once BUSY = 0 are listed. -/
structure State.Listed (s : State) : Prop where
  text : s.text.listedTo s.len.toNat
  freq : Phase.counted.rank ≤ s.phase.rank → s.freq.listedTo 256
  node : Phase.built.rank ≤ s.phase.rank → s.node.listedTo s.nnodes.toNat
  tree : Phase.serialized.rank ≤ s.phase.rank → s.tree.listedTo s.nnodes.toNat
  codeLen : Phase.derived.rank ≤ s.phase.rank → s.codeLen.listedTo 256
  codeVal : Phase.derived.rank ≤ s.phase.rank → s.codeVal.listedTo 256
  group : Phase.packed.rank ≤ s.phase.rank → s.group.listedTo s.ngroups.toNat
  outTree : s.phase = .transcoded → s.outTree.listedTo (2 * s.nnodes.toNat)
  outBits : s.phase = .transcoded → s.outBits.listedTo s.ngroups.toNat

/-- The parameters are in range (00_scope.md R7, R8) and the registers hold what 10_state.md R22 and R33 to
R35 allow, 0 before the stage that writes them. -/
structure State.Bounded (s : State) : Prop where
  maxLen : 1 ≤ s.maxLen ∧ s.maxLen ≤ Config.maxCapacity
  maxGroups : 1 ≤ s.maxGroups ∧ s.maxGroups ≤ Config.maxCapacity
  len : s.len.toNat ≤ s.maxLen
  empty : s.phase = .empty → s.len = 0
  loaded : s.phase = .loaded → 1 ≤ s.len.toNat
  nsym : s.nsym.toNat ≤ 256
  uncounted : s.phase.rank < Phase.counted.rank → s.nsym = 0
  nnodes : s.nnodes.toNat ≤ 511
  unbuilt : s.phase.rank < Phase.built.rank → s.nnodes = 0
  root : s.root = 0
  unpacked : s.phase.rank < Phase.packed.rank → s.totalBits = 0
  ngroups : s.ngroups.toNat ≤ s.maxGroups
  groups : s.ngroups.toNat = groupsNeeded s.totalBits.toNat

/-- The error latch: ERR = 0 leaves ERRCODE, ERRINFO and ERRAUX 0; ERR = 1 has a code; ERRAUX is 0 but for
OUT_OVERFLOW (10_state.md R30, R32). -/
structure State.LatchSound (s : State) : Prop where
  noError : s.err = false → s.errCode = .none ∧ s.errInfo = 0 ∧ s.errAux = 0
  error : s.err = true → s.errCode ≠ .none
  errAux : s.errCode ≠ .outOverflow → s.errAux = 0

/-- A command runs only with ERR = 0, DONE = 0 while it does, and the CLEAR word is never latched
(40_control.md R100, 60_exceptions.md R262). -/
def State.Handshake (s : State) : Prop :=
  s.busy = true → s.err = false ∧ s.done = false ∧ s.pending ≠ clearWord

/-- What every state of a run satisfies. -/
structure State.Sound (s : State) : Prop where
  bounded : s.Bounded
  latch : s.LatchSound
  handshake : s.Handshake
  canonical : s.Canonical
  listed : s.Listed

/-! ## The invariant of the stages' results -/

/-- NODE[0 .. NNODES-1]. -/
def State.nodeList (s : State) : List Node := (List.range s.nnodes.toNat).map s.nodeAt

/-- Each stage's memories hold what its rule makes of the stage before it, from the text on (40_control.md
R102; 10_state.md R48, "each stage's results stay valid through later phases"). -/
structure State.Results (s : State) : Prop where
  counted : Phase.counted.rank ≤ s.phase.rank →
    s.freqList = frequencyTable s.textList ∧ s.nsym.toNat = distinctCount s.freqList
  built : Phase.built.rank ≤ s.phase.rank →
    s.nodeList = (buildNodes (initLeaves s.freqList) ⟨none, none⟩).1
  serialized : Phase.serialized.rank ≤ s.phase.rank →
    flatten s.nodeAt s.nnodes.toNat = some s.treeList
  derived : Phase.derived.rank ≤ s.phase.rank →
    ∃ table, deriveCodes s.treeAt s.nnodes.toNat s.root.toNat = some table ∧
      (List.range Config.symbolCount).map s.codeLenAt = table.map codeLength ∧
      (List.range Config.symbolCount).map s.codeValAt = table.map codeValue
  packed : Phase.packed.rank ≤ s.phase.rank →
    s.groupList = packGroups s.packedBits ∧ s.totalBits.toNat = s.packedBits.length
  transcoded : s.phase = .transcoded →
    listedRun s.outTree (2 * s.nnodes.toNat) = transcodeTree s.treeList ∧
      listedRun s.outBits s.ngroups.toNat = transcodeBits s.groupList

/-! ## Trees -/

/-- A binary tree in which every branch has two children and every leaf a symbol (42_tree_builder.md R147). -/
inductive CodeTree where
  | leaf (sym : Symbol)
  | branch (left right : CodeTree)
  deriving DecidableEq, Repr

/-- How many nodes a tree has. -/
def CodeTree.size : CodeTree → Nat
  | .leaf _ => 1
  | .branch l r => 1 + l.size + r.size

/-- How many branch choices its longest path has. -/
def CodeTree.depth : CodeTree → Nat
  | .leaf _ => 0
  | .branch l r => 1 + max l.depth r.depth

/-- The symbols of its leaves, left before right. -/
def CodeTree.leaves : CodeTree → List Symbol
  | .leaf s => [s]
  | .branch l r => l.leaves ++ r.leaves

/-- The pre-order listing of a tree whose root stands at index `i`: a leaf is its symbol, a branch is minus
the index of its right child (43_serializer.md R162). -/
def CodeTree.listing : CodeTree → Nat → List Int
  | .leaf s, _ => [(s.toNat : Int)]
  | .branch l r, i => -((i + 1 + l.size : Nat) : Int) :: (l.listing (i + 1) ++ r.listing (i + 1 + l.size))

/-- Each leaf's symbol with the path to it, "0" for left and "1" for right (44_code_table.md R185). -/
def CodeTree.paths : CodeTree → List (Symbol × BitString)
  | .leaf s => [(s, [])]
  | .branch l r =>
    l.paths.map (fun c => (c.1, false :: c.2)) ++ r.paths.map (fun c => (c.1, true :: c.2))

/-- The code of each leaf: the path to it (44_code_table.md R185), or "0" for a lone leaf (R183). -/
def CodeTree.codes : CodeTree → List (Symbol × BitString)
  | .leaf sym => [(sym, [false])]
  | .branch l r => (CodeTree.branch l r).paths

/-- The tree that the node store pictures from node `id` down (10_state.md R40). -/
def Pictures (nodeAt : Nat → Node) : CodeTree → Nat → Prop
  | .leaf s, id => (nodeAt id).kind = .leaf ∧ (nodeAt id).sym = s
  | .branch l r, id =>
    (nodeAt id).kind = .internal ∧ Pictures nodeAt l (nodeAt id).left.toNat ∧
      Pictures nodeAt r (nodeAt id).right.toNat

/-- The ids of the nodes that picture a tree, from node `id` down. -/
def pictureIds (nodeAt : Nat → Node) : CodeTree → Nat → List Nat
  | .leaf _, id => [id]
  | .branch l r, id =>
    id :: (pictureIds nodeAt l (nodeAt id).left.toNat ++ pictureIds nodeAt r (nodeAt id).right.toNat)

/-! ## The decoding walk as an automaton -/

/-- The index each bit leads to, from index `i` on, where an index with a leaf is left for the root at once
(48_decode_contract.md R243): the right child for a 1, the next slot for a 0. -/
def walkTargets (elements : List Int) (root : Nat) : Nat → BitString → List Nat
  | _, [] => []
  | i, b :: bits =>
    let j := if b then (-elementIn elements i).toNat else i + 1
    j :: walkTargets elements root (if 0 ≤ elementIn elements j then root else j) bits

/-- The symbols of the leaves among the indexes a walk came to. -/
def leafSymbols (elements : List Int) (targets : List Nat) : List Symbol :=
  (targets.filter (fun j => decide (0 ≤ elementIn elements j))).map (fun j => elementSymbol (elementIn elements j))

/-! ## Greedy merging -/

/-- A live node id (42_tree_builder.md R142). -/
def LiveId (nodes : List Node) (j : Nat) : Prop := j < nodes.length ∧ (nodeIn nodes j).live = true

/-- The pair (W, id) of i comes before that of j, lexicographically (42_tree_builder.md R142). -/
def Before (nodes : List Node) (i j : Nat) : Prop :=
  (nodeIn nodes i).weight.toNat < (nodeIn nodes j).weight.toNat ∨
    ((nodeIn nodes i).weight.toNat = (nodeIn nodes j).weight.toNat ∧ i < j)

/-- A live id whose (W, id) is the least among the live ids that `other` keeps. -/
def LeastLive (nodes : List Node) (other : Nat → Prop) (a : Nat) : Prop :=
  LiveId nodes a ∧ other a ∧ ∀ j, LiveId nodes j → other j → j ≠ a → Before nodes a j

/-- A number of merges, each of the two least live nodes, until at most one node is live (42_tree_builder.md
R140, R142). -/
inductive GreedyMerges : Nat → List Node → List Node → Prop where
  | done (nodes : List Node) (h : liveCount nodes ≤ 1) : GreedyMerges 0 nodes nodes
  | merge (n : Nat) (nodes : List Node) (a b : Nat) (result : List Node) (two : 2 ≤ liveCount nodes)
      (first : LeastLive nodes (fun _ => True) a) (second : LeastLive nodes (fun j => j ≠ a) b)
      (rest : GreedyMerges n (Machine.merge nodes a b) result) : GreedyMerges (n + 1) nodes result

end Sys2Proof.Machine
end

