-- ==== Sys2Proof/Certificates/Slice0/Obligations.lean ====
section
/-! DEFINITION. The statements for the provers, from the numbered rules of the spec. `Sound` and `Results`
(Safety.lean) are the invariants of the model; where a statement has one as a premise, it could fail only in
states that no run reaches, and the last two statements say that every step keeps them. No statement rests on
a free value: each holds for every value of the draws. -/

open Sys2Proof Sys2Proof.Machine

/-! ## Encoding (30_encoding.md) -/

/-- 30_encoding.md sections 1, 2 and 5: the decoder reads a command from a word exactly when the word is the
command's encoding, at every operand value. -/
def Obligations.DecodeAndEncodeAgree : Prop :=
  ∀ (w : Word) (i : Instr), decode w = .ok i ↔ encode i = w

/-- 30_encoding.md R87: the table, the decoder's answer by it, and that no two rows match one word. -/
def Obligations.DecodeFollowsTheRows : Prop :=
  rows.map (fun r => (r.pattern, r.mask)) =
      [ (0x00000000#32, 0xFFFFFFFF#32), (0x01000000#32, 0xFFFFFFFF#32), (0x02000000#32, 0xFFFFFF00#32),
        (0x03000000#32, 0xFFFFFFFF#32), (0x04000000#32, 0xFFFFFFFF#32), (0x05000000#32, 0xFFFFFFFF#32),
        (0x06000000#32, 0xFFFFFFFF#32), (0x07000000#32, 0xFFFFFFFF#32), (0x08000000#32, 0xFFFFFFFF#32),
        (0x09000000#32, 0xFFFFFFFF#32), (0x0A000000#32, 0xFFFFFFC0#32), (0x0B000000#32, 0xFFFFFF00#32) ] ∧
    rows.Pairwise (fun r q => ∀ w : Word, ¬ (w &&& r.mask = r.pattern ∧ w &&& q.mask = q.pattern)) ∧
    ∀ w : Word,
      (∀ r ∈ rows, w &&& r.mask = r.pattern → decode w = .ok (r.command w)) ∧
      ((∀ r ∈ rows, w &&& r.mask ≠ r.pattern) → ∃ c, decode w = .error c)

/-- 30_encoding.md R85: which words are illegal, by the rows and by the three cases, and what the engine does
with one. -/
def Obligations.IllegalWords : Prop :=
  ∀ w : Word,
    ((∃ c, decode w = .error c) ↔ ∀ r ∈ rows, w &&& r.mask ≠ r.pattern) ∧
    ((∃ c, decode w = .error c) ↔ 0x0C ≤ (opField w).toNat ∨ rsvField w ≠ 0 ∨ hasStrayBit w = true) ∧
    ∀ (s : State) (c : IllegalWord), s.pending = w → decode w = .error c →
      ∃ t, completeCommand s = .next t ∧
        t = { s with busy := false, done := true, err := true, errCode := .illegalCmd, errInfo := w, errAux := 0,
                     pending := t.pending, draws := t.draws }

/-- Sanity: words written out from the encodings of 30_encoding.md section 3, one for each command, and words
next to them that no command has. -/
def Obligations.DecodeSampleWords : Prop :=
  decode 0x00000000#32 = .ok .nop ∧ decode 0x01000000#32 = .ok .clear ∧
    decode 0x02000061#32 = .ok (.push 0x61) ∧ decode 0x03000000#32 = .ok .count ∧
    decode 0x04000000#32 = .ok .build ∧ decode 0x05000000#32 = .ok .serialize ∧
    decode 0x06000000#32 = .ok .derive ∧ decode 0x07000000#32 = .ok .pack ∧
    decode 0x08000000#32 = .ok .transcode ∧ decode 0x09000000#32 = .ok .encode ∧
    decode 0x0A00003F#32 = .ok (.xlate 63) ∧ decode 0x0B00005D#32 = .ok (.unxlate 93) ∧
    decode 0x0A000040#32 = .error .operandBits ∧ decode 0x02000100#32 = .error .operandBits ∧
    decode 0x00010000#32 = .error .reservedBits ∧ decode 0x0C000000#32 = .error .reservedOpcode

/-- 30_encoding.md section 5: a command line with an operand gives `(OP << 24) | operand`, and one whose operand
is out of range is rejected. -/
def Obligations.AssemblerEncodesLines : Prop :=
  ∀ n : Nat,
    assembleLine ⟨.push, some (.number n)⟩ =
        (if n < 256 then some [writeCmd (0x02000000#32 ||| BitVec.ofNat 32 n)] else none) ∧
      assembleLine ⟨.xlate, some (.number n)⟩ =
        (if n < 64 then some [writeCmd (0x0A000000#32 ||| BitVec.ofNat 32 n)] else none) ∧
      assembleLine ⟨.unxlate, some (.number n)⟩ =
        (if n < 256 then some [writeCmd (0x0B000000#32 ||| BitVec.ofNat 32 n)] else none) ∧
      assembleLine ⟨.word, some (.number n)⟩ =
        (if n < 2 ^ 32 then some [writeCmd (BitVec.ofNat 32 n)] else none) ∧
      ∀ c : Char, c.toNat < 128 →
        assembleLine ⟨.push, some (.character c)⟩ =
          some [writeCmd (0x02000000#32 ||| BitVec.ofNat 32 c.toNat)]

/-- 30_encoding.md section 5, 70_reset_and_hazards.md section 3: the expansions of the pseudo-instructions, on ASCII
text; and the poll that WAIT is: one read of STATUS a step, again while the BUSY it read is 1. -/
def Obligations.PseudoInstructionsExpand : Prop :=
  (assembleLine ⟨.pushs, some (.quoted [])⟩ = some []) ∧
    (∀ (c : Char) (cs : List Char) (rest : List HostAction), c.toNat < 128 →
      assembleLine ⟨.pushs, some (.quoted cs)⟩ = some rest →
      assembleLine ⟨.pushs, some (.quoted (c :: cs))⟩ =
        some (writeCmd (0x02000000#32 ||| BitVec.ofNat 32 c.toNat) :: .wait :: rest)) ∧
    (∀ (cs : List Char) (pushes : List HostAction), assembleLine ⟨.pushs, some (.quoted cs)⟩ = some pushes →
      assembleLine ⟨.compress, some (.quoted cs)⟩ =
        some (writeCmd 0x01000000#32 :: (pushes ++ [writeCmd 0x09000000#32, .wait]))) ∧
    assembleLine ⟨.wait, none⟩ = some [.wait] ∧
    assembleLine ⟨.check, none⟩ = some [.access ⟨0x008, 4, .read⟩] ∧
    ∀ (s : State) (rest : List HostAction), nextAgent s = .host → s.script = .wait :: rest →
      s.statusWord.getLsbD 0 = s.busy ∧
      (s.busy = true →
        step s = .next { s with turns := s.turns.tail, received := s.statusWord :: s.received }) ∧
      (s.busy = false →
        step s = .next { s with script := rest, turns := s.turns.tail, received := s.statusWord :: s.received })

/-! ## The two steps, NOP, CLEAR and errors (40_control.md, 60_exceptions.md) -/

/-- 40_control.md section 1: a step on the engine's turn runs the command in PENDING and completes it: BUSY <- 0,
DONE <- 1, the turn taken, PENDING left open (log 2). The second part says the same of a command that
`withFetchWord` places (log 7), and that CLEAR acts at its write. -/
def Obligations.StepRunsTheLatchedCommand : Prop :=
  (∀ (s : State) (i : Instr), s.busy = true → nextAgent s = .engine → decode s.pending = .ok i →
    ∃ v t, exec i { s with turns := s.turns.tail } = .next v ∧ step s = .next t ∧
      t = { v with busy := false, done := true, pending := t.pending, draws := t.draws }) ∧
    (∀ (s : State) (i : Instr), i ≠ .clear →
      ∃ v t, exec i { s with pending := encode i, busy := true, done := false } = .next v ∧
        step (s.withFetchWord 32 (encode i).toNat) = .next t ∧
        t = { v with busy := false, done := true, pending := t.pending, draws := t.draws }) ∧
    ∀ s : State, step (s.withFetchWord 32 (encode .clear).toNat) = exec .clear s

/-- 40_control.md R100: a CMD write on the host's turn, its four cases in order. -/
def Obligations.CmdWriteIsAcceptedInOrder : Prop :=
  ∀ (s : State) (w : Word) (rest : List HostAction), nextAgent s = .host →
    s.script = .access ⟨0x004, 4, .write w⟩ :: rest →
    ∀ u : State, u = { s with script := rest, turns := s.turns.tail } →
      step s =
        (if w = 0x01000000#32 then exec .clear u
        else if s.busy then .next { u with overrun := true }
        else if s.err then .next u
        else .next { u with pending := w, busy := true, done := false })

/-- 40_control.md section 1: a latched command completes, whatever the host does meanwhile: within as many
steps as `turns` holds and one more, the model's form of weak fairness (log 8). The host's accesses are of the
form the block accepts. -/
def Obligations.LatchedCommandCompletes : Prop :=
  ∀ s : State, s.busy = true → s.safeScript = true →
    ∃ n t, n ≤ s.turns.length + 1 ∧ s.afterSteps n = some t ∧ t.busy = false ∧ t.done = true

/-- 10_state.md R28: BUSY rises exactly where a CMD write latches a command, and falls exactly where the engine
completes one or CLEAR is written. -/
def Obligations.BusyFollowsTheHandshake : Prop :=
  ∀ s t : State, step s = .next t →
    (s.busy = false →
      (t.busy = true ↔ nextAgent s = .host ∧ s.err = false ∧
        ∃ w rest, s.script = .access ⟨0x004, 4, .write w⟩ :: rest ∧ w ≠ 0x01000000#32)) ∧
    (s.busy = true → (t.busy = false ↔ nextAgent s = .engine ∨ s.clearsNext))

/-- 40_control.md R103: NOP changes nothing; its encoding; it is ignored while ERR = 1; its example. -/
def Obligations.NopChangesNothing : Prop :=
  (∀ s : State, exec .nop s = .next s) ∧
    decode 0x00000000#32 = .ok .nop ∧
    (∀ w : Word, opField w = 0 → w ≠ 0 → ∃ c, decode w = .error c) ∧
    (∀ s : State, s.busy = true → s.pending = 0x00000000#32 →
      ∃ t, completeCommand s = .next t ∧
        t = { s with busy := false, done := true, pending := t.pending, draws := t.draws }) ∧
    (∀ s : State, s.busy = false → s.err = true → submit 0x00000000#32 s = .next s) ∧
    ∃ t, step (State.reset.withFetchWord 32 0x00000000) = .next t ∧ t.statusWord = 0x00000002#32

/-- 40_control.md R104, 10_state.md R54: CLEAR, from any state, at its write. The values are those of the table
of 10_state.md R53; the memories are not valid, so that a read of one is unspecified. -/
def Obligations.ClearRestoresReset : Prop :=
  encode .clear = 0x01000000#32 ∧
    ∀ s : State, submit 0x01000000#32 s = exec .clear s ∧
      ∃ t, exec .clear s = .next t ∧
        t.phase = .empty ∧ t.busy = false ∧ t.done = true ∧ t.err = false ∧ t.overrun = false ∧
        t.errCode = .none ∧ t.errInfo = 0 ∧ t.errAux = 0 ∧ t.len = 0 ∧ t.nsym = 0 ∧ t.nnodes = 0 ∧ t.root = 0 ∧
        t.totalBits = 0 ∧ t.ngroups = 0 ∧ t.result = 0 ∧ t.statusWord = 0x00000002#32 ∧
        t.registerWord .id = 0x48554631#32 ∧ t.maxLen = s.maxLen ∧ t.maxGroups = s.maxGroups ∧
        t.script = s.script ∧ t.turns = s.turns ∧ t.received = s.received ∧
        ∀ loc : Location, (∀ r, loc ≠ .register r) → loc ≠ .reserved → t.valid loc = false ∧ t.wordAt loc = none

/-- 30_encoding.md R86: the CLEAR word acts at the write whatever BUSY and ERR are; any other word moves only the
handshake there; a CLEAR opcode with another bit set is illegal. -/
def Obligations.OnlyClearActsAtTheWrite : Prop :=
  (∀ s : State, submit 0x01000000#32 s = exec .clear s) ∧
    (∀ (s t : State) (w : Word), w ≠ 0x01000000#32 → submit w s = .next t →
      t = { s with pending := t.pending, busy := t.busy, done := t.done, overrun := t.overrun }) ∧
    ∀ w : Word, opField w = 0x01 → w ≠ 0x01000000#32 → ∃ c, decode w = .error c

/-- 60_exceptions.md R262: what the error latch takes, and that a command that fails had ERR = 0 and completes. -/
def Obligations.ErrorEntry : Prop :=
  (∀ (s : State) (code : ErrCode) (aux : Word),
    s.raiseError code aux = { s with err := true, errCode := code, errInfo := s.pending, errAux := aux }) ∧
    ∀ s t : State, s.Sound → s.busy = true → engineTurn s = .next t →
      s.err = false ∧
        (t.err = true → t.errCode ≠ .none ∧ t.errInfo = s.pending ∧ t.busy = false ∧ t.done = true)

/-- 60_exceptions.md R263: a command that raises an error changes nothing but the latch; ENCODE keeps the four
stages before PACK, and PHASE names the last of them. -/
def Obligations.ErrorsArePrecise : Prop :=
  ∀ (i : Instr) (s t : State), s.err = false → exec i s = .next t → t.err = true →
    (t = { s with err := true, errCode := t.errCode, errInfo := t.errInfo, errAux := t.errAux }) ∨
    (i = .encode ∧ t.phase = .derived ∧
      ∃ s1 s2 s3 s4, exec .count s = .next s1 ∧ exec .build s1 = .next s2 ∧ exec .serialize s2 = .next s3 ∧
        exec .derive s3 = .next s4 ∧ s4.err = false ∧
        t = { s4 with err := true, errCode := t.errCode, errInfo := t.errInfo, errAux := t.errAux })

/-- 60_exceptions.md R261: the codes' numbers, and for each code its cause, the commands that raise it, ERRINFO
and ERRAUX. -/
def Obligations.ErrorCodesByCause : Prop :=
  (ErrCode.none.bits = 0 ∧ ErrCode.illegalCmd.bits = 1 ∧ ErrCode.sequence.bits = 2 ∧
      ErrCode.badOperand.bits = 3 ∧ ErrCode.textFull.bits = 4 ∧ ErrCode.outOverflow.bits = 5 ∧
      ∀ c : ErrCode, c.bits.toNat < 6) ∧
    (∀ s : State, s.Sound → s.errCode = .none → s.errInfo = 0 ∧ s.errAux = 0) ∧
    (∀ (s t : State) (c : IllegalWord), decode s.pending = .error c → completeCommand s = .next t →
      t.errCode = .illegalCmd ∧ t.errInfo = s.pending ∧ t.errAux = 0) ∧
    ∀ (i : Instr) (s t : State), s.err = false → exec i s = .next t → t.err = true →
      t.errInfo = s.pending ∧ i ≠ .nop ∧ i ≠ .clear ∧ (∀ v, i ≠ .xlate v) ∧
        match t.errCode with
        | .none => False
        | .illegalCmd => False
        | .sequence => t.errAux = 0 ∧ phaseIn i s.phase = false ∧ ∀ b, i ≠ .unxlate b
        | .badOperand =>
          t.errAux = 0 ∧ ∃ b : Symbol, i = .unxlate b ∧ (b.toNat ≤ 41 ∨ b.toNat = 92 ∨ 107 ≤ b.toNat)
        | .textFull => t.errAux = 0 ∧ (∃ sym, i = .push sym) ∧ s.len.toNat = s.maxLen
        | .outOverflow =>
          (i = .pack ∨ i = .encode) ∧ s.maxGroups < (t.packedBits.length + 5) / 6 ∧
            t.errAux = BitVec.ofNat 32 ((t.packedBits.length + 5) / 6)

/-- 60_exceptions.md R264: the checks in order: decoding, then the phase, then the command's own check, of which
each command has at most one. -/
def Obligations.ChecksRunInOrder : Prop :=
  (∀ (s : State) (c : IllegalWord), decode s.pending = .error c →
    completeCommand s = .next (s.raiseError .illegalCmd 0).complete) ∧
    (∀ (s : State) (i : Instr), decode s.pending = .ok i → phaseIn i s.phase = false →
      completeCommand s = .next (s.raiseError .sequence 0).complete) ∧
    ∀ (s t : State) (i : Instr), s.err = false → decode s.pending = .ok i → phaseIn i s.phase = true →
      completeCommand s = .next t → t.err = true →
      match i with
      | .push _ => t.errCode = .textFull
      | .unxlate _ => t.errCode = .badOperand
      | .pack => t.errCode = .outOverflow
      | .encode => t.errCode = .outOverflow
      | .nop | .clear | .count | .build | .serialize | .derive | .transcode | .xlate _ => False

/-- 60_exceptions.md R267: a CMD write while BUSY = 1 sets OVERRUN alone, and the running command completes as
if it had not happened, OVERRUN apart. -/
def Obligations.OverrunDoesNotDisturb : Prop :=
  ∀ (s : State) (w : Word), s.busy = true → w ≠ 0x01000000#32 →
    submit w s = .next { s with overrun := true } ∧
      ∀ t : State, s.pending ≠ 0x01000000#32 → engineTurn s = .next t →
        engineTurn { s with overrun := true } = .next { t with overrun := true }

/-- 60_exceptions.md R266: once ERR = 1 nothing of the block moves but by the CLEAR word, whose effect is CLEAR's
and clears the latch and the pipeline state. -/
def Obligations.ErrorLatchIsSticky : Prop :=
  ∀ s t : State, s.Sound → s.err = true → step s = .next t →
    (¬ s.clearsNext ∧
      t = { s with script := t.script, turns := t.turns, received := t.received, draws := t.draws }) ∨
    (s.clearsNext ∧ t.err = false ∧ t.errCode = .none ∧ t.errInfo = 0 ∧ t.errAux = 0 ∧ t.phase = .empty ∧
      t.len = 0 ∧ ∃ u : State, exec .clear u = .next t)

/-! ## PUSH and COUNT (41_frequency.md) -/

/-- 41_frequency.md R120: PUSH, its result and frame, its errors and its encoding. -/
def Obligations.PushAppendsTheSymbol : Prop :=
  (∀ (s : State) (sym : Symbol), s.Sound → s.phase = .empty ∨ s.phase = .loaded → s.len.toNat ≠ s.maxLen →
    ∃ t, exec (.push sym) s = .next t ∧
      t = { s with text := t.text, len := s.len + 1, phase := .loaded } ∧
      t.len.toNat = s.len.toNat + 1 ∧ t.len.toNat ≤ s.maxLen ∧
      t.text.read? s.len.toNat = some sym ∧
      ∀ j, j ≠ s.len.toNat → t.text.read? j = s.text.read? j) ∧
    (∀ (s : State) (sym : Symbol), s.phase = .empty ∨ s.phase = .loaded → s.len.toNat = s.maxLen →
      exec (.push sym) s = .next (s.raiseError .textFull 0)) ∧
    (∀ (s : State) (sym : Symbol), Phase.counted.rank ≤ s.phase.rank →
      exec (.push sym) s = .next (s.raiseError .sequence 0)) ∧
    ∀ w : Word, opField w = 0x02 → rsvField w = 0 →
      ((immField w).toNat < 256 → decode w = .ok (.push (symOperand w))) ∧
      (256 ≤ (immField w).toNat → decode w = .error .operandBits)

/-- 41_frequency.md R121: COUNT, its result and frame, and its error. -/
def Obligations.CountFillsTheTable : Prop :=
  (∀ s : State, s.Sound → s.phase = .empty ∨ s.phase = .loaded →
    ∃ t, exec .count s = .next t ∧
      t = { s with freq := t.freq, nsym := t.nsym, phase := .counted } ∧
      (∀ v : Symbol, ∃ c, t.freq.read? v.toNat = some c ∧ c.toNat = s.textList.count v ∧
        c.toNat ≤ s.len.toNat) ∧
      (∀ j, 256 ≤ j → t.freq.read? j = s.freq.read? j) ∧
      t.nsym.toNat = ((List.range 256).filter (fun v => decide (BitVec.ofNat 8 v ∈ s.textList))).length ∧
      (t.freqList.map BitVec.toNat).sum = s.len.toNat ∧
      (s.len = 0 → t.nsym = 0)) ∧
    ∀ s : State, Phase.counted.rank ≤ s.phase.rank → exec .count s = .next (s.raiseError .sequence 0)

/-- 41_frequency.md R123: COUNT's result depends only on the multiset of the text. -/
def Obligations.CountIgnoresTheOrder : Prop :=
  ∀ s s' t t' : State, s.textList.Perm s'.textList →
    s.phase = .empty ∨ s.phase = .loaded → s'.phase = .empty ∨ s'.phase = .loaded →
    exec .count s = .next t → exec .count s' = .next t' →
    (∀ v, v < 256 → t.freq.read? v = t'.freq.read? v) ∧ t.nsym = t'.nsym

/-! ## BUILD (42_tree_builder.md) -/

/-- 42_tree_builder.md R141: the leaves are those of the symbols with a count that is not 0, in ascending symbol
order, each once. -/
def Obligations.LeavesStandInSymbolOrder : Prop :=
  ∀ freq : List Word, freq.length = 256 →
    (initLeaves freq).Pairwise (fun m n => m.sym.toNat < n.sym.toNat) ∧
    ∀ n : Node, n ∈ initLeaves freq ↔
      n.kind = .leaf ∧ n.live = true ∧ n.left = 0 ∧ n.right = 0 ∧
        freq[n.sym.toNat]? = some n.weight ∧ n.weight ≠ 0

/-- 42_tree_builder.md R142 and R148: `first` is the live id with the least pair (W, id), `second` the least of
the others, and no live id left unselected weighs less than either. -/
def Obligations.SelectTakesTheTwoLeast : Prop :=
  ∀ nodes : List Node,
    (∀ a, (select2 nodes).first = some a ↔ LeastLive nodes (fun _ => True) a) ∧
    (∀ a b, (select2 nodes).first = some a →
      ((select2 nodes).second = some b ↔ LeastLive nodes (fun j => j ≠ a) b)) ∧
    ∀ a b j, (select2 nodes).first = some a → (select2 nodes).second = some b → LiveId nodes j → j ≠ a → j ≠ b →
      (nodeIn nodes a).weight.toNat ≤ (nodeIn nodes j).weight.toNat ∧
      (nodeIn nodes b).weight.toNat ≤ (nodeIn nodes j).weight.toNat

/-- 42_tree_builder.md R143: a merge appends one live internal node, the lighter input its right child, and takes
LIVE alone from both inputs. -/
def Obligations.MergeMakesAnInternalNode : Prop :=
  ∀ (nodes : List Node) (a b : Nat), a < nodes.length → b < nodes.length → a ≠ b → nodes.length ≤ 510 →
    (merge nodes a b).length = nodes.length + 1 ∧
    (∃ n : Node, (merge nodes a b)[nodes.length]? = some n ∧ n.kind = .internal ∧ n.sym = 0 ∧ n.live = true ∧
      n.weight = (nodeIn nodes a).weight + (nodeIn nodes b).weight ∧ n.right.toNat = a ∧ n.left.toNat = b) ∧
    ∀ j n, nodes[j]? = some n →
      (merge nodes a b)[j]? = some (if j = a ∨ j = b then { n with live := false } else n)

/-- 42_tree_builder.md R140 and R150: BUILD, its frame, its node store by greedy merges from the leaves, NNODES,
and its error. With no symbol it writes no node; with one it writes the leaf and merges nothing. -/
def Obligations.BuildMergesGreedily : Prop :=
  (∀ s : State, s.Sound → s.Results → s.phase = .counted →
    ∃ t nodes, exec .build s = .next t ∧
      t = { s with node := t.node, nnodes := t.nnodes, phase := .built, scan := t.scan } ∧
      GreedyMerges (s.nsym.toNat - 1) (initLeaves s.freqList) nodes ∧
      (initLeaves s.freqList).length = s.nsym.toNat ∧
      t.nnodes.toNat = nodes.length ∧
      nodes.length = (if s.nsym = 0 then 0 else 2 * s.nsym.toNat - 1) ∧
      (∀ j, j < nodes.length → t.node.read? j = nodes[j]?) ∧
      ∀ j, nodes.length ≤ j → t.node.read? j = s.node.read? j) ∧
    ∀ s : State, s.phase ≠ .counted → exec .build s = .next (s.raiseError .sequence 0)

/-- 42_tree_builder.md R146: after BUILD the root, node NNODES - 1, is the only live node. -/
def Obligations.RootIsTheOnlyLiveNode : Prop :=
  ∀ s : State, s.Sound → s.Results → Phase.built.rank ≤ s.phase.rank → s.nsym ≠ 0 →
    s.nnodes.toNat = 2 * s.nsym.toNat - 1 ∧
    ∀ j, j < s.nnodes.toNat →
      ∃ n, s.node.read? j = some n ∧ (n.live = true ↔ j = s.nnodes.toNat - 1)

/-- 42_tree_builder.md R147: the nodes form a full binary tree of k leaves and k - 1 internal nodes, each node in
it once, its depth at most k - 1 <= 255; its leaves are the symbols of the text. -/
def Obligations.NodesFormAFullBinaryTree : Prop :=
  ∀ s : State, s.Sound → s.Results → Phase.built.rank ≤ s.phase.rank → s.nsym ≠ 0 →
    ∃ tr : CodeTree, Pictures s.nodeAt tr (s.nnodes.toNat - 1) ∧
      (pictureIds s.nodeAt tr (s.nnodes.toNat - 1)).Perm (List.range s.nnodes.toNat) ∧
      tr.leaves.length = s.nsym.toNat ∧ s.nnodes.toNat = 2 * s.nsym.toNat - 1 ∧
      ((List.range s.nnodes.toNat).filter (fun j => decide ((s.nodeAt j).kind = .internal))).length =
        s.nsym.toNat - 1 ∧
      tr.depth ≤ s.nsym.toNat - 1 ∧ s.nsym.toNat - 1 ≤ 255 ∧
      tr.leaves.Nodup ∧ ∀ v : Symbol, v ∈ tr.leaves ↔ v ∈ s.textList

/-- 42_tree_builder.md R144: every weight is the number of text symbols below its node, is at most LEN, and is
exact; the leaves below a node are distinct symbols; the root's weight, and the sum of its leaves' counts, is LEN. -/
def Obligations.WeightsCountTheText : Prop :=
  ∀ s : State, s.Sound → s.Results → Phase.built.rank ≤ s.phase.rank →
    (∀ j, j < s.nnodes.toNat →
      (s.nodeAt j).weight.toNat ≤ s.len.toNat ∧
      ((s.nodeAt j).kind = .leaf → (s.nodeAt j).weight.toNat = s.textList.count (s.nodeAt j).sym) ∧
      ((s.nodeAt j).kind = .internal →
        (s.nodeAt j).weight.toNat = (s.nodeAt (s.nodeAt j).left.toNat).weight.toNat +
          (s.nodeAt (s.nodeAt j).right.toNat).weight.toNat) ∧
      ∀ tr : CodeTree, Pictures s.nodeAt tr j → tr.leaves.Nodup ∧
        (s.nodeAt j).weight.toNat = (tr.leaves.map (fun v => s.textList.count v)).sum) ∧
    (s.nsym ≠ 0 → (s.nodeAt (s.nnodes.toNat - 1)).weight.toNat = s.len.toNat ∧
      ∃ tr : CodeTree, Pictures s.nodeAt tr (s.nnodes.toNat - 1) ∧ tr.leaves.Nodup ∧
        (tr.leaves.map (fun v => s.textList.count v)).sum = s.len.toNat)

/-! ## SERIALIZE (43_serializer.md) -/

/-- 43_serializer.md R160, R162 and R168: SERIALIZE, its frame, TREE as the pre-order listing of the tree that
NODE pictures from the root NNODES - 1, the two degenerate trees, and its error. -/
def Obligations.SerializeListsTheTree : Prop :=
  (∀ s : State, s.Sound → s.Results → s.phase = .built →
    ∃ t, exec .serialize s = .next t ∧
      t = { s with tree := t.tree, root := 0, phase := .serialized, frames := t.frames } ∧
      (∀ i, s.nnodes.toNat ≤ i → t.tree.read? i = s.tree.read? i) ∧
      (s.nnodes ≠ 0 →
        ∃ tr : CodeTree, Pictures s.nodeAt tr (s.nnodes.toNat - 1) ∧ tr.size = s.nnodes.toNat ∧
          ∀ i, i < s.nnodes.toNat → t.tree.read? i = (tr.listing 0)[i]?) ∧
      (s.nnodes = 1 → t.tree.read? 0 = some ((s.nodeAt 0).sym.toNat : Int))) ∧
    ∀ s : State, s.phase ≠ .built → exec .serialize s = .next (s.raiseError .sequence 0)

/-- 43_serializer.md R164 and R165: every element is a symbol, or minus the index of a right child, which is two
or more past its own; none is -1; element + 512 lies in 2 to 767. -/
def Obligations.TreeElementsAreInRange : Prop :=
  ∀ s : State, s.Sound → s.Results → Phase.serialized.rank ≤ s.phase.rank →
    ∀ i, i < s.nnodes.toNat →
      ∃ e : Int, s.tree.read? i = some e ∧ e ≠ -1 ∧
        ((0 ≤ e ∧ e ≤ 255) ∨ (∃ r : Nat, e = -(r : Int) ∧ i + 2 ≤ r ∧ r ≤ s.nnodes.toNat - 1 ∧ r ≤ 510)) ∧
        2 ≤ e + 512 ∧ e + 512 ≤ 767

/-! ## DERIVE (44_code_table.md) -/

/-- 44_code_table.md R180, R182 and R183: DERIVE, its frame, and for every symbol its CODE_LEN and CODE_VAL: those
of the branch choices to its leaf, "0" for a lone leaf, and 0 and 0 for a symbol that has none; its error. -/
def Obligations.DeriveWritesTheCodes : Prop :=
  (∀ s : State, s.Sound → s.Results → s.phase = .serialized →
    ∃ t codes, exec .derive s = .next t ∧
      t = { s with codeLen := t.codeLen, codeVal := t.codeVal, phase := .derived, walk := t.walk } ∧
      ((s.nnodes = 0 ∧ codes = []) ∨
        ∃ tr : CodeTree, (∀ i, i < s.nnodes.toNat → s.tree.read? i = (tr.listing 0)[i]?) ∧
          tr.size = s.nnodes.toNat ∧ codes = tr.codes) ∧
      (∀ v : Symbol, v ∈ codes.map Prod.fst ↔ s.freqAt v.toNat ≠ 0) ∧
      (∀ v : Symbol, v ∉ codes.map Prod.fst →
        t.codeLen.read? v.toNat = some 0 ∧ t.codeVal.read? v.toNat = some 0) ∧
      (∀ c ∈ codes, ∃ l x, t.codeLen.read? c.1.toNat = some l ∧ l.toNat = c.2.length ∧
        t.codeVal.read? c.1.toNat = some x ∧
        x.toNat = ((List.range c.2.length).map
          (fun j => (c.2.getD j false).toNat * 2 ^ (c.2.length - 1 - j))).sum) ∧
      ∀ i, 256 ≤ i → t.codeLen.read? i = s.codeLen.read? i ∧ t.codeVal.read? i = s.codeVal.read? i) ∧
    ∀ s : State, s.phase ≠ .serialized → exec .derive s = .next (s.raiseError .sequence 0)

/-- 44_code_table.md R185: for k >= 2 the code of each symbol of the text is the path to its leaf in the tree
that NODE pictures, of length >= 1, and no code is a prefix of another. -/
def Obligations.CodesArePrefixFree : Prop :=
  ∀ s : State, s.Sound → s.Results → Phase.derived.rank ≤ s.phase.rank → 2 ≤ s.nsym.toNat →
    (∃ tr : CodeTree, Pictures s.nodeAt tr (s.nnodes.toNat - 1) ∧ tr.leaves.length = s.nsym.toNat ∧
      ∀ v ∈ tr.leaves, (v, s.codeOf v) ∈ tr.paths ∧ ∀ p, (v, p) ∈ tr.paths → p = s.codeOf v) ∧
    (∀ v ∈ s.textList, 1 ≤ (s.codeOf v).length) ∧
    ∀ v ∈ s.textList, ∀ w ∈ s.textList, v ≠ w → ¬ s.codeOf v <+: s.codeOf w

/-- 44_code_table.md R186: every CODE_LEN is at most k - 1 <= 255 for k >= 2, CODE_VAL leaves its top bit 0, and
the code lengths of the coded symbols meet Kraft's sum exactly, here scaled by 2^255. -/
def Obligations.CodesMeetKraftsSum : Prop :=
  ∀ s : State, s.Sound → s.Results → Phase.derived.rank ≤ s.phase.rank →
    (∀ v : Symbol, (s.codeLenAt v.toNat).toNat ≤ 255 ∧ (s.codeValAt v.toNat).toNat < 2 ^ 255) ∧
    (2 ≤ s.nsym.toNat →
      (∀ v : Symbol, (s.codeLenAt v.toNat).toNat ≤ s.nsym.toNat - 1) ∧
      (((List.range 256).filter (fun v => decide ((s.codeLenAt v).toNat ≠ 0))).map
        (fun v => 2 ^ (255 - (s.codeLenAt v).toNat))).sum = 2 ^ 255)

/-! ## PACK (45_bit_packer.md) -/

/-- 45_bit_packer.md R200 to R203: PACK, its frame, the codes' bits, the groups by the formula, TOTAL_BITS and
NGROUPS; nothing for an empty text; OUT_OVERFLOW with the groups needed, and nothing written; SEQUENCE. -/
def Obligations.PackWritesTheGroups : Prop :=
  (∀ (s : State) (bits : BitString), s.Sound → s.phase = .derived → bits = s.textList.flatMap s.codeOf →
    (∀ v : Symbol, s.codeOf v = (List.range (s.codeLenAt v.toNat).toNat).map
      (fun j => (s.codeValAt v.toNat).getLsbD ((s.codeLenAt v.toNat).toNat - 1 - j))) ∧
    ((bits.length + 5) / 6 ≤ s.maxGroups →
      ∃ t, exec .pack s = .next t ∧
        t = { s with group := t.group, totalBits := t.totalBits, ngroups := t.ngroups, phase := .packed,
                     accumulator := t.accumulator } ∧
        t.totalBits.toNat = bits.length ∧ t.ngroups.toNat = (bits.length + 5) / 6 ∧
        (∀ j, j < t.ngroups.toNat → ∃ g, t.group.read? j = some g ∧
          g.toNat = ((List.range 6).map (fun p => (bits.getD (6 * j + p) false).toNat * 2 ^ (5 - p))).sum) ∧
        (∀ j, t.ngroups.toNat ≤ j → t.group.read? j = s.group.read? j) ∧
        (s.len = 0 → t.totalBits = 0 ∧ t.ngroups = 0 ∧ t.group = s.group)) ∧
    (s.maxGroups < (bits.length + 5) / 6 →
      exec .pack s = .next (s.raiseError .outOverflow (BitVec.ofNat 32 ((bits.length + 5) / 6))))) ∧
    ∀ s : State, s.phase ≠ .derived → exec .pack s = .next (s.raiseError .sequence 0)

/-- 45_bit_packer.md R207: the streaming packer gives the groups of R201, for any codes, and so those that PACK
writes. -/
def Obligations.StreamingPackerAgrees : Prop :=
  (∀ codes : List BitString, packStream codes [] = packGroups codes.flatten) ∧
    ∀ s t : State, s.Sound → s.phase = .derived → exec .pack s = .next t → t.phase = .packed →
      ∀ j, j < t.ngroups.toNat → t.group.read? j = (packStream (s.textList.map s.codeOf) [])[j]?

/-- 45_bit_packer.md R205 and R206: every text symbol has a code of length >= 1; TOTAL_BITS is the sum of counts
times lengths, LEN for one distinct symbol, and below 2^30. -/
def Obligations.TotalBitsIsTheWeightedLength : Prop :=
  ∀ s : State, s.Sound → s.Results →
    (Phase.derived.rank ≤ s.phase.rank → ∀ v ∈ s.textList, 1 ≤ (s.codeLenAt v.toNat).toNat) ∧
    (Phase.packed.rank ≤ s.phase.rank →
      s.totalBits.toNat =
        ((List.range 256).map (fun v => (s.freqAt v).toNat * (s.codeLenAt v).toNat)).sum ∧
      (s.nsym = 1 → s.totalBits = s.len) ∧
      s.totalBits.toNat ≤ 255 * s.maxLen ∧ s.totalBits.toNat < 2 ^ 30)

/-! ## TRANSCODE, XLATE and UNXLATE (46_transcoder.md) -/

/-- 46_transcoder.md R222 to R224: TRANSCODE, its frame, the two characters of each element, the character of
each group, and its error. -/
def Obligations.TranscodeWritesTheSegments : Prop :=
  (∀ s : State, s.Sound → s.Results → s.phase = .packed →
    ∃ t, exec .transcode s = .next t ∧
      t = { s with outTree := t.outTree, outBits := t.outBits, phase := .transcoded } ∧
      (∀ i, i < s.nnodes.toNat →
        ∃ u : Nat, (u : Int) = s.treeAt i + 512 ∧ 2 ≤ u ∧ u ≤ 767 ∧
          t.outTree.read? (2 * i) = some (toSafe (BitVec.ofNat 6 (u / 64))) ∧
          t.outTree.read? (2 * i + 1) = some (toSafe (BitVec.ofNat 6 (u % 64)))) ∧
      (∀ j, j < s.ngroups.toNat → t.outBits.read? j = some (toSafe (s.groupAt j))) ∧
      (∀ c, 2 * s.nnodes.toNat ≤ c → t.outTree.read? c = s.outTree.read? c) ∧
      ∀ j, s.ngroups.toNat ≤ j → t.outBits.read? j = s.outBits.read? j) ∧
    ∀ s : State, s.phase ≠ .packed → exec .transcode s = .next (s.raiseError .sequence 0)

/-- 46_transcoder.md R220, R221 and R228: T and U by their formulas, and that each undoes the other. -/
def Obligations.TranscodingIsInvertible : Prop :=
  (∀ v : Group, (toSafe v).toNat = (if 42 + v.toNat ≥ 92 then 42 + v.toNat + 1 else 42 + v.toNat) ∧
      isSafe (toSafe v) = true ∧ (toSafe v).toNat ≠ 92 ∧ fromSafe (toSafe v) = v) ∧
    (∀ b : Symbol, isSafe b = true ↔ (42 ≤ b.toNat ∧ b.toNat ≤ 91) ∨ (93 ≤ b.toNat ∧ b.toNat ≤ 106)) ∧
    ∀ b : Symbol, isSafe b = true →
      (fromSafe b).toNat = (if b.toNat > 92 then b.toNat - 1 else b.toNat) - 42 ∧ toSafe (fromSafe b) = b

/-- 46_transcoder.md R225: XLATE in every phase, its frame, its example values, and the words next to it. -/
def Obligations.XlateMapsTheValue : Prop :=
  (∀ (s : State) (v : Group), exec (.xlate v) s = .next { s with result := (toSafe v).setWidth 32 }) ∧
    toSafe 49 = 91 ∧ toSafe 50 = 93 ∧ toSafe 0 = 42 ∧ toSafe 63 = 106 ∧
    ∀ w : Word, opField w = 0x0A → rsvField w = 0 →
      ((immField w).toNat < 64 → decode w = .ok (.xlate (v6Operand w))) ∧
      (64 ≤ (immField w).toNat → decode w = .error .operandBits)

/-- 46_transcoder.md R226: UNXLATE in every phase, on a byte of T's range and on any other, and the words next to
it. -/
def Obligations.UnxlateMapsTheByteBack : Prop :=
  (∀ (s : State) (b : Symbol), (42 ≤ b.toNat ∧ b.toNat ≤ 91) ∨ (93 ≤ b.toNat ∧ b.toNat ≤ 106) →
    exec (.unxlate b) s = .next { s with result := (fromSafe b).setWidth 32 }) ∧
    (∀ (s : State) (b : Symbol), b.toNat ≤ 41 ∨ b.toNat = 92 ∨ 107 ≤ b.toNat →
      exec (.unxlate b) s = .next (s.raiseError .badOperand 0)) ∧
    fromSafe 91 = 49 ∧ fromSafe 93 = 50 ∧ fromSafe 42 = 0 ∧ fromSafe 106 = 63 ∧
    ∀ w : Word, opField w = 0x0B → rsvField w = 0 →
      ((immField w).toNat < 256 → decode w = .ok (.unxlate (b8Operand w))) ∧
      (256 ≤ (immField w).toNat → decode w = .error .operandBits)

/-- 46_transcoder.md R227 and R229: after TRANSCODE the two segments hold 2*NNODES and NGROUPS characters, each in
T's range, so none is 92 or 34 or a control character. -/
def Obligations.SegmentsAreSafeAndSized : Prop :=
  ∀ s : State, s.Sound → s.Results → s.phase = .transcoded →
    (∀ c, c < 2 * s.nnodes.toNat → (s.outTree.read? c).isSome = true) ∧
    (∀ j, j < s.ngroups.toNat → (s.outBits.read? j).isSome = true) ∧
    s.artifact.outTree.length = 2 * s.nnodes.toNat ∧ s.artifact.outBits.length = s.ngroups.toNat ∧
    (s.nsym ≠ 0 → s.artifact.outTree.length + s.artifact.outBits.length =
      2 * (2 * s.nsym.toNat - 1) + (s.totalBits.toNat + 5) / 6) ∧
    ∀ b : Symbol, b ∈ s.artifact.outTree ∨ b ∈ s.artifact.outBits →
      ((42 ≤ b.toNat ∧ b.toNat ≤ 91) ∨ (93 ≤ b.toNat ∧ b.toNat ≤ 106)) ∧
        b.toNat ≠ 92 ∧ b.toNat ≠ 34 ∧ 32 ≤ b.toNat ∧ b.toNat ≠ 127

/-! ## ENCODE and the meaning of its output (40_control.md, 48_decode_contract.md) -/

/-- 40_control.md R105: ENCODE is its six stage commands one after another, or, where PACK overflows, the first
four with the latch; an empty text gives the empty encoding; its error out of phase. -/
def Obligations.EncodeRunsThePipeline : Prop :=
  (∀ s : State, s.Sound → s.phase = .empty ∨ s.phase = .loaded →
    ∃ s1 s2 s3 s4, exec .count s = .next s1 ∧ exec .build s1 = .next s2 ∧ exec .serialize s2 = .next s3 ∧
      exec .derive s3 = .next s4 ∧ s4.phase = .derived ∧ s4.err = s.err ∧
      ((s4.packedBits.length + 5) / 6 ≤ s.maxGroups →
        ∃ s5 t, exec .pack s4 = .next s5 ∧ exec .transcode s5 = .next t ∧ exec .encode s = .next t ∧
          t.phase = .transcoded ∧ t.err = s.err ∧
          (s.len = 0 → t.nsym = 0 ∧ t.nnodes = 0 ∧ t.root = 0 ∧ t.totalBits = 0 ∧ t.ngroups = 0 ∧
            t.artifact.outTree = [] ∧ t.artifact.outBits = [])) ∧
      (s.maxGroups < (s4.packedBits.length + 5) / 6 →
        exec .encode s =
          .next (s4.raiseError .outOverflow (BitVec.ofNat 32 ((s4.packedBits.length + 5) / 6))))) ∧
    ∀ s : State, Phase.counted.rank ≤ s.phase.rank → exec .encode s = .next (s.raiseError .sequence 0)

/-- 48_decode_contract.md R246: the artifact of a run that has ended decodes to the text. -/
def Obligations.RoundTrip : Prop :=
  ∀ s : State, s.Sound → s.Results → s.runEnded = true →
    decodeOutput (listedRun s.outTree (2 * s.nnodes.toNat)) (listedRun s.outBits s.ngroups.toNat)
      s.len.toNat s.root.toNat = .ok s.textList ∧
    s.artifact.decode = .ok s.textList

/-- 48_decode_contract.md R240 to R245: a decode that succeeds gives N symbols, and reads `k` bits (no shorter run of
them decodes) that alone matter: any safe segment that begins with them, the padding of its last character
changed or not, decodes to the same. Then what every decode returns, failing or not, by the first check that
decides, in the order of the rules; the walk of a tree that is not degenerate is told by the indexes its bits
lead to. -/
def Obligations.DecodeGivesNSymbolsAndIgnoresPadding : Prop :=
  (∀ (ot ob : List Symbol) (n r : Nat) (out : List Symbol), decodeOutput ot ob n r = .ok out →
    out.length = n ∧
    ∃ k, k ≤ (bitsOf ob).length ∧
      (∀ j, j < k → walkBits (elementsOf ot) r n ((bitsOf ob).take j) = .error .bitsExhausted) ∧
      ∀ ob' : List Symbol, (∀ b ∈ ob', 42 ≤ b.toNat ∧ b.toNat ≤ 106 ∧ b.toNat ≠ 92) →
        (bitsOf ob).take k <+: bitsOf ob' → decodeOutput ot ob' n r = .ok out) ∧
    (∀ ot : List Symbol, (elementsOf ot).length = ot.length / 2 ∧
      ∀ i h l, ot[2 * i]? = some h → ot[2 * i + 1]? = some l →
        (elementsOf ot)[i]? = some (((fromSafe h).toNat * 64 + (fromSafe l).toNat : Int) - 512)) ∧
    (∀ ob : List Symbol, (bitsOf ob).length = 6 * ob.length ∧
      ∀ j c t, ob[j]? = some c → t < 6 → (bitsOf ob)[6 * j + t]? = some ((fromSafe c).getLsbD (5 - t))) ∧
    ∀ (ot ob : List Symbol) (n r : Nat),
      (ot.length % 2 = 1 → decodeOutput ot ob n r = .error .oddTree) ∧
      (ot.length % 2 = 0 → (∃ b ∈ ot ++ ob, b.toNat ≤ 41 ∨ b.toNat = 92 ∨ 107 ≤ b.toNat) →
        decodeOutput ot ob n r = .error .badChar) ∧
      (ot.length % 2 = 0 → (∀ b ∈ ot ++ ob, 42 ≤ b.toNat ∧ b.toNat ≤ 106 ∧ b.toNat ≠ 92) →
        (n = 0 → decodeOutput ot ob n r = .ok []) ∧
        (n ≠ 0 →
          (ot = [] → decodeOutput ot ob n r = .error .emptyTree) ∧
          (ot ≠ [] →
            ((∃ e ∈ elementsOf ot, e > 255 ∨ e = -1 ∨ e < -(((ot.length / 2 : Nat) : Int) - 1)) →
              decodeOutput ot ob n r = .error .badElement) ∧
            ((∀ e ∈ elementsOf ot, e ≤ 255 ∧ e ≠ -1 ∧ -(((ot.length / 2 : Nat) : Int) - 1) ≤ e) →
              (ot.length / 2 ≤ r → decodeOutput ot ob n r = .error .badIndex) ∧
              ∀ leaf : Int, (elementsOf ot)[r]? = some leaf →
                (0 ≤ leaf →
                  (∀ j, j < n → (bitsOf ob)[j]? = some true → (∀ i, i < j → (bitsOf ob)[i]? = some false) →
                    decodeOutput ot ob n r = .error .badBranch) ∧
                  ((bitsOf ob).length < n → (∀ b ∈ bitsOf ob, b = false) →
                    decodeOutput ot ob n r = .error .bitsExhausted) ∧
                  ((∀ j, j < n → (bitsOf ob)[j]? = some false) →
                    decodeOutput ot ob n r = .ok (List.replicate n (elementSymbol leaf)))) ∧
                (leaf < 0 → ∀ targets, targets = walkTargets (elementsOf ot) r r (bitsOf ob) →
                  (∀ j, (∀ i ∈ targets.take j, i < ot.length / 2) →
                    (leafSymbols (elementsOf ot) (targets.take j)).length = n →
                    decodeOutput ot ob n r = .ok (leafSymbols (elementsOf ot) (targets.take j))) ∧
                  (∀ j i, (∀ i ∈ targets.take j, i < ot.length / 2) →
                    (leafSymbols (elementsOf ot) (targets.take j)).length < n → targets[j]? = some i →
                    ot.length / 2 ≤ i → decodeOutput ot ob n r = .error .badIndex) ∧
                  ((∀ i ∈ targets, i < ot.length / 2) → (leafSymbols (elementsOf ot) targets).length < n →
                    decodeOutput ot ob n r = .error .bitsExhausted))))))

/-! ## The host's accesses (10_state.md, 20_memory.md) -/

/-- 20_memory.md section 1: a read changes nothing of the block and returns, by case, the register, the valid window
word, 0 for a reserved offset, or an unspecified word. That CMD too reads an unspecified word while BUSY = 1 is
the model's reading (log 16). The last clause is the model's choice (log 10): an aligned 4-byte access at an
offset outside the aperture stops by name. -/
def Obligations.ReadReturnsTheWord : Prop :=
  (∀ (s : State) (a : Nat), a % 4 = 0 → a < 0x4000000 →
    (∃ t w, busAccess ⟨a, 4, .read⟩ s = .next t ∧
      t = { s with received := w :: s.received, draws := t.draws } ∧
      ∀ v, s.readWord a = some v → w = v) ∧
    match locate s.maxLen s.maxGroups a with
    | .reserved => s.readWord a = some 0
    | .register r =>
      s.readWord a =
        if s.busy = true ∧ r ≠ .id ∧ r ≠ .status ∧ r ≠ .cfgMaxLen ∧ r ≠ .cfgMaxGroups then none
        else some (s.registerWord r)
    | loc =>
      (s.valid loc = false → s.readWord a = none) ∧
      (s.Sound → s.valid loc = true → ∃ v, s.windowWord loc = some v ∧ s.readWord a = some v)) ∧
    ∀ (s : State) (a : Access), a.width = 4 → a.addr % 4 = 0 → 0x4000000 ≤ a.addr →
      busAccess a s = .fault (.outsideAperture a)

/-- 10_state.md R48: when an element is valid, and what its window then reads. -/
def Obligations.ValidElementsAreRead : Prop :=
  ∀ s : State, s.Sound →
    (∀ i, s.wordAt (.text i) =
      if s.busy = false ∧ i < s.len.toNat then some ((s.textAt i).setWidth 32) else none) ∧
    (∀ v, v < 256 → s.wordAt (.freq v) =
      if s.busy = false ∧ Phase.counted.rank ≤ s.phase.rank then some (s.freqAt v) else none) ∧
    (∀ j w, s.wordAt (.node j w) =
      if s.busy = false ∧ Phase.built.rank ≤ s.phase.rank ∧ j < s.nnodes.toNat then
        some ((s.nodeAt j).windowWord w) else none) ∧
    (∀ i, s.wordAt (.tree i) =
      if s.busy = false ∧ Phase.serialized.rank ≤ s.phase.rank ∧ i < s.nnodes.toNat then
        some (BitVec.ofInt 32 (s.treeAt i)) else none) ∧
    (∀ v, v < 256 → s.wordAt (.codeLen v) =
      if s.busy = false ∧ Phase.derived.rank ≤ s.phase.rank then some ((s.codeLenAt v).setWidth 32) else none) ∧
    (∀ v w, v < 256 → s.wordAt (.codeVal v w) =
      if s.busy = false ∧ Phase.derived.rank ≤ s.phase.rank then
        some ((s.codeValAt v).extractLsb' (32 * w) 32) else none) ∧
    (∀ j, s.wordAt (.group j) =
      if s.busy = false ∧ Phase.packed.rank ≤ s.phase.rank ∧ j < s.ngroups.toNat then
        some ((s.groupAt j).setWidth 32) else none) ∧
    (∀ c, s.wordAt (.outTree c) =
      if s.busy = false ∧ s.phase = .transcoded ∧ c < 2 * s.nnodes.toNat then
        (s.artifact.outTree[c]?).map (·.setWidth 32) else none) ∧
    ∀ j, s.wordAt (.outBits j) =
      if s.busy = false ∧ s.phase = .transcoded ∧ j < s.ngroups.toNat then
        (s.artifact.outBits[j]?).map (·.setWidth 32) else none

/-- 20_memory.md R64: a write has an effect only at CMD, where it submits the word. The second part ties every
access to a step: on the host's turn, with an access next in its program, the step is that access, with the
access and the turn taken. -/
def Obligations.WritesActOnlyAtCmd : Prop :=
  (∀ (s : State) (a : Nat) (v : Word), a % 4 = 0 → a < 0x4000000 →
    busAccess ⟨a, 4, .write v⟩ s = if a = 0x004 then submit v s else .next s) ∧
    ∀ (s : State) (a : Access) (rest : List HostAction), nextAgent s = .host → s.script = .access a :: rest →
      step s = busAccess a { s with script := rest, turns := s.turns.tail }

/-- 20_memory.md R62: an access of another width or alignment stops the host program with the bus error, and no
state of the block comes of it. -/
def Obligations.BadAccessesAreBusErrors : Prop :=
  ∀ (s : State) (a : Access),
    (a.width ≠ 4 ∨ a.addr % 4 ≠ 0 → busAccess a s = .fault (.busError a)) ∧
    (a.addr < 0x4000000 → busAccess a s = .fault (.busError a) → a.width ≠ 4 ∨ a.addr % 4 ≠ 0)

/-- 10_state.md R24, R25, R36 and R37: what each register offset reads; ID and the parameters read so at all
times; a write to a register other than CMD is ignored. -/
def Obligations.RegistersAreMapped : Prop :=
  ∀ s : State,
    s.readWord 0x000 = some 0x48554631#32 ∧
    s.readWord 0x030 = some (BitVec.ofNat 32 s.maxLen) ∧
    s.readWord 0x034 = some (BitVec.ofNat 32 s.maxGroups) ∧
    (s.busy = false →
      s.readWord 0x004 = some 0 ∧ s.readWord 0x008 = some s.statusWord ∧ s.readWord 0x00C = some s.errInfo ∧
      s.readWord 0x010 = some s.errAux ∧ s.readWord 0x014 = some s.len ∧ s.readWord 0x018 = some s.nsym ∧
      s.readWord 0x01C = some s.nnodes ∧ s.readWord 0x020 = some s.root ∧ s.readWord 0x024 = some s.totalBits ∧
      s.readWord 0x028 = some s.ngroups ∧ s.readWord 0x02C = some s.result) ∧
    (∀ a, 0x038 ≤ a → a ≤ 0xFFF → s.readWord a = some 0) ∧
    ∀ a v, a % 4 = 0 → a < 0x1000 → a ≠ 0x004 → busAccess ⟨a, 4, .write v⟩ s = .next s

/-- 10_state.md R27: the fields of STATUS, with 0 in every other bit, at all times; and the eight values of PHASE
(10_state.md R22). -/
def Obligations.StatusHoldsItsFields : Prop :=
  (∀ s : State,
    s.readWord 0x008 = some s.statusWord ∧
    s.statusWord.getLsbD 0 = s.busy ∧ s.statusWord.getLsbD 1 = s.done ∧ s.statusWord.getLsbD 2 = s.err ∧
    s.statusWord.getLsbD 3 = s.overrun ∧ s.statusWord.extractLsb' 8 4 = s.errCode.bits ∧
    s.statusWord.extractLsb' 16 3 = s.phase.bits ∧
    ∀ i, (4 ≤ i ∧ i ≤ 7) ∨ (12 ≤ i ∧ i ≤ 15) ∨ 19 ≤ i → s.statusWord.getLsbD i = false) ∧
    State.reset.statusWord = 0 ∧
    Phase.empty.bits = 0 ∧ Phase.loaded.bits = 1 ∧ Phase.counted.bits = 2 ∧ Phase.built.bits = 3 ∧
    Phase.serialized.bits = 4 ∧ Phase.derived.bits = 5 ∧ Phase.packed.bits = 6 ∧ Phase.transcoded.bits = 7

/-- 20_memory.md R60, 10_state.md R41: where each element stands, which words are reserved, and the four words of
a node. -/
def Obligations.WindowsAreMapped : Prop :=
  ∀ maxLen maxGroups : Nat, maxLen ≤ Config.maxCapacity → maxGroups ≤ Config.maxCapacity →
    (∀ v, v < 256 → locate maxLen maxGroups (0x1000 + 4 * v) = .freq v ∧
      locate maxLen maxGroups (0x5000 + 4 * v) = .codeLen v ∧
      ∀ w, w < 8 → locate maxLen maxGroups (0x6000 + 32 * v + 4 * w) = .codeVal v w) ∧
    (∀ j, j < 511 → locate maxLen maxGroups (0x4000 + 4 * j) = .tree j ∧
      ∀ w, w < 4 → locate maxLen maxGroups (0x2000 + 16 * j + 4 * w) = .node j w) ∧
    (∀ c, c < 1022 → locate maxLen maxGroups (0x8000 + 4 * c) = .outTree c) ∧
    (∀ i, i < 4194304 →
      locate maxLen maxGroups (0x1000000 + 4 * i) = (if i < maxLen then .text i else .reserved) ∧
      locate maxLen maxGroups (0x2000000 + 4 * i) = (if i < maxGroups then .group i else .reserved) ∧
      locate maxLen maxGroups (0x3000000 + 4 * i) = (if i < maxGroups then .outBits i else .reserved)) ∧
    (∀ a, (0x38 ≤ a ∧ a ≤ 0xFFF) ∨ (0x1400 ≤ a ∧ a ≤ 0x1FFF) ∨ (0x3FF0 ≤ a ∧ a ≤ 0x3FFF) ∨
        (0x47FC ≤ a ∧ a ≤ 0x4FFF) ∨ (0x5400 ≤ a ∧ a ≤ 0x5FFF) ∨ (0x8FF8 ≤ a ∧ a ≤ 0xFFFFFF) →
      locate maxLen maxGroups a = .reserved) ∧
    ∀ n : Node, n.windowWord 0 = n.weight ∧ (n.windowWord 2).toNat = n.left.toNat ∧
      (n.windowWord 3).toNat = n.right.toNat ∧
      (n.windowWord 1).getLsbD 0 = (n.kind == .internal) ∧ (n.windowWord 1).getLsbD 1 = n.live ∧
      (n.windowWord 1).extractLsb' 8 8 = n.sym ∧
      ∀ i, (2 ≤ i ∧ i ≤ 7) ∨ 16 ≤ i → (n.windowWord 1).getLsbD i = false

/-! ## The whole machine -/

/-- 10_state.md section 5: the state after reset, for every field its table gives a value; no memory element is valid,
so that a read of one is unspecified. -/
def Obligations.ResetLeaves : Prop :=
  ∀ s : State, s = State.reset →
    s.registerWord .id = 0x48554631#32 ∧ s.statusWord = 0 ∧ s.phase = .empty ∧ s.busy = false ∧ s.done = false ∧
    s.err = false ∧ s.overrun = false ∧ s.errCode = .none ∧ s.errInfo = 0 ∧ s.errAux = 0 ∧ s.len = 0 ∧
    s.nsym = 0 ∧ s.nnodes = 0 ∧ s.root = 0 ∧ s.totalBits = 0 ∧ s.ngroups = 0 ∧ s.result = 0 ∧
    (s.registerWord .cfgMaxLen).toNat = s.maxLen ∧ (s.registerWord .cfgMaxGroups).toNat = s.maxGroups ∧
    1 ≤ s.maxLen ∧ s.maxLen ≤ 2 ^ 22 ∧ 1 ≤ s.maxGroups ∧ s.maxGroups ≤ 2 ^ 22 ∧
    ∀ loc : Location, (∀ r, loc ≠ .register r) → loc ≠ .reserved → s.valid loc = false ∧ s.wordAt loc = none

/-- The model's invariants hold after reset, and of the interface's machine (10_state.md section 5). -/
def Obligations.ResetMeetsTheInvariants : Prop :=
  State.reset.Sound ∧ State.reset.Results ∧ State.Sound Sys2Proof.core.reset

/-- 10_state.md section 2: PHASE never decreases but by CLEAR, which sets EMPTY. -/
def Obligations.PhaseNeverDecreases : Prop :=
  ∀ s t : State, s.Sound → step s = .next t →
    s.phase.rank ≤ t.phase.rank ∨ (s.clearsNext ∧ t.phase = .empty)

/-- 70_reset_and_hazards.md R291: no step moves the parameters or the identity constant. -/
def Obligations.ParametersNeverChange : Prop :=
  (∀ s t : State, step s = .next t → t.maxLen = s.maxLen ∧ t.maxGroups = s.maxGroups ∧
      t.registerWord .id = s.registerWord .id) ∧
    ∀ (i : Instr) (s t : State), exec i s = .next t → t.maxLen = s.maxLen ∧ t.maxGroups = s.maxGroups

/-- 10_state.md sections 2 and 3: TEXT and LEN move only by a PUSH that completes and by CLEAR. -/
def Obligations.TextMovesOnlyByPush : Prop :=
  ∀ s t : State, s.Sound → step s = .next t →
    (t.text = s.text ∧ t.len = s.len) ∨ (s.clearsNext ∧ t.len = 0) ∨
    (s.busy = true ∧ nextAgent s = .engine ∧
      ∃ sym, decode s.pending = .ok (.push sym) ∧ t.len = s.len + 1 ∧ t.text = s.text.write s.len.toNat sym)

/-- 10_state.md section 2: DONE is 1 after a completion and after CLEAR, 0 after a latch, and otherwise stays. -/
def Obligations.DoneFollowsTheHandshake : Prop :=
  State.reset.done = false ∧
    ∀ s t : State, step s = .next t →
      (s.clearsNext ∨ (s.busy = true ∧ nextAgent s = .engine) → t.done = true) ∧
      (s.busy = false → t.busy = true → t.done = false) ∧
      (¬ s.clearsNext → t.busy = s.busy → t.done = s.done)

/-- Every step keeps the invariant of the registers, the latch, the handshake and the memories (10_state.md
sections 2 and 3, 40_control.md section 1, 60_exceptions.md section 2). -/
def Obligations.SoundKeptByStep : Prop :=
  ∀ s t : State, s.Sound → step s = .next t → t.Sound

/-- Every step keeps the stages' results: each memory that is valid holds what its stage makes of the stage
before it, from the text on (10_state.md section 3, 40_control.md section 1). -/
def Obligations.ResultsKeptByStep : Prop :=
  ∀ s t : State, s.Sound → s.Results → step s = .next t → t.Results
end

