-- ==== Sys2Proof/Laws/Tree.lean ====
section
/-! SUPPORT. Trees: their sizes, listings and paths, and what the serializer's walk and the code-table
deriver's walk make of them. -/

namespace Sys2Proof.Machine

/-! ## Sizes, leaves and paths -/

theorem CodeTree.size_pos (t : CodeTree) : 1 ≤ t.size := by
  cases t <;> simp [CodeTree.size]; omega

theorem CodeTree.listing_length (t : CodeTree) (i : Nat) : (t.listing i).length = t.size := by
  induction t generalizing i with
  | leaf s => rfl
  | branch l r ihl ihr => simp [CodeTree.listing, CodeTree.size, ihl, ihr]; omega

theorem CodeTree.leaves_pos (t : CodeTree) : 1 ≤ t.leaves.length := by
  induction t with
  | leaf s => simp [CodeTree.leaves]
  | branch l r ihl ihr => simp [CodeTree.leaves]; omega

theorem CodeTree.size_leaves (t : CodeTree) : t.size + 1 = 2 * t.leaves.length := by
  induction t with
  | leaf s => rfl
  | branch l r ihl ihr => simp [CodeTree.size, CodeTree.leaves]; omega

theorem CodeTree.depth_lt (t : CodeTree) : t.depth + 1 ≤ t.leaves.length := by
  induction t with
  | leaf s => simp [CodeTree.depth, CodeTree.leaves]
  | branch l r ihl ihr =>
    have := l.leaves_pos; have := r.leaves_pos
    simp [CodeTree.depth, CodeTree.leaves]; omega

theorem CodeTree.paths_symbols (t : CodeTree) : t.paths.map Prod.fst = t.leaves := by
  induction t with
  | leaf s => rfl
  | branch l r ihl ihr =>
    simp only [CodeTree.paths, CodeTree.leaves, List.map_append, List.map_map, ← ihl, ← ihr]
    congr 1

theorem CodeTree.path_length_le (t : CodeTree) : ∀ c ∈ t.paths, c.2.length ≤ t.depth := by
  induction t with
  | leaf s => simp [CodeTree.paths]
  | branch l r ihl ihr =>
    intro c hc
    simp only [CodeTree.paths, List.mem_append, List.mem_map] at hc
    rcases hc with ⟨d, hd, rfl⟩ | ⟨d, hd, rfl⟩
    · have := ihl d hd
      simp only [CodeTree.depth, List.length_cons]; omega
    · have := ihr d hd
      simp only [CodeTree.depth, List.length_cons]; omega

/-- A path that begins another of the same tree is that path. -/
theorem CodeTree.path_unique (t : CodeTree) :
    ∀ c ∈ t.paths, ∀ d ∈ t.paths, c.2 <+: d.2 → c = d := by
  induction t with
  | leaf s =>
    intro c hc d hd _
    simp only [CodeTree.paths, List.mem_singleton] at hc hd
    rw [hc, hd]
  | branch l r ihl ihr =>
    intro c hc d hd h
    simp only [CodeTree.paths, List.mem_append, List.mem_map] at hc hd
    rcases hc with ⟨c', hc', rfl⟩ | ⟨c', hc', rfl⟩ <;> rcases hd with ⟨d', hd', rfl⟩ | ⟨d', hd', rfl⟩
    · have h2 : c'.2 <+: d'.2 := by simpa [List.cons_prefix_cons] using h
      rw [ihl c' hc' d' hd' h2]
    · simp [List.cons_prefix_cons] at h
    · simp [List.cons_prefix_cons] at h
    · have h2 : c'.2 <+: d'.2 := by simpa [List.cons_prefix_cons] using h
      rw [ihr c' hc' d' hd' h2]

/-- The Kraft equality, scaled by a power that covers every path (44_code_table.md R186). -/
theorem CodeTree.kraft (t : CodeTree) (n : Nat) (h : t.depth ≤ n) :
    (t.paths.map (fun c => 2 ^ (n - c.2.length))).sum = 2 ^ n := by
  induction t generalizing n with
  | leaf s => simp [CodeTree.paths]
  | branch l r ihl ihr =>
    simp only [CodeTree.depth] at h
    obtain ⟨m, rfl⟩ : ∃ m, n = m + 1 := ⟨n - 1, by omega⟩
    have hl := ihl m (by omega)
    have hr := ihr m (by omega)
    simp only [CodeTree.paths, List.map_append, List.map_map, List.sum_append]
    have e : ∀ b : Bool, ((fun c : Symbol × BitString => 2 ^ (m + 1 - c.2.length)) ∘
        fun c : Symbol × BitString => (c.1, b :: c.2)) = fun c => 2 ^ (m - c.2.length) := by
      intro b; funext c; simp
    rw [e, e, hl, hr, pow_succ]; omega

/-- Each element of a listing is a symbol, or minus an index past its own left child (43_serializer.md R164,
R165). -/
theorem CodeTree.listing_range (t : CodeTree) (i : Nat) :
    ∀ e ∈ t.listing i, (0 ≤ e ∧ e ≤ 255) ∨ (-((i + t.size - 1 : Nat) : Int) ≤ e ∧ e ≤ -((i + 2 : Nat) : Int)) := by
  induction t generalizing i with
  | leaf s =>
    intro e he
    simp only [CodeTree.listing, List.mem_singleton] at he
    have := s.isLt
    left; omega
  | branch l r ihl ihr =>
    intro e he
    have hl := l.size_pos; have hr := r.size_pos
    simp only [CodeTree.listing, List.mem_cons, List.mem_append] at he
    rcases he with rfl | he | he
    · right; simp only [CodeTree.size]; omega
    · rcases ihl (i + 1) e he with h | h
      · left; exact h
      · right; simp only [CodeTree.size]; omega
    · rcases ihr _ e he with h | h
      · left; exact h
      · right; simp only [CodeTree.size]; omega

/-! ## The serializer's walk -/

/-- The rounds of `flattenLoop` a tree takes. -/
def CodeTree.rounds : CodeTree → Nat
  | .leaf _ => 1
  | .branch l r => l.rounds + r.rounds + 3

theorem CodeTree.rounds_eq (t : CodeTree) : t.rounds + 1 = 2 * t.size := by
  induction t with
  | leaf s => rfl
  | branch l r ihl ihr => simp [CodeTree.size, CodeTree.rounds]; omega

theorem flattenLoop_pictures (nodeAt : Nat → Node) (t : CodeTree) (id : Nat) (h : Pictures nodeAt t id)
    (rounds : Nat) (rest : List Frame) (out : List Int) :
    flattenLoop nodeAt (rounds + t.rounds) (childFrame id :: rest) out =
      flattenLoop nodeAt rounds rest (out ++ t.listing out.length) := by
  induction t generalizing id rounds rest out with
  | leaf s =>
    obtain ⟨hk, hs⟩ := h
    simp [CodeTree.rounds, flattenLoop, childFrame, hk, hs, CodeTree.listing]
  | branch l r ihl ihr =>
    obtain ⟨hk, hl, hr⟩ := h
    have e : rounds + (CodeTree.branch l r).rounds = (rounds + 1 + r.rounds + 1 + l.rounds) + 1 := by
      simp [CodeTree.rounds]; omega
    rw [e, childFrame, flattenLoop]
    simp only [hk]
    rw [ihl _ hl, flattenLoop]
    simp only [hk]
    rw [ihr _ hr, flattenLoop]
    simp only [hk]
    have hset : ∀ (v : Int) (b : List Int), (out ++ placeholder :: b).set out.length v = out ++ v :: b := by
      intro v b; simp
    simp only [List.append_assoc, List.length_append, List.length_cons, CodeTree.listing_length,
      CodeTree.listing, hset, List.cons_append]
    have e2 : out.length + (l.size + 1) = out.length + 1 + l.size := by omega
    simp only [List.length_nil, Nat.zero_add, e2, List.nil_append]

theorem flatten_pictures (nodeAt : Nat → Node) (t : CodeTree) (h : Pictures nodeAt t (t.size - 1)) :
    flatten nodeAt t.size = some (t.listing 0) := by
  have hs := t.size_pos
  have hr := t.rounds_eq
  have e : 2 * t.size = 1 + t.rounds := by omega
  rw [flatten, if_neg (by omega), e, flattenLoop_pictures nodeAt t _ h]
  simp [flattenLoop, CodeTree.listing_length]

/-! ## The deriver's walk -/

/-- `elemAt` lists the tree from index `i` on. -/
def Lists (elemAt : Nat → Int) : CodeTree → Nat → Prop
  | .leaf s, i => elemAt i = (s.toNat : Int)
  | .branch l r, i =>
    elemAt i = -((i + 1 + l.size : Nat) : Int) ∧ Lists elemAt l (i + 1) ∧ Lists elemAt r (i + 1 + l.size)

theorem lists_of_getElem (elemAt : Nat → Int) (t : CodeTree) (i : Nat)
    (h : ∀ k, k < t.size → (t.listing i)[k]? = some (elemAt (i + k))) : Lists elemAt t i := by
  induction t generalizing i with
  | leaf s =>
    have := h 0 (by simp [CodeTree.size])
    simpa [CodeTree.listing, Lists, eq_comm] using this
  | branch l r ihl ihr =>
    refine ⟨?_, ?_, ?_⟩
    · have := h 0 (by simp [CodeTree.size])
      simpa [CodeTree.listing, eq_comm] using this
    · apply ihl
      intro k hk
      have := h (k + 1) (by simp [CodeTree.size]; omega)
      rw [CodeTree.listing, List.getElem?_cons_succ, List.getElem?_append_left] at this
      · rw [this]; congr 2; omega
      · rw [CodeTree.listing_length]; exact hk
    · apply ihr
      intro k hk
      have := h (l.size + k + 1) (by simp [CodeTree.size]; omega)
      rw [CodeTree.listing, List.getElem?_cons_succ, List.getElem?_append_right] at this
      · rw [CodeTree.listing_length] at this
        have e : l.size + k - l.size = k := by omega
        rw [e] at this
        rw [this]; congr 2; omega
      · rw [CodeTree.listing_length]; omega

/-- The stores of a walk that comes to a tree with the code `p` so far. -/
def storePaths (table : List BitString) (p : BitString) (cs : List (Symbol × BitString)) : List BitString :=
  cs.foldl (fun tb c => tb.set c.1.toNat (p ++ c.2)) table

theorem storePaths_append (table : List BitString) (p : BitString) (cs ds : List (Symbol × BitString)) :
    storePaths table p (cs ++ ds) = storePaths (storePaths table p cs) p ds := by
  simp [storePaths]

theorem storePaths_cons_path (table : List BitString) (p : BitString) (b : Bool)
    (cs : List (Symbol × BitString)) :
    storePaths table p (cs.map (fun c => (c.1, b :: c.2))) = storePaths table (p ++ [b]) cs := by
  simp [storePaths, List.foldl_map]

theorem deriveLoop_lists (elemAt : Nat → Int) (t : CodeTree) (i : Nat) (h : Lists elemAt t i)
    (rounds : Nat) (p : BitString) (rest : List (Nat × BitString)) (table : List BitString) :
    deriveLoop elemAt (rounds + t.size) ((i, p) :: rest) table =
      deriveLoop elemAt rounds rest (storePaths table p t.paths) := by
  induction t generalizing i rounds p rest table with
  | leaf s =>
    have h' : elemAt i = (s.toNat : Int) := h
    simp [CodeTree.size, deriveLoop, h', CodeTree.paths, storePaths]
  | branch l r ihl ihr =>
    obtain ⟨he, hl, hr⟩ := h
    have e : rounds + (CodeTree.branch l r).size = (rounds + r.size + l.size) + 1 := by
      simp [CodeTree.size]; omega
    have hneg : ¬ (0 ≤ elemAt i) := by rw [he]; omega
    have hidx : (-elemAt i).toNat = i + 1 + l.size := by rw [he]; omega
    rw [e, deriveLoop, if_neg hneg, hidx, ihl _ hl, ihr _ hr]
    rw [CodeTree.paths, storePaths_append, storePaths_cons_path, storePaths_cons_path]

theorem storePaths_length (table : List BitString) (p : BitString) (cs : List (Symbol × BitString)) :
    (storePaths table p cs).length = table.length := by
  induction cs generalizing table with
  | nil => rfl
  | cons c cs ih => simp only [storePaths, List.foldl_cons] at ih ⊢; rw [ih]; simp

theorem storePaths_getD_of_notMem (table : List BitString) (p : BitString) (cs : List (Symbol × BitString))
    (v : Symbol) (h : v ∉ cs.map Prod.fst) :
    (storePaths table p cs).getD v.toNat [] = table.getD v.toNat [] := by
  induction cs generalizing table with
  | nil => rfl
  | cons c cs ih =>
    simp only [List.map_cons, List.mem_cons, not_or] at h
    have hne : c.1.toNat ≠ v.toNat := fun e => h.1 (BitVec.eq_of_toNat_eq e.symm)
    have := ih (table.set c.1.toNat (p ++ c.2)) h.2
    simp only [storePaths, List.foldl_cons] at this ⊢
    rw [this]
    simp [List.getD_eq_getElem?_getD, List.getElem?_set_ne hne]

theorem storePaths_getD (table : List BitString) (p : BitString) (cs : List (Symbol × BitString))
    (hlen : table.length = 256) (hn : (cs.map Prod.fst).Nodup) (c : Symbol × BitString) (hc : c ∈ cs) :
    (storePaths table p cs).getD c.1.toNat [] = p ++ c.2 := by
  induction cs generalizing table with
  | nil => simp at hc
  | cons d cs ih =>
    simp only [List.map_cons, List.nodup_cons] at hn
    rcases List.mem_cons.mp hc with rfl | hc
    · have := storePaths_getD_of_notMem (table.set c.1.toNat (p ++ c.2)) p cs c.1 hn.1
      simp only [storePaths, List.foldl_cons] at this ⊢
      rw [this]
      have hlt : c.1.toNat < table.length := by rw [hlen]; exact c.1.isLt
      simp [List.getD_eq_getElem?_getD, hlt]
    · have := ih (table.set d.1.toNat (p ++ d.2)) (by simpa using hlen) hn.2 hc
      simpa only [storePaths, List.foldl_cons] using this

end Sys2Proof.Machine
end

