-- ==== Sys2Proof/Laws/Builder.lean ====
section
/-! SUPPORT. The builder: what the scan selects, what a merge does, and the forest the merge loop keeps. -/

namespace Sys2Proof.Machine

/-! ## The scan -/

/-- `id` is live and below `n`. -/
def LiveBelow (nodes : List Node) (n id : Nat) : Prop := id < n ∧ (nodeIn nodes id).live = true

/-- What the scan knows after the ids below `n`. -/
structure ScanKnows (nodes : List Node) (n : Nat) (sc : Scan) : Prop where
  noFirst : sc.first = none → sc.second = none ∧ ∀ j, ¬ LiveBelow nodes n j
  first : ∀ a, sc.first = some a → LiveBelow nodes n a ∧ ∀ j, LiveBelow nodes n j → j ≠ a → Before nodes a j
  noSecond : ∀ a, sc.first = some a → sc.second = none → ∀ j, LiveBelow nodes n j → j = a
  second : ∀ a b, sc.first = some a → sc.second = some b →
    LiveBelow nodes n b ∧ b ≠ a ∧ ∀ j, LiveBelow nodes n j → j ≠ a → j ≠ b → Before nodes b j

theorem scanNode_knows (nodes : List Node) (n : Nat) (sc : Scan) (h : ScanKnows nodes n sc) :
    ScanKnows nodes (n + 1) (scanNode nodes sc n) := by
  obtain ⟨f, s⟩ := sc
  have split : ∀ j, LiveBelow nodes (n + 1) j ↔ LiveBelow nodes n j ∨ (j = n ∧ (nodeIn nodes n).live = true) := by
    intro j
    constructor
    · rintro ⟨h1, h2⟩
      rcases Nat.lt_succ_iff_lt_or_eq.mp h1 with h3 | rfl
      · exact .inl ⟨h3, h2⟩
      · exact .inr ⟨rfl, h2⟩
    · rintro (⟨h1, h2⟩ | ⟨rfl, h2⟩)
      · exact ⟨by omega, h2⟩
      · exact ⟨by omega, h2⟩
  by_cases hl : (nodeIn nodes n).live = true
  case neg =>
    have e : ∀ j, LiveBelow nodes (n + 1) j ↔ LiveBelow nodes n j := by
      intro j; rw [split]; simp [hl]
    have hsc : scanNode nodes ⟨f, s⟩ n = ⟨f, s⟩ := by simp [scanNode, Bool.not_eq_true _ ▸ hl]
    rw [hsc]
    exact ⟨fun h0 => by simpa [e] using h.noFirst h0, fun a ha => by simpa [e] using h.first a ha,
      fun a ha hs => by simpa [e] using h.noSecond a ha hs, fun a b ha hb => by simpa [e] using h.second a b ha hb⟩
  have e : ∀ j, LiveBelow nodes (n + 1) j ↔ LiveBelow nodes n j ∨ j = n := by
    intro j; rw [split]; simp [hl]
  have hn : ∀ j, LiveBelow nodes n j → j ≠ n := fun j hj => by have := hj.1; omega
  cases f with
  | none =>
    obtain ⟨hs, hno⟩ := h.noFirst rfl
    have hs' : s = none := hs
    subst hs'
    have hsc : scanNode nodes ⟨none, none⟩ n = ⟨some n, none⟩ := by simp [scanNode, hl, lighter]
    rw [hsc]
    refine ⟨by simp, ?_, ?_, by simp⟩
    · rintro a ha
      cases ha
      exact ⟨(e n).2 (.inr rfl), fun j hj hne => absurd ((e j).1 hj) (by simp [hno j, hne])⟩
    · rintro a ha _ j hj
      cases ha
      rcases (e j).1 hj with h' | h'
      · exact absurd h' (hno j)
      · exact h'
  | some a =>
    obtain ⟨hla, hfa⟩ := h.first a rfl
    by_cases h1 : (nodeIn nodes n).weight.toNat < (nodeIn nodes a).weight.toNat
    · have hsc : scanNode nodes ⟨some a, s⟩ n = ⟨some n, some a⟩ := by simp [scanNode, hl, lighter, h1]
      rw [hsc]
      have hna : a ≠ n := hn a hla
      have hlt : ∀ j, LiveBelow nodes n j → (nodeIn nodes a).weight.toNat ≤ (nodeIn nodes j).weight.toNat := by
        intro j hj
        by_cases hja : j = a
        · rw [hja]
        · rcases hfa j hj hja with hb | hb <;> omega
      refine ⟨by simp, ?_, by simp, ?_⟩
      · rintro a' ha'
        cases ha'
        refine ⟨(e n).2 (.inr rfl), fun j hj hne => ?_⟩
        rcases (e j).1 hj with h' | h'
        · have := hlt j h'; exact .inl (by omega)
        · exact absurd h' hne
      · rintro a' b' ha' hb'
        cases ha'; cases hb'
        refine ⟨(e a).2 (.inl hla), hna, fun j hj hne hnea => ?_⟩
        rcases (e j).1 hj with h' | h'
        · exact hfa j h' hnea
        · exact absurd h' hne
    · cases s with
      | none =>
        have hsc : scanNode nodes ⟨some a, none⟩ n = ⟨some a, some n⟩ := by
          simp [scanNode, hl, lighter, h1]
        rw [hsc]
        have hall := h.noSecond a rfl rfl
        refine ⟨by simp, ?_, by simp, ?_⟩
        · rintro a' ha'
          cases ha'
          refine ⟨(e a).2 (.inl hla), fun j hj hne => ?_⟩
          rcases (e j).1 hj with h' | rfl
          · exact absurd (hall j h') hne
          · have := hla.1
            by_cases heq : (nodeIn nodes a).weight.toNat = (nodeIn nodes j).weight.toNat
            · exact .inr ⟨heq, this⟩
            · exact .inl (by omega)
        · rintro a' b' ha' hb'
          cases ha'; cases hb'
          refine ⟨(e n).2 (.inr rfl), fun h' => hn a hla h'.symm, fun j hj hne hnen => ?_⟩
          rcases (e j).1 hj with h' | h'
          · exact absurd (hall j h') hne
          · exact absurd h' hnen
      | some b =>
        obtain ⟨hlb, hba, hsb⟩ := h.second a b rfl rfl
        have hfirst : ∀ j, LiveBelow nodes (n + 1) j → j ≠ a → Before nodes a j := by
          intro j hj hne
          rcases (e j).1 hj with h' | rfl
          · exact hfa j h' hne
          · have := hla.1
            by_cases heq : (nodeIn nodes a).weight.toNat = (nodeIn nodes j).weight.toNat
            · exact .inr ⟨heq, this⟩
            · exact .inl (by omega)
        by_cases h2 : (nodeIn nodes n).weight.toNat < (nodeIn nodes b).weight.toNat
        · have hsc : scanNode nodes ⟨some a, some b⟩ n = ⟨some a, some n⟩ := by
            simp [scanNode, hl, lighter, h1, h2]
          rw [hsc]
          refine ⟨by simp, ?_, by simp, ?_⟩
          · rintro a' ha'
            cases ha'
            exact ⟨(e a).2 (.inl hla), hfirst⟩
          · rintro a' b' ha' hb'
            cases ha'; cases hb'
            refine ⟨(e n).2 (.inr rfl), fun h' => hn a hla h'.symm, fun j hj hne hnen => ?_⟩
            rcases (e j).1 hj with h' | h'
            · by_cases hjb : j = b
              · subst hjb; exact .inl h2
              · rcases hsb j h' hne hjb with hb | hb <;> exact .inl (by omega)
            · exact absurd h' hnen
        · have hsc : scanNode nodes ⟨some a, some b⟩ n = ⟨some a, some b⟩ := by
            simp [scanNode, hl, lighter, h1, h2]
          rw [hsc]
          refine ⟨by simp, ?_, by simp, ?_⟩
          · rintro a' ha'
            cases ha'
            exact ⟨(e a).2 (.inl hla), hfirst⟩
          · rintro a' b' ha' hb'
            cases ha'; cases hb'
            refine ⟨(e b).2 (.inl hlb), hba, fun j hj hne hneb => ?_⟩
            rcases (e j).1 hj with h' | rfl
            · exact hsb j h' hne hneb
            · have := hlb.1
              by_cases heq : (nodeIn nodes b).weight.toNat = (nodeIn nodes j).weight.toNat
              · exact .inr ⟨heq, this⟩
              · exact .inl (by omega)

theorem select2_knows (nodes : List Node) : ScanKnows nodes nodes.length (select2 nodes) := by
  have : ∀ n, ScanKnows nodes n ((List.range n).foldl (scanNode nodes) ⟨none, none⟩) := by
    intro n
    induction n with
    | zero =>
      refine ⟨fun _ => ⟨rfl, fun j hj => absurd hj.1 (by omega)⟩, by simp, by simp, by simp⟩
    | succ n ih =>
      rw [List.range_succ, List.foldl_append]
      exact scanNode_knows nodes n _ ih
  exact this nodes.length

/-! ## Live nodes -/

/-- The live ids, ascending. -/
def liveIds (nodes : List Node) : List Nat :=
  (List.range nodes.length).filter (fun j => (nodeIn nodes j).live)

theorem mem_liveIds {nodes : List Node} {j : Nat} : j ∈ liveIds nodes ↔ LiveBelow nodes nodes.length j := by
  simp [liveIds, LiveBelow]

theorem liveIds_nodup (nodes : List Node) : (liveIds nodes).Nodup := List.nodup_range.filter _

theorem map_nodeIn (nodes : List Node) : (List.range nodes.length).map (nodeIn nodes) = nodes := by
  apply List.ext_getElem
  · simp
  · intro i h1 h2
    simp [nodeIn, List.getD_eq_getElem?_getD, h2]

theorem liveIds_length (nodes : List Node) : (liveIds nodes).length = liveCount nodes := by
  conv_rhs => rw [liveCount, ← map_nodeIn nodes, List.countP_map]
  rw [liveIds, List.countP_eq_length_filter]
  rfl

/-- With two live nodes or more, the scan finds two ids, the least and the next in the order (weight, id)
(42_tree_builder.md R142). -/
theorem select2_of_two_live {nodes : List Node} (h : 2 ≤ liveCount nodes) :
    ∃ a b, select2 nodes = ⟨some a, some b⟩ ∧ a ∈ liveIds nodes ∧ b ∈ liveIds nodes ∧ a ≠ b ∧
      (∀ j ∈ liveIds nodes, j ≠ a → Before nodes a j) ∧
      (∀ j ∈ liveIds nodes, j ≠ a → j ≠ b → Before nodes b j) := by
  have hk := select2_knows nodes
  rw [← liveIds_length] at h
  generalize hsc : select2 nodes = sc at hk
  obtain ⟨f, s⟩ := sc
  cases f with
  | none =>
    have hno := (hk.noFirst rfl).2
    have : liveIds nodes = [] := List.eq_nil_iff_forall_not_mem.mpr (fun j hj => hno j (mem_liveIds.mp hj))
    rw [this] at h; simp at h
  | some a =>
    cases s with
    | none =>
      have hall := hk.noSecond a rfl rfl
      have hsub : liveIds nodes ⊆ [a] := by
        intro j hj
        simp [hall j (mem_liveIds.mp hj)]
      have := ((liveIds_nodup nodes).subperm hsub).length_le
      simp at this; omega
    | some b =>
      obtain ⟨hla, hfa⟩ := hk.first a rfl
      obtain ⟨hlb, hba, hsb⟩ := hk.second a b rfl rfl
      exact ⟨a, b, rfl, mem_liveIds.mpr hla, mem_liveIds.mpr hlb, fun e => hba e.symm,
        fun j hj hne => hfa j (mem_liveIds.mp hj) hne, fun j hj h1 h2 => hsb j (mem_liveIds.mp hj) h1 h2⟩

/-! ## A merge -/

theorem merge_length (nodes : List Node) (a b : Nat) : (merge nodes a b).length = nodes.length + 1 := by
  simp [merge]

theorem nodeIn_merge_new (nodes : List Node) (a b : Nat) :
    nodeIn (merge nodes a b) nodes.length = mergedNode nodes a b := by
  simp [nodeIn, merge, List.getD_eq_getElem?_getD]

/-- An older node after a merge: itself, consumed where it is one of the two (42_tree_builder.md R143). -/
theorem nodeIn_merge_old (nodes : List Node) (a b j : Nat) (h : j < nodes.length) :
    nodeIn (merge nodes a b) j =
      { nodeIn nodes j with live := (nodeIn nodes j).live && !decide (j = a) && !decide (j = b) } := by
  have hlt : j < ((nodes.modify a Node.consume).modify b Node.consume).length := by simpa using h
  simp only [nodeIn, merge, List.getD_eq_getElem?_getD, List.getElem?_append_left hlt, List.getElem?_modify]
  have hg : nodes[j]? = some nodes[j] := List.getElem?_eq_getElem h
  by_cases ha : a = j <;> by_cases hb : b = j <;>
    simp [hg, ha, hb, eq_comm, Node.consume]

theorem liveIds_merge (nodes : List Node) (a b : Nat) :
    liveIds (merge nodes a b) =
      (liveIds nodes).filter (fun j => !decide (j = a) && !decide (j = b)) ++ [nodes.length] := by
  rw [liveIds, merge_length, List.range_succ, List.filter_append]
  congr 1
  · rw [liveIds, List.filter_filter]
    apply List.filter_congr
    intro j hj
    rw [nodeIn_merge_old nodes a b j (List.mem_range.mp hj)]
    simp only [Bool.and_assoc]
    cases (nodeIn nodes j).live <;> simp
  · simp [nodeIn_merge_new, mergedNode]

theorem liveIds_perm_pair {nodes : List Node} {a b : Nat} (ha : a ∈ liveIds nodes) (hb : b ∈ liveIds nodes)
    (hab : a ≠ b) :
    (liveIds nodes).Perm
      (a :: b :: (liveIds nodes).filter (fun j => !decide (j = a) && !decide (j = b))) := by
  have hnd := liveIds_nodup nodes
  rw [List.perm_ext_iff_of_nodup hnd]
  · intro j
    simp only [List.mem_cons, List.mem_filter, Bool.and_eq_true, Bool.not_eq_true', decide_eq_false_iff_not]
    constructor
    · intro hj
      by_cases h1 : j = a
      · exact .inl h1
      · by_cases h2 : j = b
        · exact .inr (.inl h2)
        · exact .inr (.inr ⟨hj, h1, h2⟩)
    · rintro (rfl | rfl | ⟨hj, -, -⟩)
      · exact ha
      · exact hb
      · exact hj
  · refine List.nodup_cons.mpr ⟨?_, List.nodup_cons.mpr ⟨?_, hnd.filter _⟩⟩
    · simp [hab]
    · simp

/-! ## The forest -/

theorem pictures_of_agree (f g : Nat → Node) (t : CodeTree) (id : Nat)
    (h : ∀ j ∈ pictureIds f t id, (g j).kind = (f j).kind ∧ (g j).sym = (f j).sym ∧
      (g j).left = (f j).left ∧ (g j).right = (f j).right)
    (hp : Pictures f t id) : Pictures g t id ∧ pictureIds g t id = pictureIds f t id := by
  induction t generalizing id with
  | leaf s =>
    have := h id (by simp [pictureIds])
    exact ⟨⟨this.1.trans hp.1, this.2.1.trans hp.2⟩, rfl⟩
  | branch l r ihl ihr =>
    obtain ⟨hk, hl, hr⟩ := hp
    have h0 := h id (by simp [pictureIds])
    have h1 := ihl _ (fun j hj => h j (by simp [pictureIds, hj])) hl
    have h2 := ihr _ (fun j hj => h j (by simp [pictureIds, hj])) hr
    refine ⟨⟨h0.1.trans hk, ?_, ?_⟩, ?_⟩
    · rw [h0.2.2.1]; exact h1.1
    · rw [h0.2.2.2]; exact h2.1
    · simp only [pictureIds, h0.2.2.1, h0.2.2.2, h1.2, h2.2]

/-- A node store pictures at most one tree from a node down. -/
theorem pictures_unique {nodeAt : Nat → Node} {t u : CodeTree} {id : Nat} (ht : Pictures nodeAt t id)
    (hu : Pictures nodeAt u id) : t = u := by
  induction t generalizing u id with
  | leaf s =>
    cases u with
    | leaf v => rw [← ht.2, ← hu.2]
    | branch l r => exact absurd (ht.1.symm.trans hu.1) (by decide)
  | branch l r ihl ihr =>
    cases u with
    | leaf v => exact absurd (ht.1.symm.trans hu.1) (by decide)
    | branch l' r' => rw [ihl ht.2.1 hu.2.1, ihr ht.2.2 hu.2.2]

/-- From each node of a pictured tree down, the store pictures a tree whose leaves are among the tree's. -/
theorem pictures_below {nodeAt : Nat → Node} {t : CodeTree} {id j : Nat} (h : Pictures nodeAt t id)
    (hj : j ∈ pictureIds nodeAt t id) : ∃ u, Pictures nodeAt u j ∧ u.leaves.Sublist t.leaves := by
  induction t generalizing id with
  | leaf s =>
    obtain rfl : j = id := by simpa [pictureIds] using hj
    exact ⟨_, h, List.Sublist.refl _⟩
  | branch l r ihl ihr =>
    simp only [pictureIds, List.mem_cons, List.mem_append] at hj
    rcases hj with rfl | hj | hj
    · exact ⟨_, h, List.Sublist.refl _⟩
    · obtain ⟨u, hu, hs⟩ := ihl h.2.1 hj
      exact ⟨u, hu, hs.trans (List.sublist_append_left _ _)⟩
    · obtain ⟨u, hu, hs⟩ := ihr h.2.2 hj
      exact ⟨u, hu, hs.trans (List.sublist_append_right _ _)⟩

theorem pictureIds_length (f : Nat → Node) (t : CodeTree) (id : Nat) : (pictureIds f t id).length = t.size := by
  induction t generalizing id with
  | leaf s => rfl
  | branch l r ihl ihr => simp [pictureIds, CodeTree.size, ihl, ihr]; omega

/-- What the merge loop keeps: the live nodes are the roots of trees that together use every node once, with
the leaves and the whole weight it began with (42_tree_builder.md R144 to R147). -/
structure Forest (leaves nodes : List Node) (trees : List (Nat × CodeTree)) : Prop where
  roots : (trees.map Prod.fst).Perm (liveIds nodes)
  pictures : ∀ c ∈ trees, Pictures (nodeIn nodes) c.2 c.1
  ids : (trees.flatMap (fun c => pictureIds (nodeIn nodes) c.2 c.1)).Perm (List.range nodes.length)
  symbols : (trees.flatMap (fun c => c.2.leaves)).Perm (leaves.map Node.sym)
  weights : ((liveIds nodes).map (fun j => (nodeIn nodes j).weight.toNat)).sum =
    (leaves.map (fun n => n.weight.toNat)).sum
  bounded : ∀ j, j < nodes.length → (nodeIn nodes j).weight.toNat ≤ (leaves.map (fun n => n.weight.toNat)).sum
  count : nodes.length + liveCount nodes = 2 * leaves.length
  last : nodes ≠ [] → nodes.length - 1 ∈ liveIds nodes
  older : ∀ j, (h : j < leaves.length) → j < nodes.length ∧
    nodeIn nodes j = { leaves[j] with live := (nodeIn nodes j).live }

theorem mem_le_sum (l : List Nat) (x : Nat) (h : x ∈ l) : x ≤ l.sum := List.le_sum_of_mem h

theorem forest_init (leaves : List Node) (h : ∀ n ∈ leaves, n.kind = .leaf ∧ n.live = true) :
    Forest leaves leaves ((List.range leaves.length).map (fun j => (j, .leaf (nodeIn leaves j).sym))) := by
  have hget : ∀ j, (hj : j < leaves.length) → nodeIn leaves j = leaves[j] := by
    intro j hj; simp [nodeIn, List.getD_eq_getElem?_getD, hj]
  have hlive : liveIds leaves = List.range leaves.length := by
    rw [liveIds, List.filter_eq_self]
    intro j hj
    have hj := List.mem_range.mp hj
    rw [hget j hj]; exact (h _ (List.getElem_mem hj)).2
  refine ⟨?_, ?_, ?_, ?_, ?_, ?_, ?_, ?_, ?_⟩
  · rw [hlive, List.map_map]; simp [Function.comp_def]
  · intro c hc
    obtain ⟨j, hj, rfl⟩ := List.mem_map.mp hc
    have hj := List.mem_range.mp hj
    refine ⟨?_, rfl⟩
    rw [hget j hj]; exact (h _ (List.getElem_mem hj)).1
  · rw [List.flatMap_map]; simp [pictureIds]
  · rw [List.flatMap_map]
    simp only [CodeTree.leaves]
    have : (List.range leaves.length).flatMap (fun j => [(nodeIn leaves j).sym]) =
        ((List.range leaves.length).map (nodeIn leaves)).map Node.sym := by
      rw [List.map_map]; exact List.flatMap_pure_eq_map _ _
    rw [this, map_nodeIn]
  · rw [hlive]
    have : (List.range leaves.length).map (fun j => (nodeIn leaves j).weight.toNat) =
        ((List.range leaves.length).map (nodeIn leaves)).map (fun n => n.weight.toNat) := by
      rw [List.map_map]; rfl
    rw [this, map_nodeIn]
  · intro j hj
    rw [hget j hj]
    exact mem_le_sum _ _ (List.mem_map_of_mem (List.getElem_mem hj))
  · rw [← liveIds_length, hlive]; simp; omega
  · intro hne
    rw [hlive, List.mem_range]
    have := List.length_pos_iff.mpr hne
    omega
  · intro j hj
    refine ⟨hj, ?_⟩
    rw [hget j hj]

theorem sum_perm_nat {l m : List Nat} (h : l.Perm m) : l.sum = m.sum := h.sum_eq

theorem forest_merge {leaves nodes : List Node} {trees : List (Nat × CodeTree)} (F : Forest leaves nodes trees)
    (hk : leaves.length ≤ 256) (hw : (leaves.map (fun n => n.weight.toNat)).sum < 2 ^ 32)
    {a b : Nat} (ha : a ∈ liveIds nodes) (hb : b ∈ liveIds nodes) (hab : a ≠ b) :
    ∃ trees', Forest leaves (merge nodes a b) trees' := by
  -- the two trees, and the rest
  have hal := (mem_liveIds.mp ha).1
  have hbl := (mem_liveIds.mp hb).1
  have hlive2 : 2 ≤ liveCount nodes := by
    rw [← liveIds_length, (liveIds_perm_pair ha hb hab).length_eq]; simp
  have hsmall : nodes.length ≤ 510 := by have := F.count; omega
  set others := (liveIds nodes).filter (fun j => !decide (j = a) && !decide (j = b)) with hothers
  have hperm := liveIds_perm_pair ha hb hab
  rw [← hothers] at hperm
  have hroots := F.roots.trans hperm
  obtain ⟨ta, hta⟩ : ∃ ta, (a, ta) ∈ trees := by
    have : a ∈ trees.map Prod.fst := F.roots.mem_iff.mpr ha
    obtain ⟨c, hc, rfl⟩ := List.mem_map.mp this
    exact ⟨c.2, hc⟩
  obtain ⟨F1, hF1⟩ : ∃ F1, trees.Perm ((a, ta) :: F1) := ⟨_, List.perm_cons_erase hta⟩
  have hr1 : (F1.map Prod.fst).Perm (b :: others) := by
    have := (hF1.map Prod.fst).symm.trans hroots
    exact (List.perm_cons a).mp (by simpa using this)
  obtain ⟨tb, htb⟩ : ∃ tb, (b, tb) ∈ F1 := by
    have : b ∈ F1.map Prod.fst := hr1.mem_iff.mpr (by simp)
    obtain ⟨c, hc, rfl⟩ := List.mem_map.mp this
    exact ⟨c.2, hc⟩
  obtain ⟨F2, hF2⟩ : ∃ F2, F1.Perm ((b, tb) :: F2) := ⟨_, List.perm_cons_erase htb⟩
  have hr2 : (F2.map Prod.fst).Perm others := by
    have := (hF2.map Prod.fst).symm.trans hr1
    exact (List.perm_cons b).mp (by simpa using this)
  have hall : trees.Perm ((a, ta) :: (b, tb) :: F2) := hF1.trans (hF2.cons _)
  -- the older nodes picture the same trees in the new store
  have hagree : ∀ j, j < nodes.length →
      (nodeIn (merge nodes a b) j).kind = (nodeIn nodes j).kind ∧
      (nodeIn (merge nodes a b) j).sym = (nodeIn nodes j).sym ∧
      (nodeIn (merge nodes a b) j).left = (nodeIn nodes j).left ∧
      (nodeIn (merge nodes a b) j).right = (nodeIn nodes j).right := by
    intro j hj
    rw [nodeIn_merge_old nodes a b j hj]
    exact ⟨rfl, rfl, rfl, rfl⟩
  have hidslt : ∀ c ∈ trees, ∀ j ∈ pictureIds (nodeIn nodes) c.2 c.1, j < nodes.length := by
    intro c hc j hj
    have : j ∈ trees.flatMap (fun c => pictureIds (nodeIn nodes) c.2 c.1) :=
      List.mem_flatMap.mpr ⟨c, hc, hj⟩
    exact List.mem_range.mp (F.ids.mem_iff.mp this)
  have hkeep : ∀ c ∈ trees, Pictures (nodeIn (merge nodes a b)) c.2 c.1 ∧
      pictureIds (nodeIn (merge nodes a b)) c.2 c.1 = pictureIds (nodeIn nodes) c.2 c.1 := by
    intro c hc
    exact pictures_of_agree _ _ c.2 c.1 (fun j hj => hagree j (hidslt c hc j hj)) (F.pictures c hc)
  have hmema : (a, ta) ∈ trees := hta
  have hmemb : (b, tb) ∈ trees := hall.mem_iff.mpr (by simp)
  have hmem2 : ∀ c ∈ F2, c ∈ trees := fun c hc => hall.mem_iff.mpr (by simp [hc])
  have hka := hkeep _ hmema
  have hkb := hkeep _ hmemb
  have hleft : (mergedNode nodes a b).left.toNat = b := by
    show (BitVec.ofNat 9 b).toNat = b
    simp; omega
  have hright : (mergedNode nodes a b).right.toNat = a := by
    show (BitVec.ofNat 9 a).toNat = a
    simp; omega
  have hidsnew : pictureIds (nodeIn (merge nodes a b)) (.branch tb ta) nodes.length =
      nodes.length :: (pictureIds (nodeIn nodes) tb b ++ pictureIds (nodeIn nodes) ta a) := by
    simp only [pictureIds, nodeIn_merge_new, hleft, hright, hka.2, hkb.2]
  -- weights
  have hwsum : ((liveIds nodes).map (fun j => (nodeIn nodes j).weight.toNat)).sum =
      (nodeIn nodes a).weight.toNat + ((nodeIn nodes b).weight.toNat +
        (others.map (fun j => (nodeIn nodes j).weight.toNat)).sum) := by
    rw [sum_perm_nat (hperm.map _)]; simp
  have hnew : (mergedNode nodes a b).weight.toNat =
      (nodeIn nodes a).weight.toNat + (nodeIn nodes b).weight.toNat := by
    show ((nodeIn nodes a).weight + (nodeIn nodes b).weight).toNat = _
    rw [BitVec.toNat_add]
    apply Nat.mod_eq_of_lt
    have := F.weights
    omega
  refine ⟨(nodes.length, .branch tb ta) :: F2, ?_, ?_, ?_, ?_, ?_, ?_, ?_, ?_, ?_⟩
  · rw [liveIds_merge, ← hothers]
    simp only [List.map_cons]
    exact (hr2.cons _).trans (List.perm_append_singleton _ _).symm
  · intro c hc
    rcases List.mem_cons.mp hc with rfl | hc
    · refine ⟨?_, ?_, ?_⟩
      · rw [nodeIn_merge_new]; rfl
      · rw [nodeIn_merge_new, hleft]; exact hkb.1
      · rw [nodeIn_merge_new, hright]; exact hka.1
    · exact (hkeep c (hmem2 c hc)).1
  · have h1 := (hall.flatMap_right (fun c => pictureIds (nodeIn nodes) c.2 c.1)).symm.trans F.ids
    simp only [List.flatMap_cons] at h1 ⊢
    rw [hidsnew, merge_length, List.range_succ]
    have h2 : F2.flatMap (fun c => pictureIds (nodeIn (merge nodes a b)) c.2 c.1) =
        F2.flatMap (fun c => pictureIds (nodeIn nodes) c.2 c.1) := by
      apply List.flatMap_congr
      intro c hc
      exact (hkeep c (hmem2 c hc)).2
    rw [h2, List.cons_append]
    refine ((List.Perm.cons _ ?_).trans (List.perm_append_singleton _ _).symm)
    refine List.Perm.trans ?_ h1
    rw [← List.append_assoc]
    exact List.perm_append_comm.append_right _
  · have h1 := (hall.flatMap_right (fun c => c.2.leaves)).symm.trans F.symbols
    simp only [List.flatMap_cons, CodeTree.leaves] at h1 ⊢
    refine List.Perm.trans ?_ h1
    rw [← List.append_assoc]
    exact List.perm_append_comm.append_right _
  · rw [liveIds_merge, ← hothers, List.map_append, List.sum_append]
    have h2 : others.map (fun j => (nodeIn (merge nodes a b) j).weight.toNat) =
        others.map (fun j => (nodeIn nodes j).weight.toNat) := by
      apply List.map_congr_left
      intro j hj
      have : j ∈ liveIds nodes := (List.mem_filter.mp hj).1
      rw [nodeIn_merge_old nodes a b j (mem_liveIds.mp this).1]
    rw [h2]
    simp only [List.map_cons, List.map_nil, List.sum_cons, List.sum_nil, nodeIn_merge_new, hnew]
    have := F.weights
    omega
  · intro j hj
    rw [merge_length] at hj
    by_cases h : j < nodes.length
    · rw [nodeIn_merge_old nodes a b j h]
      exact F.bounded j h
    · have : j = nodes.length := by omega
      subst this
      rw [nodeIn_merge_new, hnew]
      have := F.weights
      omega
  · have h1 := F.count
    rw [← liveIds_length] at h1 ⊢
    rw [liveIds_merge, ← hothers, merge_length]
    have := hperm.length_eq
    simp at this ⊢
    omega
  · intro _
    rw [merge_length, liveIds_merge]
    simp
  · intro j hj
    obtain ⟨h1, h2⟩ := F.older j hj
    rw [merge_length]
    refine ⟨by omega, ?_⟩
    rw [nodeIn_merge_old nodes a b j h1]
    rw [h2]

theorem liveCount_merge {nodes : List Node} {a b : Nat} (ha : a ∈ liveIds nodes) (hb : b ∈ liveIds nodes)
    (hab : a ≠ b) : liveCount (merge nodes a b) + 1 = liveCount nodes := by
  rw [← liveIds_length, ← liveIds_length, liveIds_merge, (liveIds_perm_pair ha hb hab).length_eq]
  simp

/-- The loop ends in a forest of at most one tree. -/
theorem mergeLoop_forest {leaves : List Node} (hk : leaves.length ≤ 256)
    (hw : (leaves.map (fun n => n.weight.toNat)).sum < 2 ^ 32) (rounds : Nat) (nodes : List Node) (sc : Scan)
    (trees : List (Nat × CodeTree)) (F : Forest leaves nodes trees) (hr : liveCount nodes ≤ rounds + 1) :
    ∃ trees', Forest leaves (mergeLoop rounds nodes sc).1 trees' ∧ liveCount (mergeLoop rounds nodes sc).1 ≤ 1 := by
  induction rounds generalizing nodes sc trees with
  | zero => exact ⟨trees, F, by simpa [mergeLoop] using hr⟩
  | succ rounds ih =>
    rw [mergeLoop]
    split
    · rename_i h2
      obtain ⟨a, b, hs, ha, hb, hab, -, -⟩ := select2_of_two_live h2
      rw [hs]
      obtain ⟨trees', F'⟩ := forest_merge F hk hw ha hb hab
      have := liveCount_merge ha hb hab
      exact ih _ _ trees' F' (by simp only [Option.getD_some]; omega)
    · exact ⟨trees, F, by simp only; omega⟩

/-- The scan candidates the loop starts from do not touch the nodes it makes. -/
theorem mergeLoop_scan (rounds : Nat) (nodes : List Node) (sc sc' : Scan) :
    (mergeLoop rounds nodes sc).1 = (mergeLoop rounds nodes sc').1 := by
  cases rounds with
  | zero => rfl
  | succ n => simp only [mergeLoop]; split <;> rfl

/-- What BUILD makes of at least one leaf (42_tree_builder.md R144 to R147). -/
structure BuiltTree (leaves nodes : List Node) (t : CodeTree) : Prop where
  pictures : Pictures (nodeIn nodes) t (nodes.length - 1)
  ids : (pictureIds (nodeIn nodes) t (nodes.length - 1)).Perm (List.range nodes.length)
  symbols : t.leaves.Perm (leaves.map Node.sym)
  size : t.size = nodes.length
  count : nodes.length + 1 = 2 * leaves.length
  live : ∀ j, j < nodes.length → ((nodeIn nodes j).live = true ↔ j = nodes.length - 1)
  rootWeight : (nodeIn nodes (nodes.length - 1)).weight.toNat = (leaves.map (fun n => n.weight.toNat)).sum
  bounded : ∀ j, j < nodes.length → (nodeIn nodes j).weight.toNat ≤ (leaves.map (fun n => n.weight.toNat)).sum
  older : ∀ j, (h : j < leaves.length) → j < nodes.length ∧
    nodeIn nodes j = { leaves[j] with live := (nodeIn nodes j).live }

theorem buildNodes_tree {leaves : List Node} (sc : Scan) (h1 : leaves ≠ []) (hk : leaves.length ≤ 256)
    (hw : (leaves.map (fun n => n.weight.toNat)).sum < 2 ^ 32)
    (hl : ∀ n ∈ leaves, n.kind = .leaf ∧ n.live = true) :
    ∃ t, BuiltTree leaves (buildNodes leaves sc).1 t := by
  have F0 := forest_init leaves hl
  have hcount : liveCount leaves ≤ leaves.length + 1 := by
    have := List.countP_le_length (p := Node.live) (l := leaves)
    simp only [liveCount]; omega
  obtain ⟨trees, F, hlive⟩ := mergeLoop_forest hk hw leaves.length leaves sc _ F0 hcount
  change Forest leaves (buildNodes leaves sc).1 trees at F
  change liveCount (buildNodes leaves sc).1 ≤ 1 at hlive
  generalize (buildNodes leaves sc).1 = nodes at F hlive
  have hpos : 1 ≤ leaves.length := List.length_pos_iff.mpr h1
  have hne : nodes ≠ [] := by
    rintro rfl
    have := F.count
    have h0 : liveCount ([] : List Node) = 0 := rfl
    simp only [List.length_nil] at this
    omega
  have hlast := F.last hne
  have hone : liveIds nodes = [nodes.length - 1] := by
    rw [← liveIds_length] at hlive
    match hm : liveIds nodes with
    | [] => rw [hm] at hlast; simp at hlast
    | [x] => rw [hm] at hlast; simp at hlast; rw [hlast]
    | x :: y :: l => rw [hm] at hlive; simp at hlive
  have hroots := F.roots
  rw [hone] at hroots
  have hmap : trees.map Prod.fst = [nodes.length - 1] := List.perm_singleton.mp hroots
  obtain ⟨t, ht⟩ : ∃ t, trees = [(nodes.length - 1, t)] := by
    obtain ⟨c, rfl, hc⟩ := List.map_eq_singleton_iff.mp hmap
    exact ⟨c.2, by rw [← hc]⟩
  subst ht
  have hids : (pictureIds (nodeIn nodes) t (nodes.length - 1)).Perm (List.range nodes.length) := by
    simpa using F.ids
  refine ⟨t, F.pictures (nodes.length - 1, t) (by simp), hids, by simpa using F.symbols, ?_, ?_, ?_, ?_, F.bounded, F.older⟩
  · have := hids.length_eq
    rw [pictureIds_length] at this
    simpa using this
  · have := F.count
    rw [← liveIds_length, hone] at this
    simpa using this
  · intro j hj
    have := (mem_liveIds (nodes := nodes) (j := j)).symm
    rw [hone, List.mem_singleton] at this
    rw [← this]
    exact ⟨fun h => ⟨hj, h⟩, fun h => h.2⟩
  · have := F.weights
    rw [hone] at this
    simpa using this

/-- The merge loop takes the two least live nodes each time (42_tree_builder.md R142). -/
theorem mergeLoop_greedy (rounds : Nat) (nodes : List Node) (sc : Scan) (hr : liveCount nodes ≤ rounds + 1) :
    GreedyMerges (liveCount nodes - 1) nodes (mergeLoop rounds nodes sc).1 := by
  induction rounds generalizing nodes sc with
  | zero =>
    have : liveCount nodes - 1 = 0 := by omega
    rw [this]; exact .done nodes (by omega)
  | succ r ih =>
    rw [mergeLoop]
    split
    · rename_i h2
      obtain ⟨a, b, hs, ha, hb, hab, h1, h2'⟩ := select2_of_two_live h2
      rw [hs]
      have hc := liveCount_merge ha hb hab
      have := ih (merge nodes a b) ⟨some a, some b⟩ (by omega)
      have hn : liveCount nodes - 1 = (liveCount (merge nodes a b) - 1) + 1 := by omega
      rw [hn]
      refine .merge _ nodes a b _ h2 ?_ ?_ this
      · exact ⟨mem_liveIds.mp ha, trivial, fun j hj _ hn => h1 j (mem_liveIds.mpr hj) hn⟩
      · exact ⟨mem_liveIds.mp hb, fun e => hab e.symm, fun j hj hja hjb => h2' j (mem_liveIds.mpr hj) hja hjb⟩
    · rename_i h2
      have : liveCount nodes - 1 = 0 := by omega
      rw [this]; exact .done nodes (by omega)

end Sys2Proof.Machine
end

