-- ==== Sys2Proof/Laws/Packer.lean ====
section
/-! SUPPORT. Bit strings as numbers, codes read back from the code memories, and the packed groups read back
as bits. -/

namespace Sys2Proof.Machine

/-! ## Bit strings as numbers -/

theorem bitsValue_foldl (p : BitString) (n : Nat) :
    p.foldl (fun n b => 2 * n + b.toNat) n = n * 2 ^ p.length + bitsValue p := by
  induction p generalizing n with
  | nil => simp [bitsValue]
  | cons b p ih =>
    have h : bitsValue (b :: p) = b.toNat * 2 ^ p.length + bitsValue p := by
      rw [bitsValue, List.foldl_cons, ih]; simp
    rw [List.foldl_cons, ih, h, List.length_cons, pow_succ]
    ring

theorem bitsValue_cons (b : Bool) (p : BitString) : bitsValue (b :: p) = b.toNat * 2 ^ p.length + bitsValue p := by
  rw [bitsValue, List.foldl_cons, bitsValue_foldl]
  simp

theorem bitsValue_lt (p : BitString) : bitsValue p < 2 ^ p.length := by
  induction p with
  | nil => simp [bitsValue]
  | cons b p ih =>
    rw [bitsValue_cons, List.length_cons, pow_succ]
    have : b.toNat ≤ 1 := Bool.toNat_le b
    nlinarith

/-- Bit j of a string of length L is bit L-1-j of its number (10_state.md R44). -/
theorem bitsValue_testBit (p : BitString) (j : Nat) (h : j < p.length) :
    (bitsValue p).testBit (p.length - 1 - j) = p[j] := by
  induction p generalizing j with
  | nil => simp at h
  | cons b p ih =>
    have hlt := bitsValue_lt p
    rw [bitsValue_cons, Nat.mul_comm]
    cases j with
    | zero =>
      simp only [List.length_cons, Nat.add_sub_cancel, Nat.sub_zero, List.getElem_cons_zero]
      rw [Nat.testBit_two_pow_mul_add _ hlt]
      cases b <;> simp
    | succ j =>
      have hj : j < p.length := by simpa using h
      have e : (b :: p).length - 1 - (j + 1) = p.length - 1 - j := by simp; omega
      rw [e, Nat.testBit_two_pow_mul_add _ hlt, if_pos (by omega), ih j hj]
      simp

/-- A code of at most 255 bits is read back from the two memories as it was stored (44_code_table.md R182,
R186). -/
theorem codeBits_stored (p : BitString) (h : p.length ≤ 255) : codeBits (codeLength p) (codeValue p) = p := by
  have hlen : (codeLength p).toNat = p.length := by
    simp only [codeLength, BitVec.toNat_ofNat]; exact Nat.mod_eq_of_lt (by omega)
  apply List.ext_getElem
  · simp [codeBits, hlen]
  · intro j h1 h2
    simp only [codeBits, List.getElem_map, List.getElem_range, hlen, codeValue]
    rw [BitVec.getLsbD_ofNat, bitsValue_testBit p j h2]
    simp; omega

/-! ## Groups -/

/-- The bits of a group, its most significant bit first (20_memory.md R66). -/
def groupBits (g : Group) : BitString := (List.range 6).map (fun t => g.getLsbD (5 - t))

theorem groupBits_ofBits (p : BitString) (h : p.length = 6) : groupBits (BitVec.ofNat 6 (bitsValue p)) = p := by
  apply List.ext_getElem
  · simp [groupBits, h]
  · intro j h1 h2
    simp only [groupBits, List.getElem_map, List.getElem_range, BitVec.getLsbD_ofNat]
    have e : 5 - j = p.length - 1 - j := by omega
    rw [e, bitsValue_testBit p j h2]
    simp; omega

theorem groupBits_groupOf (bits : BitString) (j : Nat) :
    groupBits (groupOf bits j) = (List.range 6).map (fun t => bits.getD (6 * j + t) false) := by
  rw [groupOf, groupBits_ofBits _ (by simp)]

theorem flatMap_range_six (n : Nat) (f : Nat → Bool) :
    (List.range n).flatMap (fun j => (List.range 6).map (fun t => f (6 * j + t))) = (List.range (6 * n)).map f := by
  induction n with
  | zero => rfl
  | succ n ih =>
    rw [List.range_succ (n := n), List.flatMap_append, ih, Nat.mul_succ, List.range_add, List.map_append, List.map_map]
    simp [Function.comp_def]

/-- The bits of the groups are the packed bits, then zeros up to a multiple of 6 (45_bit_packer.md R201,
R204). -/
theorem flatMap_groupBits_packGroups (bits : BitString) :
    (packGroups bits).flatMap groupBits =
      bits ++ List.replicate (6 * groupsNeeded bits.length - bits.length) false := by
  have e : (packGroups bits).flatMap groupBits =
      (List.range (groupsNeeded bits.length)).flatMap
        (fun j => (List.range 6).map (fun t => bits.getD (6 * j + t) false)) := by
    rw [packGroups, List.flatMap_map]
    apply List.flatMap_congr
    intro j _
    exact groupBits_groupOf bits j
  rw [e, flatMap_range_six _ (fun i => bits.getD i false)]
  have hle : bits.length ≤ 6 * groupsNeeded bits.length := by simp only [groupsNeeded]; omega
  apply List.ext_getElem
  · simp; omega
  · intro i h1 h2
    simp only [List.getElem_map, List.getElem_range, List.getD_eq_getElem?_getD]
    by_cases hi : i < bits.length
    · simp [hi]
    · rw [List.getElem_append_right (by omega), List.getElem_replicate]
      simp [hi]

theorem packGroups_length (bits : BitString) : (packGroups bits).length = groupsNeeded bits.length := by
  simp [packGroups]

/-! ## The streaming form -/

theorem packGroups_nil : packGroups [] = [] := rfl

theorem packGroups_six (a b c d e f : Bool) (rest : BitString) :
    packGroups (a :: b :: c :: d :: e :: f :: rest) =
      BitVec.ofNat 6 (bitsValue [a, b, c, d, e, f]) :: packGroups rest := by
  have hn : groupsNeeded (a :: b :: c :: d :: e :: f :: rest).length = groupsNeeded rest.length + 1 := by
    simp only [groupsNeeded, List.length_cons]; omega
  rw [packGroups, hn, List.range_succ_eq_map, List.map_cons, List.map_map]
  congr 1

theorem packGroups_short (held : BitString) (h : held.length < 6) : packGroups held = flushGroup held := by
  match held, h with
  | [], _ => rfl
  | [a], _ => cases a <;> rfl
  | [a, b], _ => cases a <;> cases b <;> rfl
  | [a, b, c], _ => cases a <;> cases b <;> cases c <;> rfl
  | [a, b, c, d], _ => cases a <;> cases b <;> cases c <;> cases d <;> rfl
  | [a, b, c, d, e], _ => cases a <;> cases b <;> cases c <;> cases d <;> cases e <;> rfl
  | _ :: _ :: _ :: _ :: _ :: _ :: _, h => simp at h; omega

/-- Taking groups splits the packed groups of a longer string. -/
theorem packGroups_takeGroups (held more : BitString) :
    packGroups (held ++ more) = (takeGroups held).1 ++ packGroups ((takeGroups held).2 ++ more) := by
  induction held using takeGroups.induct with
  | case1 a b c d e f rest ih =>
    simp only [takeGroups, List.cons_append]
    rw [packGroups_six, ih]
  | case2 held h =>
    rw [takeGroups]
    · simp
    · exact h

theorem takeGroups_short (held : BitString) : (takeGroups held).2.length < 6 := by
  induction held using takeGroups.induct with
  | case1 a b c d e f rest ih => simpa only [takeGroups] using ih
  | case2 held h =>
    rw [takeGroups]
    · by_contra hc
      match held, hc with
      | a :: b :: c :: d :: e :: f :: rest, _ => exact h a b c d e f rest rfl
      | [], hc => simp at hc
      | [_], hc => simp at hc
      | [_, _], hc => simp at hc
      | [_, _, _], hc => simp at hc
      | [_, _, _, _], hc => simp at hc
      | [_, _, _, _, _], hc => simp at hc
    · exact h

end Sys2Proof.Machine
end

