-- ==== Sys2Proof/Laws/Contract.lean ====
section
/-! SUPPORT. The decode contract on what the block writes: un-transcoding gives back the elements and the
bits, and the walk gives back the symbols. -/

namespace Sys2Proof.Machine

/-! ## Un-transcoding -/

theorem fromSafe_toSafe : ∀ v : Group, fromSafe (toSafe v) = v := by decide

theorem isSafe_toSafe : ∀ v : Group, isSafe (toSafe v) = true := by decide

theorem elementsOf_transcodeTree (elements : List Int) (h : ∀ e ∈ elements, -512 ≤ e ∧ e ≤ 3583) :
    elementsOf (transcodeTree elements) = elements := by
  induction elements with
  | nil => rfl
  | cons e es ih =>
    have he := h e (by simp)
    have hes := ih (fun x hx => h x (by simp [hx]))
    have hu : ((elementBits e).toNat : Int) = e + 512 := by
      simp only [elementBits, Config.elementBias, BitVec.toNat_ofInt]
      omega
    have hsplit : ((elementBits e).extractLsb' 6 6).toNat * 64 + ((elementBits e).extractLsb' 0 6).toNat =
        (elementBits e).toNat := by
      simp only [BitVec.extractLsb'_toNat, Nat.shiftRight_eq_div_pow]
      have := (elementBits e).isLt
      omega
    simp only [transcodeTree, List.flatMap_cons, elementChars, List.cons_append, List.nil_append, elementsOf,
      fromSafe_toSafe] at hes ⊢
    rw [hes]
    congr 1
    simp only [Config.elementBias]
    omega

theorem transcodeTree_length (elements : List Int) : (transcodeTree elements).length = 2 * elements.length := by
  induction elements with
  | nil => rfl
  | cons e es ih =>
    simp only [transcodeTree, List.flatMap_cons, elementChars, List.length_append, List.length_cons,
      List.length_nil] at ih ⊢
    omega

theorem transcodeTree_safe (elements : List Int) : (transcodeTree elements).all isSafe = true := by
  rw [List.all_eq_true]
  intro c hc
  obtain ⟨e, -, hc⟩ := List.mem_flatMap.mp hc
  simp only [elementChars, List.mem_cons, List.not_mem_nil, or_false] at hc
  rcases hc with rfl | rfl <;> exact isSafe_toSafe _

theorem transcodeBits_safe (groups : List Group) : (transcodeBits groups).all isSafe = true := by
  rw [List.all_eq_true]
  intro c hc
  obtain ⟨g, -, rfl⟩ := List.mem_map.mp hc
  exact isSafe_toSafe g

theorem bitsOf_transcodeBits (groups : List Group) : bitsOf (transcodeBits groups) = groups.flatMap groupBits := by
  simp only [bitsOf, transcodeBits, List.flatMap_map, fromSafe_toSafe]
  rfl

/-! ## The walk -/

/-- At a leaf the descent reads no bit. -/
theorem descend_leaf {elements : List Int} {i : Nat} (h : 0 ≤ elementIn elements i) (bits : BitString) :
    descend elements bits i = .ok (elementIn elements i, bits) := by
  cases bits <;> simp [descend, h]

/-- At a branch the descent reads one bit and goes to the child it names, if the array has it. -/
theorem descend_branch {elements : List Int} {i : Nat} (h : elementIn elements i < 0) (b : Bool) (bits : BitString) :
    descend elements (b :: bits) i =
      if elements.length ≤ (if b then (-elementIn elements i).toNat else i + 1) then .error .badIndex
      else descend elements bits (if b then (-elementIn elements i).toNat else i + 1) := by
  rw [descend, if_neg (by omega)]

/-- A descent that succeeds reads a run of bits that alone decides it, and fails on any shorter run. -/
theorem descend_reads {elements : List Int} {bits : BitString} {i : Nat} {e : Int} {rest : BitString}
    (h : descend elements bits i = .ok (e, rest)) :
    ∃ read, bits = read ++ rest ∧ (∀ more, descend elements (read ++ more) i = .ok (e, more)) ∧
      ∀ j, j < read.length → descend elements (read.take j) i = .error .bitsExhausted := by
  induction bits generalizing i with
  | nil =>
    by_cases hp : 0 ≤ elementIn elements i
    · rw [descend_leaf hp] at h
      cases h
      exact ⟨[], rfl, descend_leaf hp, fun j hj => absurd hj (by simp)⟩
    · simp [descend, hp] at h
  | cons b bits ih =>
    by_cases hp : 0 ≤ elementIn elements i
    · rw [descend_leaf hp] at h
      cases h
      exact ⟨[], rfl, descend_leaf hp, fun j hj => absurd hj (by simp)⟩
    · have hn : elementIn elements i < 0 := by omega
      rw [descend_branch hn] at h
      by_cases hl : elements.length ≤ (if b then (-elementIn elements i).toNat else i + 1)
      · rw [if_pos hl] at h
        cases h
      · rw [if_neg hl] at h
        obtain ⟨read, rfl, hm, hs⟩ := ih h
        refine ⟨b :: read, rfl, fun more => ?_, fun j hj => ?_⟩
        · rw [List.cons_append, descend_branch hn, if_neg hl, hm]
        · cases j with
          | zero => simp [descend, hp]
          | succ j =>
            rw [List.take_succ_cons, descend_branch hn, if_neg hl]
            exact hs j (by simpa using hj)

theorem leafSymbols_leaf {elements : List Int} {j : Nat} (h : 0 ≤ elementIn elements j) (targets : List Nat) :
    leafSymbols elements (j :: targets) = elementSymbol (elementIn elements j) :: leafSymbols elements targets := by
  simp [leafSymbols, h]

theorem leafSymbols_branch {elements : List Int} {j : Nat} (h : elementIn elements j < 0) (targets : List Nat) :
    leafSymbols elements (j :: targets) = leafSymbols elements targets := by
  simp [leafSymbols, show ¬ 0 ≤ elementIn elements j by omega]

@[simp] theorem walkTargets_length (elements : List Int) (root i : Nat) (bits : BitString) :
    (walkTargets elements root i bits).length = bits.length := by
  induction bits generalizing i with
  | nil => rfl
  | cons b bits ih => simp [walkTargets, ih]

theorem descend_path (elements : List Int) (t : CodeTree) (i : Nat) (hl : Lists (elementIn elements) t i)
    (hi : i + t.size ≤ elements.length) (c : Symbol × BitString) (hc : c ∈ t.paths) (more : BitString) :
    descend elements (c.2 ++ more) i = .ok ((c.1.toNat : Int), more) := by
  induction t generalizing i c with
  | leaf s =>
    have hl' : elementIn elements i = (s.toNat : Int) := hl
    simp only [CodeTree.paths, List.mem_singleton] at hc
    subst hc
    cases more <;> simp [descend, hl']
  | branch l r ihl ihr =>
    obtain ⟨he, hll, hlr⟩ := hl
    have hneg : ¬ (0 ≤ elementIn elements i) := by rw [he]; omega
    have hidx : (-elementIn elements i).toNat = i + 1 + l.size := by rw [he]; omega
    have hsl := l.size_pos
    have hsr := r.size_pos
    simp only [CodeTree.size] at hi
    simp only [CodeTree.paths, List.mem_append, List.mem_map] at hc
    rcases hc with ⟨d, hd, rfl⟩ | ⟨d, hd, rfl⟩
    · rw [List.cons_append, descend, if_neg hneg]
      simp only [Bool.false_eq_true, if_false]
      rw [if_neg (by omega)]
      exact ihl (i + 1) hll (by omega) d hd
    · rw [List.cons_append, descend, if_neg hneg]
      simp only [if_true, hidx]
      rw [if_neg (by omega)]
      exact ihr _ hlr (by omega) d hd

theorem elementSymbol_toNat (s : Symbol) : elementSymbol (s.toNat : Int) = s := by
  apply BitVec.eq_of_toNat_eq
  have := s.isLt
  simp only [elementSymbol, BitVec.toNat_ofInt]
  omega

/-- The walk over a tree's listing gives back a text whose symbols the tree has, from the text's paths. -/
theorem walkTree_text (elements : List Int) (t : CodeTree) (hl : Lists (elementIn elements) t 0)
    (hi : t.size ≤ elements.length) (code : Symbol → BitString) (text : List Symbol)
    (hcode : ∀ s ∈ text, (s, code s) ∈ t.paths) (more : BitString) :
    walkTree elements 0 text.length (text.flatMap code ++ more) = .ok text := by
  induction text with
  | nil => rfl
  | cons s text ih =>
    have h := descend_path elements t 0 hl (by omega) (s, code s) (hcode s (by simp))
      (text.flatMap code ++ more)
    have ih := ih (fun x hx => hcode x (by simp [hx]))
    simp only [List.flatMap_cons, List.length_cons, walkTree, List.append_assoc, h, ih]
    rw [elementSymbol_toNat]

theorem walkLeaf_text (s : Symbol) (n : Nat) (more : BitString) :
    walkLeaf (s.toNat : Int) n (List.replicate n false ++ more) = .ok (List.replicate n s) := by
  induction n with
  | zero => rfl
  | succ n ih =>
    simp only [List.replicate_succ, List.cons_append, walkLeaf, Bool.false_eq_true, if_false, ih,
      elementSymbol_toNat]

theorem lists_listing (t : CodeTree) : Lists (elementIn (t.listing 0)) t 0 := by
  apply lists_of_getElem
  intro k hk
  rw [Nat.zero_add, elementIn, List.getD_eq_getElem?_getD]
  have : k < (t.listing 0).length := by rw [CodeTree.listing_length]; exact hk
  simp [this]

/-- The elements of a tree's listing pass the contract's validation (48_decode_contract.md R242). -/
theorem listing_ok (t : CodeTree) : (t.listing 0).all (elementOk (t.listing 0).length) = true := by
  rw [List.all_eq_true]
  intro e he
  have hs := t.size_pos
  rw [CodeTree.listing_length]
  simp only [elementOk, Bool.and_eq_true, decide_eq_true_eq]
  rcases t.listing_range 0 e he with h | h <;> omega

end Sys2Proof.Machine
end

