-- ==== Sys2Proof/Laws/State.lean ====
section
/-! SUPPORT. One lemma per field per named update of the state, so that no proof unfolds an update. -/

namespace Sys2Proof.Machine

variable (s : State)

@[simp] theorem State.raiseError_phase (c : ErrCode) (a : Word) : (s.raiseError c a).phase = s.phase := rfl
@[simp] theorem State.raiseError_busy (c : ErrCode) (a : Word) : (s.raiseError c a).busy = s.busy := rfl
@[simp] theorem State.raiseError_done (c : ErrCode) (a : Word) : (s.raiseError c a).done = s.done := rfl
@[simp] theorem State.raiseError_err (c : ErrCode) (a : Word) : (s.raiseError c a).err = true := rfl
@[simp] theorem State.raiseError_overrun (c : ErrCode) (a : Word) : (s.raiseError c a).overrun = s.overrun := rfl
@[simp] theorem State.raiseError_errCode (c : ErrCode) (a : Word) : (s.raiseError c a).errCode = c := rfl
@[simp] theorem State.raiseError_errInfo (c : ErrCode) (a : Word) : (s.raiseError c a).errInfo = s.pending := rfl
@[simp] theorem State.raiseError_errAux (c : ErrCode) (a : Word) : (s.raiseError c a).errAux = a := rfl
@[simp] theorem State.raiseError_pending (c : ErrCode) (a : Word) : (s.raiseError c a).pending = s.pending := rfl
@[simp] theorem State.raiseError_len (c : ErrCode) (a : Word) : (s.raiseError c a).len = s.len := rfl
@[simp] theorem State.raiseError_nsym (c : ErrCode) (a : Word) : (s.raiseError c a).nsym = s.nsym := rfl
@[simp] theorem State.raiseError_nnodes (c : ErrCode) (a : Word) : (s.raiseError c a).nnodes = s.nnodes := rfl
@[simp] theorem State.raiseError_root (c : ErrCode) (a : Word) : (s.raiseError c a).root = s.root := rfl
@[simp] theorem State.raiseError_totalBits (c : ErrCode) (a : Word) : (s.raiseError c a).totalBits = s.totalBits := rfl
@[simp] theorem State.raiseError_ngroups (c : ErrCode) (a : Word) : (s.raiseError c a).ngroups = s.ngroups := rfl
@[simp] theorem State.raiseError_result (c : ErrCode) (a : Word) : (s.raiseError c a).result = s.result := rfl
@[simp] theorem State.raiseError_maxLen (c : ErrCode) (a : Word) : (s.raiseError c a).maxLen = s.maxLen := rfl
@[simp] theorem State.raiseError_maxGroups (c : ErrCode) (a : Word) : (s.raiseError c a).maxGroups = s.maxGroups := rfl
@[simp] theorem State.raiseError_text (c : ErrCode) (a : Word) : (s.raiseError c a).text = s.text := rfl
@[simp] theorem State.raiseError_freq (c : ErrCode) (a : Word) : (s.raiseError c a).freq = s.freq := rfl
@[simp] theorem State.raiseError_node (c : ErrCode) (a : Word) : (s.raiseError c a).node = s.node := rfl
@[simp] theorem State.raiseError_tree (c : ErrCode) (a : Word) : (s.raiseError c a).tree = s.tree := rfl
@[simp] theorem State.raiseError_codeLen (c : ErrCode) (a : Word) : (s.raiseError c a).codeLen = s.codeLen := rfl
@[simp] theorem State.raiseError_codeVal (c : ErrCode) (a : Word) : (s.raiseError c a).codeVal = s.codeVal := rfl
@[simp] theorem State.raiseError_group (c : ErrCode) (a : Word) : (s.raiseError c a).group = s.group := rfl
@[simp] theorem State.raiseError_outTree (c : ErrCode) (a : Word) : (s.raiseError c a).outTree = s.outTree := rfl
@[simp] theorem State.raiseError_outBits (c : ErrCode) (a : Word) : (s.raiseError c a).outBits = s.outBits := rfl
@[simp] theorem State.raiseError_frames (c : ErrCode) (a : Word) : (s.raiseError c a).frames = s.frames := rfl
@[simp] theorem State.raiseError_walk (c : ErrCode) (a : Word) : (s.raiseError c a).walk = s.walk := rfl
@[simp] theorem State.raiseError_accumulator (c : ErrCode) (a : Word) : (s.raiseError c a).accumulator = s.accumulator := rfl
@[simp] theorem State.raiseError_scan (c : ErrCode) (a : Word) : (s.raiseError c a).scan = s.scan := rfl
@[simp] theorem State.raiseError_script (c : ErrCode) (a : Word) : (s.raiseError c a).script = s.script := rfl
@[simp] theorem State.raiseError_turns (c : ErrCode) (a : Word) : (s.raiseError c a).turns = s.turns := rfl
@[simp] theorem State.raiseError_received (c : ErrCode) (a : Word) : (s.raiseError c a).received = s.received := rfl
@[simp] theorem State.raiseError_draws (c : ErrCode) (a : Word) : (s.raiseError c a).draws = s.draws := rfl

@[simp] theorem State.complete_phase : s.complete.phase = s.phase := rfl
@[simp] theorem State.complete_busy : s.complete.busy = false := rfl
@[simp] theorem State.complete_done : s.complete.done = true := rfl
@[simp] theorem State.complete_err : s.complete.err = s.err := rfl
@[simp] theorem State.complete_overrun : s.complete.overrun = s.overrun := rfl
@[simp] theorem State.complete_errCode : s.complete.errCode = s.errCode := rfl
@[simp] theorem State.complete_errInfo : s.complete.errInfo = s.errInfo := rfl
@[simp] theorem State.complete_errAux : s.complete.errAux = s.errAux := rfl
@[simp] theorem State.complete_pending : s.complete.pending = Config.freePending s.draws := rfl
@[simp] theorem State.complete_len : s.complete.len = s.len := rfl
@[simp] theorem State.complete_nsym : s.complete.nsym = s.nsym := rfl
@[simp] theorem State.complete_nnodes : s.complete.nnodes = s.nnodes := rfl
@[simp] theorem State.complete_root : s.complete.root = s.root := rfl
@[simp] theorem State.complete_totalBits : s.complete.totalBits = s.totalBits := rfl
@[simp] theorem State.complete_ngroups : s.complete.ngroups = s.ngroups := rfl
@[simp] theorem State.complete_result : s.complete.result = s.result := rfl
@[simp] theorem State.complete_maxLen : s.complete.maxLen = s.maxLen := rfl
@[simp] theorem State.complete_maxGroups : s.complete.maxGroups = s.maxGroups := rfl
@[simp] theorem State.complete_text : s.complete.text = s.text := rfl
@[simp] theorem State.complete_freq : s.complete.freq = s.freq := rfl
@[simp] theorem State.complete_node : s.complete.node = s.node := rfl
@[simp] theorem State.complete_tree : s.complete.tree = s.tree := rfl
@[simp] theorem State.complete_codeLen : s.complete.codeLen = s.codeLen := rfl
@[simp] theorem State.complete_codeVal : s.complete.codeVal = s.codeVal := rfl
@[simp] theorem State.complete_group : s.complete.group = s.group := rfl
@[simp] theorem State.complete_outTree : s.complete.outTree = s.outTree := rfl
@[simp] theorem State.complete_outBits : s.complete.outBits = s.outBits := rfl
@[simp] theorem State.complete_frames : s.complete.frames = s.frames := rfl
@[simp] theorem State.complete_walk : s.complete.walk = s.walk := rfl
@[simp] theorem State.complete_accumulator : s.complete.accumulator = s.accumulator := rfl
@[simp] theorem State.complete_scan : s.complete.scan = s.scan := rfl
@[simp] theorem State.complete_script : s.complete.script = s.script := rfl
@[simp] theorem State.complete_turns : s.complete.turns = s.turns := rfl
@[simp] theorem State.complete_received : s.complete.received = s.received := rfl
@[simp] theorem State.complete_draws : s.complete.draws = s.draws + 1 := rfl

@[simp] theorem State.latch_phase (w : Word) : (s.latch w).phase = s.phase := rfl
@[simp] theorem State.latch_busy (w : Word) : (s.latch w).busy = true := rfl
@[simp] theorem State.latch_done (w : Word) : (s.latch w).done = false := rfl
@[simp] theorem State.latch_err (w : Word) : (s.latch w).err = s.err := rfl
@[simp] theorem State.latch_overrun (w : Word) : (s.latch w).overrun = s.overrun := rfl
@[simp] theorem State.latch_errCode (w : Word) : (s.latch w).errCode = s.errCode := rfl
@[simp] theorem State.latch_errInfo (w : Word) : (s.latch w).errInfo = s.errInfo := rfl
@[simp] theorem State.latch_errAux (w : Word) : (s.latch w).errAux = s.errAux := rfl
@[simp] theorem State.latch_pending (w : Word) : (s.latch w).pending = w := rfl
@[simp] theorem State.latch_len (w : Word) : (s.latch w).len = s.len := rfl
@[simp] theorem State.latch_nsym (w : Word) : (s.latch w).nsym = s.nsym := rfl
@[simp] theorem State.latch_nnodes (w : Word) : (s.latch w).nnodes = s.nnodes := rfl
@[simp] theorem State.latch_root (w : Word) : (s.latch w).root = s.root := rfl
@[simp] theorem State.latch_totalBits (w : Word) : (s.latch w).totalBits = s.totalBits := rfl
@[simp] theorem State.latch_ngroups (w : Word) : (s.latch w).ngroups = s.ngroups := rfl
@[simp] theorem State.latch_result (w : Word) : (s.latch w).result = s.result := rfl
@[simp] theorem State.latch_maxLen (w : Word) : (s.latch w).maxLen = s.maxLen := rfl
@[simp] theorem State.latch_maxGroups (w : Word) : (s.latch w).maxGroups = s.maxGroups := rfl
@[simp] theorem State.latch_text (w : Word) : (s.latch w).text = s.text := rfl
@[simp] theorem State.latch_freq (w : Word) : (s.latch w).freq = s.freq := rfl
@[simp] theorem State.latch_node (w : Word) : (s.latch w).node = s.node := rfl
@[simp] theorem State.latch_tree (w : Word) : (s.latch w).tree = s.tree := rfl
@[simp] theorem State.latch_codeLen (w : Word) : (s.latch w).codeLen = s.codeLen := rfl
@[simp] theorem State.latch_codeVal (w : Word) : (s.latch w).codeVal = s.codeVal := rfl
@[simp] theorem State.latch_group (w : Word) : (s.latch w).group = s.group := rfl
@[simp] theorem State.latch_outTree (w : Word) : (s.latch w).outTree = s.outTree := rfl
@[simp] theorem State.latch_outBits (w : Word) : (s.latch w).outBits = s.outBits := rfl
@[simp] theorem State.latch_frames (w : Word) : (s.latch w).frames = s.frames := rfl
@[simp] theorem State.latch_walk (w : Word) : (s.latch w).walk = s.walk := rfl
@[simp] theorem State.latch_accumulator (w : Word) : (s.latch w).accumulator = s.accumulator := rfl
@[simp] theorem State.latch_scan (w : Word) : (s.latch w).scan = s.scan := rfl
@[simp] theorem State.latch_script (w : Word) : (s.latch w).script = s.script := rfl
@[simp] theorem State.latch_turns (w : Word) : (s.latch w).turns = s.turns := rfl
@[simp] theorem State.latch_received (w : Word) : (s.latch w).received = s.received := rfl
@[simp] theorem State.latch_draws (w : Word) : (s.latch w).draws = s.draws := rfl

@[simp] theorem State.setOverrun_phase : s.setOverrun.phase = s.phase := rfl
@[simp] theorem State.setOverrun_busy : s.setOverrun.busy = s.busy := rfl
@[simp] theorem State.setOverrun_done : s.setOverrun.done = s.done := rfl
@[simp] theorem State.setOverrun_err : s.setOverrun.err = s.err := rfl
@[simp] theorem State.setOverrun_overrun : s.setOverrun.overrun = true := rfl
@[simp] theorem State.setOverrun_errCode : s.setOverrun.errCode = s.errCode := rfl
@[simp] theorem State.setOverrun_errInfo : s.setOverrun.errInfo = s.errInfo := rfl
@[simp] theorem State.setOverrun_errAux : s.setOverrun.errAux = s.errAux := rfl
@[simp] theorem State.setOverrun_pending : s.setOverrun.pending = s.pending := rfl
@[simp] theorem State.setOverrun_len : s.setOverrun.len = s.len := rfl
@[simp] theorem State.setOverrun_nsym : s.setOverrun.nsym = s.nsym := rfl
@[simp] theorem State.setOverrun_nnodes : s.setOverrun.nnodes = s.nnodes := rfl
@[simp] theorem State.setOverrun_root : s.setOverrun.root = s.root := rfl
@[simp] theorem State.setOverrun_totalBits : s.setOverrun.totalBits = s.totalBits := rfl
@[simp] theorem State.setOverrun_ngroups : s.setOverrun.ngroups = s.ngroups := rfl
@[simp] theorem State.setOverrun_result : s.setOverrun.result = s.result := rfl
@[simp] theorem State.setOverrun_maxLen : s.setOverrun.maxLen = s.maxLen := rfl
@[simp] theorem State.setOverrun_maxGroups : s.setOverrun.maxGroups = s.maxGroups := rfl
@[simp] theorem State.setOverrun_text : s.setOverrun.text = s.text := rfl
@[simp] theorem State.setOverrun_freq : s.setOverrun.freq = s.freq := rfl
@[simp] theorem State.setOverrun_node : s.setOverrun.node = s.node := rfl
@[simp] theorem State.setOverrun_tree : s.setOverrun.tree = s.tree := rfl
@[simp] theorem State.setOverrun_codeLen : s.setOverrun.codeLen = s.codeLen := rfl
@[simp] theorem State.setOverrun_codeVal : s.setOverrun.codeVal = s.codeVal := rfl
@[simp] theorem State.setOverrun_group : s.setOverrun.group = s.group := rfl
@[simp] theorem State.setOverrun_outTree : s.setOverrun.outTree = s.outTree := rfl
@[simp] theorem State.setOverrun_outBits : s.setOverrun.outBits = s.outBits := rfl
@[simp] theorem State.setOverrun_frames : s.setOverrun.frames = s.frames := rfl
@[simp] theorem State.setOverrun_walk : s.setOverrun.walk = s.walk := rfl
@[simp] theorem State.setOverrun_accumulator : s.setOverrun.accumulator = s.accumulator := rfl
@[simp] theorem State.setOverrun_scan : s.setOverrun.scan = s.scan := rfl
@[simp] theorem State.setOverrun_script : s.setOverrun.script = s.script := rfl
@[simp] theorem State.setOverrun_turns : s.setOverrun.turns = s.turns := rfl
@[simp] theorem State.setOverrun_received : s.setOverrun.received = s.received := rfl
@[simp] theorem State.setOverrun_draws : s.setOverrun.draws = s.draws := rfl

@[simp] theorem State.setPhase_phase (p : Phase) : (s.setPhase p).phase = p := rfl
@[simp] theorem State.setPhase_busy (p : Phase) : (s.setPhase p).busy = s.busy := rfl
@[simp] theorem State.setPhase_done (p : Phase) : (s.setPhase p).done = s.done := rfl
@[simp] theorem State.setPhase_err (p : Phase) : (s.setPhase p).err = s.err := rfl
@[simp] theorem State.setPhase_overrun (p : Phase) : (s.setPhase p).overrun = s.overrun := rfl
@[simp] theorem State.setPhase_errCode (p : Phase) : (s.setPhase p).errCode = s.errCode := rfl
@[simp] theorem State.setPhase_errInfo (p : Phase) : (s.setPhase p).errInfo = s.errInfo := rfl
@[simp] theorem State.setPhase_errAux (p : Phase) : (s.setPhase p).errAux = s.errAux := rfl
@[simp] theorem State.setPhase_pending (p : Phase) : (s.setPhase p).pending = s.pending := rfl
@[simp] theorem State.setPhase_len (p : Phase) : (s.setPhase p).len = s.len := rfl
@[simp] theorem State.setPhase_nsym (p : Phase) : (s.setPhase p).nsym = s.nsym := rfl
@[simp] theorem State.setPhase_nnodes (p : Phase) : (s.setPhase p).nnodes = s.nnodes := rfl
@[simp] theorem State.setPhase_root (p : Phase) : (s.setPhase p).root = s.root := rfl
@[simp] theorem State.setPhase_totalBits (p : Phase) : (s.setPhase p).totalBits = s.totalBits := rfl
@[simp] theorem State.setPhase_ngroups (p : Phase) : (s.setPhase p).ngroups = s.ngroups := rfl
@[simp] theorem State.setPhase_result (p : Phase) : (s.setPhase p).result = s.result := rfl
@[simp] theorem State.setPhase_maxLen (p : Phase) : (s.setPhase p).maxLen = s.maxLen := rfl
@[simp] theorem State.setPhase_maxGroups (p : Phase) : (s.setPhase p).maxGroups = s.maxGroups := rfl
@[simp] theorem State.setPhase_text (p : Phase) : (s.setPhase p).text = s.text := rfl
@[simp] theorem State.setPhase_freq (p : Phase) : (s.setPhase p).freq = s.freq := rfl
@[simp] theorem State.setPhase_node (p : Phase) : (s.setPhase p).node = s.node := rfl
@[simp] theorem State.setPhase_tree (p : Phase) : (s.setPhase p).tree = s.tree := rfl
@[simp] theorem State.setPhase_codeLen (p : Phase) : (s.setPhase p).codeLen = s.codeLen := rfl
@[simp] theorem State.setPhase_codeVal (p : Phase) : (s.setPhase p).codeVal = s.codeVal := rfl
@[simp] theorem State.setPhase_group (p : Phase) : (s.setPhase p).group = s.group := rfl
@[simp] theorem State.setPhase_outTree (p : Phase) : (s.setPhase p).outTree = s.outTree := rfl
@[simp] theorem State.setPhase_outBits (p : Phase) : (s.setPhase p).outBits = s.outBits := rfl
@[simp] theorem State.setPhase_frames (p : Phase) : (s.setPhase p).frames = s.frames := rfl
@[simp] theorem State.setPhase_walk (p : Phase) : (s.setPhase p).walk = s.walk := rfl
@[simp] theorem State.setPhase_accumulator (p : Phase) : (s.setPhase p).accumulator = s.accumulator := rfl
@[simp] theorem State.setPhase_scan (p : Phase) : (s.setPhase p).scan = s.scan := rfl
@[simp] theorem State.setPhase_script (p : Phase) : (s.setPhase p).script = s.script := rfl
@[simp] theorem State.setPhase_turns (p : Phase) : (s.setPhase p).turns = s.turns := rfl
@[simp] theorem State.setPhase_received (p : Phase) : (s.setPhase p).received = s.received := rfl
@[simp] theorem State.setPhase_draws (p : Phase) : (s.setPhase p).draws = s.draws := rfl

@[simp] theorem State.cleared_phase : s.cleared.phase = .empty := rfl
@[simp] theorem State.cleared_busy : s.cleared.busy = false := rfl
@[simp] theorem State.cleared_done : s.cleared.done = true := rfl
@[simp] theorem State.cleared_err : s.cleared.err = false := rfl
@[simp] theorem State.cleared_overrun : s.cleared.overrun = false := rfl
@[simp] theorem State.cleared_errCode : s.cleared.errCode = .none := rfl
@[simp] theorem State.cleared_errInfo : s.cleared.errInfo = 0 := rfl
@[simp] theorem State.cleared_errAux : s.cleared.errAux = 0 := rfl
@[simp] theorem State.cleared_pending : s.cleared.pending = Config.freePending s.draws := rfl
@[simp] theorem State.cleared_len : s.cleared.len = 0 := rfl
@[simp] theorem State.cleared_nsym : s.cleared.nsym = 0 := rfl
@[simp] theorem State.cleared_nnodes : s.cleared.nnodes = 0 := rfl
@[simp] theorem State.cleared_root : s.cleared.root = 0 := rfl
@[simp] theorem State.cleared_totalBits : s.cleared.totalBits = 0 := rfl
@[simp] theorem State.cleared_ngroups : s.cleared.ngroups = 0 := rfl
@[simp] theorem State.cleared_result : s.cleared.result = 0 := rfl
@[simp] theorem State.cleared_maxLen : s.cleared.maxLen = s.maxLen := rfl
@[simp] theorem State.cleared_maxGroups : s.cleared.maxGroups = s.maxGroups := rfl
@[simp] theorem State.cleared_text : s.cleared.text = [] := rfl
@[simp] theorem State.cleared_freq : s.cleared.freq = [] := rfl
@[simp] theorem State.cleared_node : s.cleared.node = [] := rfl
@[simp] theorem State.cleared_tree : s.cleared.tree = [] := rfl
@[simp] theorem State.cleared_codeLen : s.cleared.codeLen = [] := rfl
@[simp] theorem State.cleared_codeVal : s.cleared.codeVal = [] := rfl
@[simp] theorem State.cleared_group : s.cleared.group = [] := rfl
@[simp] theorem State.cleared_outTree : s.cleared.outTree = [] := rfl
@[simp] theorem State.cleared_outBits : s.cleared.outBits = [] := rfl
@[simp] theorem State.cleared_frames : s.cleared.frames = [] := rfl
@[simp] theorem State.cleared_walk : s.cleared.walk = [] := rfl
@[simp] theorem State.cleared_accumulator : s.cleared.accumulator = [] := rfl
@[simp] theorem State.cleared_scan : s.cleared.scan = ⟨none, none⟩ := rfl
@[simp] theorem State.cleared_script : s.cleared.script = s.script := rfl
@[simp] theorem State.cleared_turns : s.cleared.turns = s.turns := rfl
@[simp] theorem State.cleared_received : s.cleared.received = s.received := rfl
@[simp] theorem State.cleared_draws : s.cleared.draws = s.draws + 1 := rfl

@[simp] theorem State.receive_phase (w : Word) : (s.receive w).phase = s.phase := rfl
@[simp] theorem State.receive_busy (w : Word) : (s.receive w).busy = s.busy := rfl
@[simp] theorem State.receive_done (w : Word) : (s.receive w).done = s.done := rfl
@[simp] theorem State.receive_err (w : Word) : (s.receive w).err = s.err := rfl
@[simp] theorem State.receive_overrun (w : Word) : (s.receive w).overrun = s.overrun := rfl
@[simp] theorem State.receive_errCode (w : Word) : (s.receive w).errCode = s.errCode := rfl
@[simp] theorem State.receive_errInfo (w : Word) : (s.receive w).errInfo = s.errInfo := rfl
@[simp] theorem State.receive_errAux (w : Word) : (s.receive w).errAux = s.errAux := rfl
@[simp] theorem State.receive_pending (w : Word) : (s.receive w).pending = s.pending := rfl
@[simp] theorem State.receive_len (w : Word) : (s.receive w).len = s.len := rfl
@[simp] theorem State.receive_nsym (w : Word) : (s.receive w).nsym = s.nsym := rfl
@[simp] theorem State.receive_nnodes (w : Word) : (s.receive w).nnodes = s.nnodes := rfl
@[simp] theorem State.receive_root (w : Word) : (s.receive w).root = s.root := rfl
@[simp] theorem State.receive_totalBits (w : Word) : (s.receive w).totalBits = s.totalBits := rfl
@[simp] theorem State.receive_ngroups (w : Word) : (s.receive w).ngroups = s.ngroups := rfl
@[simp] theorem State.receive_result (w : Word) : (s.receive w).result = s.result := rfl
@[simp] theorem State.receive_maxLen (w : Word) : (s.receive w).maxLen = s.maxLen := rfl
@[simp] theorem State.receive_maxGroups (w : Word) : (s.receive w).maxGroups = s.maxGroups := rfl
@[simp] theorem State.receive_text (w : Word) : (s.receive w).text = s.text := rfl
@[simp] theorem State.receive_freq (w : Word) : (s.receive w).freq = s.freq := rfl
@[simp] theorem State.receive_node (w : Word) : (s.receive w).node = s.node := rfl
@[simp] theorem State.receive_tree (w : Word) : (s.receive w).tree = s.tree := rfl
@[simp] theorem State.receive_codeLen (w : Word) : (s.receive w).codeLen = s.codeLen := rfl
@[simp] theorem State.receive_codeVal (w : Word) : (s.receive w).codeVal = s.codeVal := rfl
@[simp] theorem State.receive_group (w : Word) : (s.receive w).group = s.group := rfl
@[simp] theorem State.receive_outTree (w : Word) : (s.receive w).outTree = s.outTree := rfl
@[simp] theorem State.receive_outBits (w : Word) : (s.receive w).outBits = s.outBits := rfl
@[simp] theorem State.receive_frames (w : Word) : (s.receive w).frames = s.frames := rfl
@[simp] theorem State.receive_walk (w : Word) : (s.receive w).walk = s.walk := rfl
@[simp] theorem State.receive_accumulator (w : Word) : (s.receive w).accumulator = s.accumulator := rfl
@[simp] theorem State.receive_scan (w : Word) : (s.receive w).scan = s.scan := rfl
@[simp] theorem State.receive_script (w : Word) : (s.receive w).script = s.script := rfl
@[simp] theorem State.receive_turns (w : Word) : (s.receive w).turns = s.turns := rfl
@[simp] theorem State.receive_received (w : Word) : (s.receive w).received = w :: s.received := rfl
@[simp] theorem State.receive_draws (w : Word) : (s.receive w).draws = s.draws := rfl

@[simp] theorem State.receiveFree_phase : s.receiveFree.phase = s.phase := rfl
@[simp] theorem State.receiveFree_busy : s.receiveFree.busy = s.busy := rfl
@[simp] theorem State.receiveFree_done : s.receiveFree.done = s.done := rfl
@[simp] theorem State.receiveFree_err : s.receiveFree.err = s.err := rfl
@[simp] theorem State.receiveFree_overrun : s.receiveFree.overrun = s.overrun := rfl
@[simp] theorem State.receiveFree_errCode : s.receiveFree.errCode = s.errCode := rfl
@[simp] theorem State.receiveFree_errInfo : s.receiveFree.errInfo = s.errInfo := rfl
@[simp] theorem State.receiveFree_errAux : s.receiveFree.errAux = s.errAux := rfl
@[simp] theorem State.receiveFree_pending : s.receiveFree.pending = s.pending := rfl
@[simp] theorem State.receiveFree_len : s.receiveFree.len = s.len := rfl
@[simp] theorem State.receiveFree_nsym : s.receiveFree.nsym = s.nsym := rfl
@[simp] theorem State.receiveFree_nnodes : s.receiveFree.nnodes = s.nnodes := rfl
@[simp] theorem State.receiveFree_root : s.receiveFree.root = s.root := rfl
@[simp] theorem State.receiveFree_totalBits : s.receiveFree.totalBits = s.totalBits := rfl
@[simp] theorem State.receiveFree_ngroups : s.receiveFree.ngroups = s.ngroups := rfl
@[simp] theorem State.receiveFree_result : s.receiveFree.result = s.result := rfl
@[simp] theorem State.receiveFree_maxLen : s.receiveFree.maxLen = s.maxLen := rfl
@[simp] theorem State.receiveFree_maxGroups : s.receiveFree.maxGroups = s.maxGroups := rfl
@[simp] theorem State.receiveFree_text : s.receiveFree.text = s.text := rfl
@[simp] theorem State.receiveFree_freq : s.receiveFree.freq = s.freq := rfl
@[simp] theorem State.receiveFree_node : s.receiveFree.node = s.node := rfl
@[simp] theorem State.receiveFree_tree : s.receiveFree.tree = s.tree := rfl
@[simp] theorem State.receiveFree_codeLen : s.receiveFree.codeLen = s.codeLen := rfl
@[simp] theorem State.receiveFree_codeVal : s.receiveFree.codeVal = s.codeVal := rfl
@[simp] theorem State.receiveFree_group : s.receiveFree.group = s.group := rfl
@[simp] theorem State.receiveFree_outTree : s.receiveFree.outTree = s.outTree := rfl
@[simp] theorem State.receiveFree_outBits : s.receiveFree.outBits = s.outBits := rfl
@[simp] theorem State.receiveFree_frames : s.receiveFree.frames = s.frames := rfl
@[simp] theorem State.receiveFree_walk : s.receiveFree.walk = s.walk := rfl
@[simp] theorem State.receiveFree_accumulator : s.receiveFree.accumulator = s.accumulator := rfl
@[simp] theorem State.receiveFree_scan : s.receiveFree.scan = s.scan := rfl
@[simp] theorem State.receiveFree_script : s.receiveFree.script = s.script := rfl
@[simp] theorem State.receiveFree_turns : s.receiveFree.turns = s.turns := rfl
@[simp] theorem State.receiveFree_received : s.receiveFree.received = Config.freeRead s.draws :: s.received := rfl
@[simp] theorem State.receiveFree_draws : s.receiveFree.draws = s.draws + 1 := rfl

@[simp] theorem State.resetWith_phase (m g : Nat) : (State.resetWith m g).phase = .empty := rfl
@[simp] theorem State.resetWith_busy (m g : Nat) : (State.resetWith m g).busy = false := rfl
@[simp] theorem State.resetWith_done (m g : Nat) : (State.resetWith m g).done = false := rfl
@[simp] theorem State.resetWith_err (m g : Nat) : (State.resetWith m g).err = false := rfl
@[simp] theorem State.resetWith_overrun (m g : Nat) : (State.resetWith m g).overrun = false := rfl
@[simp] theorem State.resetWith_errCode (m g : Nat) : (State.resetWith m g).errCode = .none := rfl
@[simp] theorem State.resetWith_errInfo (m g : Nat) : (State.resetWith m g).errInfo = 0 := rfl
@[simp] theorem State.resetWith_errAux (m g : Nat) : (State.resetWith m g).errAux = 0 := rfl
@[simp] theorem State.resetWith_pending (m g : Nat) : (State.resetWith m g).pending = 0 := rfl
@[simp] theorem State.resetWith_len (m g : Nat) : (State.resetWith m g).len = 0 := rfl
@[simp] theorem State.resetWith_nsym (m g : Nat) : (State.resetWith m g).nsym = 0 := rfl
@[simp] theorem State.resetWith_nnodes (m g : Nat) : (State.resetWith m g).nnodes = 0 := rfl
@[simp] theorem State.resetWith_root (m g : Nat) : (State.resetWith m g).root = 0 := rfl
@[simp] theorem State.resetWith_totalBits (m g : Nat) : (State.resetWith m g).totalBits = 0 := rfl
@[simp] theorem State.resetWith_ngroups (m g : Nat) : (State.resetWith m g).ngroups = 0 := rfl
@[simp] theorem State.resetWith_result (m g : Nat) : (State.resetWith m g).result = 0 := rfl
@[simp] theorem State.resetWith_text (m g : Nat) : (State.resetWith m g).text = [] := rfl
@[simp] theorem State.resetWith_freq (m g : Nat) : (State.resetWith m g).freq = [] := rfl
@[simp] theorem State.resetWith_node (m g : Nat) : (State.resetWith m g).node = [] := rfl
@[simp] theorem State.resetWith_tree (m g : Nat) : (State.resetWith m g).tree = [] := rfl
@[simp] theorem State.resetWith_codeLen (m g : Nat) : (State.resetWith m g).codeLen = [] := rfl
@[simp] theorem State.resetWith_codeVal (m g : Nat) : (State.resetWith m g).codeVal = [] := rfl
@[simp] theorem State.resetWith_group (m g : Nat) : (State.resetWith m g).group = [] := rfl
@[simp] theorem State.resetWith_outTree (m g : Nat) : (State.resetWith m g).outTree = [] := rfl
@[simp] theorem State.resetWith_outBits (m g : Nat) : (State.resetWith m g).outBits = [] := rfl
@[simp] theorem State.resetWith_frames (m g : Nat) : (State.resetWith m g).frames = [] := rfl
@[simp] theorem State.resetWith_walk (m g : Nat) : (State.resetWith m g).walk = [] := rfl
@[simp] theorem State.resetWith_accumulator (m g : Nat) : (State.resetWith m g).accumulator = [] := rfl
@[simp] theorem State.resetWith_scan (m g : Nat) : (State.resetWith m g).scan = ⟨none, none⟩ := rfl
@[simp] theorem State.resetWith_script (m g : Nat) : (State.resetWith m g).script = [] := rfl
@[simp] theorem State.resetWith_turns (m g : Nat) : (State.resetWith m g).turns = [] := rfl
@[simp] theorem State.resetWith_received (m g : Nat) : (State.resetWith m g).received = [] := rfl
@[simp] theorem State.resetWith_draws (m g : Nat) : (State.resetWith m g).draws = 0 := rfl
@[simp] theorem State.resetWith_maxLen (m g : Nat) : (State.resetWith m g).maxLen = m := rfl
@[simp] theorem State.resetWith_maxGroups (m g : Nat) : (State.resetWith m g).maxGroups = g := rfl

end Sys2Proof.Machine
end

