-- ==== Sys2Proof/Laws/Flags.lean ====
section
/-! SUPPORT. The ranks of the phases and the phase each command leaves. -/

namespace Sys2Proof.Machine

@[simp] theorem Phase.rank_empty : Phase.empty.rank = 0 := rfl
@[simp] theorem Phase.rank_loaded : Phase.loaded.rank = 1 := rfl
@[simp] theorem Phase.rank_counted : Phase.counted.rank = 2 := rfl
@[simp] theorem Phase.rank_built : Phase.built.rank = 3 := rfl
@[simp] theorem Phase.rank_serialized : Phase.serialized.rank = 4 := rfl
@[simp] theorem Phase.rank_derived : Phase.derived.rank = 5 := rfl
@[simp] theorem Phase.rank_packed : Phase.packed.rank = 6 := rfl
@[simp] theorem Phase.rank_transcoded : Phase.transcoded.rank = 7 := rfl

variable (s : State)

@[simp] theorem State.advance_nop : s.advance .nop = s := rfl
@[simp] theorem State.advance_clear : s.advance .clear = s.setPhase .empty := rfl
@[simp] theorem State.advance_push (sym : Symbol) : s.advance (.push sym) = s.setPhase .loaded := rfl
@[simp] theorem State.advance_count : s.advance .count = s.setPhase .counted := rfl
@[simp] theorem State.advance_build : s.advance .build = s.setPhase .built := rfl
@[simp] theorem State.advance_serialize : s.advance .serialize = s.setPhase .serialized := rfl
@[simp] theorem State.advance_derive : s.advance .derive = s.setPhase .derived := rfl
@[simp] theorem State.advance_pack : s.advance .pack = s.setPhase .packed := rfl
@[simp] theorem State.advance_transcode : s.advance .transcode = s.setPhase .transcoded := rfl
@[simp] theorem State.advance_encode : s.advance .encode = s.setPhase .transcoded := rfl
@[simp] theorem State.advance_xlate (v : Group) : s.advance (.xlate v) = s := rfl
@[simp] theorem State.advance_unxlate (b : Symbol) : s.advance (.unxlate b) = s := rfl

/-- A stage's phase in, read off its check (30_encoding.md R84). -/
theorem phaseIn_loadable {p : Phase} (h : (p == .empty || p == .loaded) = true) : p = .empty ∨ p = .loaded := by
  cases p <;> simp at h ⊢

theorem rank_of_loadable {p : Phase} (h : p = .empty ∨ p = .loaded) : p.rank < 2 := by
  rcases h with rfl | rfl <;> simp

end Sys2Proof.Machine
end

