-- ==== Sys2Proof/Laws/Frequency.lean ====
section
/-! SUPPORT. The frequency table and the leaves made of it: which symbols have a leaf, in what order, and
with what weights. -/

namespace Sys2Proof.Machine

theorem frequencyTable_length (text : List Symbol) : (frequencyTable text).length = 256 := by
  simp [frequencyTable, Config.symbolCount]

/-- FREQ[v] is the count of v in the text (41_frequency.md R121). -/
theorem frequencyTable_getElem? (text : List Symbol) (v : Nat) (h : v < 256) :
    (frequencyTable text)[v]? = some (BitVec.ofNat 32 (text.count (BitVec.ofNat 8 v))) := by
  simp [frequencyTable, Config.symbolCount, h]

theorem sum_indicator (symbols : List Symbol) (s : Symbol) :
    (symbols.map (fun v => if v = s then 1 else 0)).sum = symbols.count s := by
  induction symbols with
  | nil => rfl
  | cons v vs ih =>
    rw [List.map_cons, List.sum_cons, ih, List.count_cons]
    by_cases h : v = s <;> simp [h]; omega

/-- Over a list that holds every symbol once, the counts add up to the text's length. -/
theorem sum_counts_of_nodup (text symbols : List Symbol) (hn : symbols.Nodup) (hall : ∀ v, v ∈ symbols) :
    (symbols.map (fun v => text.count v)).sum = text.length := by
  induction text with
  | nil => simp
  | cons s text ih =>
    have e : ∀ v, (s :: text).count v = text.count v + (if v = s then 1 else 0) := by
      intro v
      rw [List.count_cons]
      by_cases h : v = s
      · simp [h]
      · have : ¬ s = v := fun h' => h h'.symm
        simp [h, this]
    simp only [e, List.sum_map_add, ih, List.length_cons]
    rw [sum_indicator, List.count_eq_one_of_mem hn (hall s)]

theorem symbols_nodup : ((List.range 256).map (BitVec.ofNat 8)).Nodup := by
  apply List.Nodup.map_on _ List.nodup_range
  intro a ha b hb hab
  have ha := List.mem_range.mp ha
  have hb := List.mem_range.mp hb
  have := congrArg BitVec.toNat hab
  simp only [BitVec.toNat_ofNat] at this
  omega

theorem mem_symbols (v : Symbol) : v ∈ (List.range 256).map (BitVec.ofNat 8) :=
  List.mem_map.mpr ⟨v.toNat, List.mem_range.mpr v.isLt, BitVec.eq_of_toNat_eq (by
    rw [BitVec.toNat_ofNat]; exact Nat.mod_eq_of_lt v.isLt)⟩

/-- The counts of all symbols add up to the text's length (41_frequency.md R121). -/
theorem sum_counts (text : List Symbol) :
    ((List.range 256).map (fun v => text.count (BitVec.ofNat 8 v))).sum = text.length := by
  rw [← sum_counts_of_nodup text _ symbols_nodup mem_symbols, List.map_map]
  rfl

theorem frequencyTable_sum (text : List Symbol) (h : text.length < 2 ^ 32) :
    ((frequencyTable text).map BitVec.toNat).sum = text.length := by
  rw [← sum_counts text, frequencyTable, List.map_map]
  congr 1
  apply List.map_congr_left
  intro v _
  have := List.count_le_length (a := (BitVec.ofNat 8 v : Symbol)) (l := text)
  simp only [Function.comp, BitVec.toNat_ofNat]
  exact Nat.mod_eq_of_lt (by omega)

/-! ## The leaves -/

theorem initLeaves_leaf (freq : List Word) : ∀ n ∈ initLeaves freq, n.kind = .leaf ∧ n.live = true := by
  intro n hn
  obtain ⟨c, -, rfl⟩ := List.mem_map.mp hn
  exact ⟨rfl, rfl⟩

theorem initLeaves_length (freq : List Word) : (initLeaves freq).length = distinctCount freq := by
  have : ∀ i, ((freq.zipIdx i).filter (fun c => decide (0 < c.1.toNat))).length =
      freq.countP (fun c => decide (0 < c.toNat)) := by
    intro i
    induction freq generalizing i with
    | nil => rfl
    | cons f fs ih =>
      simp only [List.zipIdx_cons, List.filter_cons, List.countP_cons]
      split <;> simp_all
  simpa [initLeaves, distinctCount] using this 0

theorem initLeaves_weights (freq : List Word) :
    ((initLeaves freq).map (fun n => n.weight.toNat)).sum = (freq.map BitVec.toNat).sum := by
  have : ∀ i, (((freq.zipIdx i).filter (fun c => decide (0 < c.1.toNat))).map (fun c => c.1.toNat)).sum =
      (freq.map BitVec.toNat).sum := by
    intro i
    induction freq generalizing i with
    | nil => rfl
    | cons f fs ih =>
      simp only [List.zipIdx_cons, List.filter_cons, List.map_cons, List.sum_cons]
      split
      · simp only [List.map_cons, List.sum_cons, ih]
      · rename_i h
        have h0 : f.toNat = 0 := by simpa using h
        rw [ih, h0]; simp
  rw [← this 0, initLeaves, List.map_map]
  rfl

theorem initLeaves_symbols (freq : List Word) :
    (initLeaves freq).map Node.sym =
      ((freq.zipIdx.filter (fun c => decide (0 < c.1.toNat))).map Prod.snd).map (BitVec.ofNat 8) := by
  rw [initLeaves, List.map_map, List.map_map]
  rfl

theorem zipIdx_filter_sublist (freq : List Word) (p : Word × Nat → Bool) :
    ((freq.zipIdx.filter p).map Prod.snd).Sublist (List.range freq.length) := by
  have h := (List.filter_sublist (l := freq.zipIdx) (p := p)).map Prod.snd
  rwa [List.zipIdx_map_snd, ← List.range_eq_range'] at h

/-- The leaves' symbols are distinct. -/
theorem initLeaves_nodup (freq : List Word) (h : freq.length ≤ 256) : ((initLeaves freq).map Node.sym).Nodup := by
  rw [initLeaves_symbols]
  have hsub := zipIdx_filter_sublist freq (fun c => decide (0 < c.1.toNat))
  apply List.Nodup.map_on _ (hsub.nodup List.nodup_range)
  intro a ha b hb hab
  have ha' := List.mem_range.mp (hsub.subset ha)
  have hb' := List.mem_range.mp (hsub.subset hb)
  have := congrArg BitVec.toNat hab
  simp only [BitVec.toNat_ofNat] at this
  omega

/-- A symbol has a leaf exactly where its count is not 0 (42_tree_builder.md R141). -/
theorem mem_initLeaves_symbols (freq : List Word) (h : freq.length = 256) (v : Symbol) :
    v ∈ (initLeaves freq).map Node.sym ↔ 0 < (freq.getD v.toNat 0).toNat := by
  have hv : v.toNat < freq.length := by rw [h]; exact v.isLt
  rw [initLeaves_symbols]
  simp only [List.mem_map, List.mem_filter, decide_eq_true_eq]
  constructor
  · rintro ⟨j, ⟨c, ⟨hc, hpos⟩, rfl⟩, rfl⟩
    have hc' := List.mem_zipIdx hc
    have hlt : c.2 < 256 := by have := hc'.2.1; omega
    have e : (BitVec.ofNat 8 c.2 : Symbol).toNat = c.2 := by simp; omega
    have hget : freq[c.2]? = some c.1 := by
      rw [List.getElem?_eq_getElem (by omega), hc'.2.2]; simp
    rw [e, List.getD_eq_getElem?_getD, hget]
    exact hpos
  · intro hpos
    refine ⟨v.toNat, ⟨(freq[v.toNat], v.toNat), ⟨?_, ?_⟩, rfl⟩, by simp⟩
    · exact List.mk_mem_zipIdx_iff_getElem?.mpr (List.getElem?_eq_getElem hv)
    · simpa [List.getD_eq_getElem?_getD, hv] using hpos

theorem distinctCount_le (freq : List Word) : distinctCount freq ≤ freq.length := List.countP_le_length

end Sys2Proof.Machine
end

