-- ==== Sys2Proof/Laws/Memory.lean ====
section
/-! SUPPORT. What the memory operations do: the element read after a write, and that every write keeps
the canonical form, the capacity and what is listed. -/

namespace Sys2Proof.Machine

variable {α : Type}

@[simp] theorem Memory.read?_nil (i : Nat) : Memory.read? ([] : Memory α) i = none := rfl

theorem Memory.read?_cons (k : Nat) (v : α) (rest : Memory α) (i : Nat) :
    Memory.read? ((k, v) :: rest) i = if k = i then some v else Memory.read? rest i := rfl

theorem Memory.read?_write (m : Memory α) (i : Nat) (v : α) (j : Nat) :
    (m.write i v).read? j = if i = j then some v else m.read? j := by
  induction m with
  | nil => simp [Memory.write, Memory.read?]
  | cons c rest ih =>
    obtain ⟨k, u⟩ := c
    by_cases h1 : i < k
    · simp [Memory.write, h1, Memory.read?]
    · by_cases h2 : i = k
      · subst h2; by_cases h3 : i = j <;> simp [Memory.write, Memory.read?, h3]
      · simp only [Memory.write, h1, h2, if_false, Memory.read?, ih]
        by_cases h3 : k = j
        · have : i ≠ j := by omega
          simp [h3, this]
        · simp [h3]

theorem Memory.mem_write {m : Memory α} {i : Nat} {v : α} {c : Nat × α} (h : c ∈ m.write i v) :
    c = (i, v) ∨ c ∈ m := by
  induction m with
  | nil => simpa [Memory.write] using h
  | cons d rest ih =>
    obtain ⟨k, u⟩ := d
    simp only [Memory.write] at h
    split at h
    · simpa using h
    · split at h
      · simp only [List.mem_cons] at h ⊢; tauto
      · simp only [List.mem_cons] at h ⊢
        rcases h with h | h
        · tauto
        · rcases ih h with h | h <;> tauto

theorem Memory.write_wf {m : Memory α} (h : m.wf) (i : Nat) (v : α) : (m.write i v).wf := by
  induction m with
  | nil => simp [Memory.write, Memory.wf]
  | cons d rest ih =>
    obtain ⟨k, u⟩ := d
    have hk := (List.pairwise_cons.mp h).1
    have hr := (List.pairwise_cons.mp h).2
    simp only [Memory.write]
    split
    · rename_i hlt
      refine List.pairwise_cons.mpr ⟨?_, h⟩
      intro c hc
      rcases List.mem_cons.mp hc with rfl | hc
      · exact hlt
      · exact Nat.lt_trans hlt (hk c hc)
    · split
      · rename_i heq; subst heq
        exact List.pairwise_cons.mpr ⟨hk, hr⟩
      · refine List.pairwise_cons.mpr ⟨?_, ih hr⟩
        intro c hc
        rcases Memory.mem_write hc with rfl | hc
        · show k < i; omega
        · exact hk c hc

theorem Memory.write_within {m : Memory α} {n i : Nat} (h : m.within n) (hi : i < n) (v : α) :
    (m.write i v).within n := by
  intro c hc
  rcases Memory.mem_write hc with rfl | hc
  · exact hi
  · exact h c hc

theorem Memory.read?_listing (vals : List α) (i j : Nat) :
    Memory.read? (Memory.listing i vals) j = if i ≤ j then vals[j - i]? else none := by
  induction vals generalizing i with
  | nil => simp [Memory.listing]
  | cons v vs ih =>
    simp only [Memory.listing, Memory.read?, ih]
    by_cases h : i = j
    · simp [h]
    · by_cases h2 : i ≤ j
      · have h3 : i + 1 ≤ j := by omega
        have h4 : j - i = (j - (i + 1)) + 1 := by omega
        simp [h, h2, h3, h4]
      · have h3 : ¬ i + 1 ≤ j := by omega
        simp [h, h2, h3]

theorem Memory.mem_listing {vals : List α} {i : Nat} {c : Nat × α} (h : c ∈ Memory.listing i vals) :
    i ≤ c.1 ∧ c.1 < i + vals.length := by
  induction vals generalizing i with
  | nil => simp [Memory.listing] at h
  | cons v vs ih =>
    simp only [Memory.listing, List.mem_cons] at h
    rcases h with rfl | h
    · simp
    · have := ih h
      simp only [List.length_cons]; omega

theorem Memory.read?_append (a b : Memory α) (j : Nat) :
    Memory.read? (a ++ b) j = (Memory.read? a j).or (Memory.read? b j) := by
  induction a with
  | nil => simp
  | cons c rest ih =>
    obtain ⟨k, u⟩ := c
    simp only [List.cons_append, Memory.read?]
    split
    · simp
    · exact ih

theorem Memory.read?_filter (m : Memory α) (p : Nat → Bool) (j : Nat) :
    Memory.read? (m.filter (fun c => p c.1)) j = if p j then m.read? j else none := by
  induction m with
  | nil => simp
  | cons c rest ih =>
    obtain ⟨k, u⟩ := c
    by_cases hk : p k
    · simp only [List.filter_cons, hk, if_true, Memory.read?, ih]
      by_cases h : k = j
      · subst h; simp [hk]
      · simp [h]
    · simp only [List.filter_cons, hk, Memory.read?]
      by_cases h : k = j
      · subst h; simpa [hk] using ih
      · simpa [h] using ih

theorem Memory.read?_writeRun (m : Memory α) (vals : List α) (j : Nat) :
    (m.writeRun vals).read? j = if j < vals.length then vals[j]? else m.read? j := by
  have h := Memory.read?_filter m (fun k => decide (vals.length ≤ k)) j
  simp only [Memory.writeRun, Memory.read?_append, Memory.read?_listing, h]
  by_cases hj : j < vals.length
  · have : ¬ vals.length ≤ j := by omega
    simp [hj]
  · have h2 : vals.length ≤ j := by omega
    simp [hj, h2]

theorem Memory.listing_wf (vals : List α) (i : Nat) : (Memory.listing i vals).wf := by
  induction vals generalizing i with
  | nil => simp [Memory.listing, Memory.wf]
  | cons v vs ih =>
    refine List.pairwise_cons.mpr ⟨?_, ih (i + 1)⟩
    intro c hc
    have := (Memory.mem_listing hc).1
    show i < c.1
    omega

theorem Memory.writeRun_wf {m : Memory α} (h : m.wf) (vals : List α) : (m.writeRun vals).wf := by
  refine List.pairwise_append.mpr ⟨Memory.listing_wf vals 0, List.Pairwise.filter _ h, ?_⟩
  intro a ha b hb
  have h1 := Memory.mem_listing ha
  have h2 := of_decide_eq_true (List.mem_filter.mp hb).2
  omega

theorem Memory.writeRun_within {m : Memory α} {n : Nat} (h : m.within n) {vals : List α}
    (hv : vals.length ≤ n) : (m.writeRun vals).within n := by
  intro c hc
  rcases List.mem_append.mp hc with hc | hc
  · have := (Memory.mem_listing hc).2; omega
  · exact h c (List.mem_filter.mp hc).1

theorem Memory.writeRun_listedTo (m : Memory α) (vals : List α) :
    (m.writeRun vals).listedTo vals.length := by
  intro i hi
  simp [Memory.read?_writeRun, hi]

theorem Memory.write_listedTo {m : Memory α} {n : Nat} (h : m.listedTo n) (v : α) :
    (m.write n v).listedTo (n + 1) := by
  intro i hi
  rw [Memory.read?_write]
  by_cases hn : n = i
  · simp [hn]
  · have : i < n := by omega
    simpa [hn] using h i this

/-- The list of a run of listed elements, read back. -/
theorem Memory.map_getD_writeRun (m : Memory α) (vals : List α) (d : Nat → α) :
    (List.range vals.length).map (fun i => ((m.writeRun vals).read? i).getD (d i)) = vals := by
  apply List.ext_getElem
  · simp
  · intro i h1 h2
    simp only [List.getElem_map, List.getElem_range]
    rw [Memory.read?_writeRun]
    simp [h2]

theorem listedRun_writeRun (m : Memory Symbol) (vals : List Symbol) :
    listedRun (m.writeRun vals) vals.length = vals := by
  have : ∀ n, n ≤ vals.length → (List.range n).filterMap (m.writeRun vals).read? = vals.take n := by
    intro n
    induction n with
    | zero => simp
    | succ n ih =>
      intro hn
      have hlt : n < vals.length := by omega
      rw [List.range_succ, List.filterMap_append, ih (by omega), List.take_add_one]
      simp [Memory.read?_writeRun, hlt]
  simpa [listedRun] using this vals.length (le_refl _)

end Sys2Proof.Machine
end

