-- ==== Sys2Proof/Laws/PerInstr.lean ====
section
/-! SUPPORT. The encoding of each command, field by field (30_encoding.md R80). -/

namespace Sys2Proof.Laws.Fields

/-- The word of a command holds its opcode in OP, 0 in RSV and its operand, zero-extended, in IMM. -/
def Statement (i : Instr) : Prop :=
  opField (encode i) = i.opcode ∧ rsvField (encode i) = 0 ∧ immField (encode i) = i.imm

/-- A bit of a word put together from its three fields. -/
theorem bit_of_fields (op : BitVec 8) (imm : BitVec 16) (j : Nat) :
    BitVec.getLsbD (op ++ (0#8 : BitVec 8) ++ imm : Word) j =
      if j < 16 then imm.getLsbD j else if j < 24 then false else op.getLsbD (j - 24) := by
  have h := BitVec.getLsbD_append (x := op ++ (0#8 : BitVec 8)) (y := imm) (i := j)
  refine h.trans ?_
  by_cases h1 : j < 16
  · simp [h1]
  · rw [if_neg h1, BitVec.getLsbD_append]
    by_cases h2 : j < 24
    · simp [h1, h2, show j - 16 < 8 by omega]
    · simp [h1, h2, show ¬ j - 16 < 8 by omega, show j - 16 - 8 = j - 24 by omega]

/-- The three fields of a word put together from them. -/
theorem of_fields (op : BitVec 8) (imm : BitVec 16) :
    opField (op ++ (0#8 : BitVec 8) ++ imm) = op ∧ rsvField (op ++ (0#8 : BitVec 8) ++ imm) = 0 ∧
      immField (op ++ (0#8 : BitVec 8) ++ imm) = imm := by
  refine ⟨?_, ?_, ?_⟩ <;> ext j hj
  · simp only [opField, BitVec.getElem_extractLsb', bit_of_fields]
    simp [show ¬ 24 + j < 16 by omega, hj]
  · simp only [rsvField, BitVec.getElem_extractLsb', bit_of_fields]
    simp [show ¬ 16 + j < 16 by omega, show 16 + j < 24 by omega]
  · simp only [immField, BitVec.getElem_extractLsb', bit_of_fields]
    simp [hj]

theorem nop : Statement (.nop) := of_fields _ _
theorem clear : Statement (.clear) := of_fields _ _
theorem push (sym : Symbol) : Statement (.push sym) := of_fields _ _
theorem count : Statement (.count) := of_fields _ _
theorem build : Statement (.build) := of_fields _ _
theorem serialize : Statement (.serialize) := of_fields _ _
theorem derive : Statement (.derive) := of_fields _ _
theorem pack : Statement (.pack) := of_fields _ _
theorem transcode : Statement (.transcode) := of_fields _ _
theorem encode : Statement (.encode) := of_fields _ _
theorem xlate (v : Group) : Statement (.xlate v) := of_fields _ _
theorem unxlate (b : Symbol) : Statement (.unxlate b) := of_fields _ _

end Sys2Proof.Laws.Fields
end

