-- ==== Sys2Proof/Laws/Step.lean ====
section
/-! SUPPORT. What a step can do, said once: every later proof takes a step apart with `step_cases`, and a
command's execution with `perform_cases`. -/

namespace Sys2Proof.Machine

/-- Two states with the same block: only the two agents' own data and the draw counter differ. -/
def SameBlock (s u : State) : Prop :=
  u = { s with script := u.script, turns := u.turns, received := u.received, draws := u.draws }

theorem SameBlock.refl (s : State) : SameBlock s s := rfl

theorem SameBlock.trans {s u v : State} (h : SameBlock s u) (k : SameBlock u v) : SameBlock s v := by
  unfold SameBlock at h k ⊢
  rw [h] at k
  exact k

theorem sameBlock_hostRead (s : State) (addr : Nat) : SameBlock s (s.hostRead addr) := by
  unfold State.hostRead
  split <;> rfl

theorem hostRead_turns (s : State) (addr : Nat) : (s.hostRead addr).turns = s.turns := by
  unfold State.hostRead
  split <;> rfl

theorem hostRead_script (s : State) (addr : Nat) : (s.hostRead addr).script = s.script := by
  unfold State.hostRead
  split <;> rfl

/-- A read of STATUS returns it at all times (20_memory.md R63). -/
theorem hostRead_status (s : State) : s.hostRead statusOffset = s.receive s.statusWord := by
  have h : s.readWord statusOffset = some s.statusWord := by
    simp [State.readWord, locate, statusOffset, registerMap, State.wordAt, Register.definedWhileBusy,
      State.registerWord]
  simp only [State.hostRead, h]

/-- Every command's effect is a next state. -/
theorem exec_next (i : Instr) (s : State) : ∃ t, exec i s = .next t := by
  cases i <;> exact ⟨_, rfl⟩

/-- What `perform` can do. -/
theorem perform_cases (s : State) (i : Instr) (rule : Rule) :
    (phaseIn i s.phase = false ∧ s.perform i rule = s.raiseError .sequence 0) ∨
    (phaseIn i s.phase = true ∧ ∃ e, rule s = .error e ∧ s.perform i rule = s.raiseError e.code e.aux) ∨
    (phaseIn i s.phase = true ∧ ∃ v, rule s = .ok v ∧ s.perform i rule = v.advance i) := by
  unfold State.perform
  cases hp : phaseIn i s.phase
  · exact .inl ⟨rfl, by simp⟩
  · cases hr : rule s with
    | error e => exact .inr (.inl ⟨rfl, e, rfl, by simp⟩)
    | ok v => exact .inr (.inr ⟨rfl, v, rfl, by simp⟩)

/-- What the engine's completion of a latched command can do. -/
theorem completeCommand_cases {s t : State} (h : completeCommand s = .next t) :
    (∃ i v, decode s.pending = .ok i ∧ exec i s = .next v ∧ t = v.complete) ∨
    (∃ c, decode s.pending = .error c ∧ t = (s.raiseError .illegalCmd 0).complete) := by
  unfold completeCommand at h
  cases hd : decode s.pending with
  | ok i =>
    obtain ⟨v, hv⟩ := exec_next i s
    rw [hd] at h
    simp only [hv, completeOutcome] at h
    exact .inl ⟨i, v, rfl, hv, by cases h; rfl⟩
  | error c =>
    rw [hd] at h
    exact .inr ⟨c, rfl, by cases h; rfl⟩

/-- What a CMD write can do (40_control.md R100). -/
theorem submit_cases {s t : State} {w : Word} (h : submit w s = .next t) :
    (w = clearWord ∧ t = s.cleared) ∨ (w ≠ clearWord ∧ s.busy = true ∧ t = s.setOverrun) ∨
    (w ≠ clearWord ∧ s.busy = false ∧ s.err = true ∧ t = s) ∨
    (w ≠ clearWord ∧ s.busy = false ∧ s.err = false ∧ t = s.latch w) := by
  unfold submit at h
  split at h
  · rename_i hw
    exact .inl ⟨hw, by cases h; rfl⟩
  · rename_i hw
    split at h
    · rename_i hb
      exact .inr (.inl ⟨hw, hb, by cases h; rfl⟩)
    · rename_i hb
      have hb : s.busy = false := by simpa using hb
      split at h
      · rename_i he
        exact .inr (.inr (.inl ⟨hw, hb, he, by cases h; rfl⟩))
      · rename_i he
        exact .inr (.inr (.inr ⟨hw, hb, by simpa using he, by cases h; rfl⟩))

/-- What a bus access can do (20_memory.md R61 to R64). -/
theorem busAccess_cases {s t : State} {a : Access} (h : busAccess a s = .next t) :
    t = s ∨ (a.kind = .read ∧ t = s.hostRead a.addr) ∨
    (∃ w, a.kind = .write w ∧ a.addr = cmdOffset ∧ submit w s = .next t) := by
  unfold busAccess at h
  split at h
  · cases h
  · split at h
    · cases h
    · split at h
      · rename_i hk
        exact .inr (.inl ⟨hk, by cases h; rfl⟩)
      · rename_i w hk
        split at h
        · rename_i ha
          exact .inr (.inr ⟨w, hk, ha, h⟩)
        · exact .inl (by cases h; rfl)

/-- The events of a step, on a state `u` with the same block as the one before it. -/
inductive StepEvent (u t : State) : Prop where
  /-- Only the agents' own data moved. -/
  | quiet (h : t = u)
  /-- The engine completed a command. -/
  | command (i : Instr) (v : State) (busy : u.busy = true) (dec : decode u.pending = .ok i)
      (run : exec i u = .next v) (h : t = v.complete)
  /-- The engine completed an illegal word. -/
  | illegal (c : IllegalWord) (busy : u.busy = true) (dec : decode u.pending = .error c)
      (h : t = (u.raiseError .illegalCmd 0).complete)
  /-- The host wrote the CLEAR word. -/
  | clear (h : t = u.cleared)
  /-- The host wrote a word that was dropped. -/
  | overrun (busy : u.busy = true) (h : t = u.setOverrun)
  /-- The host wrote a word that was latched. -/
  | latch (w : Word) (notClear : w ≠ clearWord) (idle : u.busy = false) (noError : u.err = false)
      (h : t = u.latch w)

theorem hostTurn_cases {s t : State} (h : hostTurn s = .next t) :
    ∃ u, SameBlock s u ∧ u.turns = s.turns ∧ StepEvent u t := by
  unfold hostTurn at h
  split at h
  · cases h
    exact ⟨s, rfl, rfl, .quiet rfl⟩
  · rename_i a rest _
    rcases busAccess_cases h with rfl | ⟨-, rfl⟩ | ⟨w, -, -, hs⟩
    · exact ⟨{ s with script := rest }, rfl, rfl, .quiet rfl⟩
    · exact ⟨_, (show SameBlock s { s with script := rest } from rfl).trans (sameBlock_hostRead _ _),
        hostRead_turns _ _, .quiet rfl⟩
    · refine ⟨{ s with script := rest }, rfl, rfl, ?_⟩
      rcases submit_cases hs with ⟨-, rfl⟩ | ⟨-, hb, rfl⟩ | ⟨-, -, -, rfl⟩ | ⟨hw, hb, he, rfl⟩
      · exact .clear rfl
      · exact .overrun hb rfl
      · exact .quiet rfl
      · exact .latch w hw hb he rfl
  · rename_i rest _
    split at h
    · cases h
      exact ⟨_, sameBlock_hostRead _ _, hostRead_turns _ _, .quiet rfl⟩
    · cases h
      exact ⟨_, (show SameBlock s { s with script := rest } from rfl).trans (sameBlock_hostRead _ _),
        hostRead_turns _ _, .quiet rfl⟩

theorem engineTurn_cases {s t : State} (h : engineTurn s = .next t) : StepEvent s t := by
  unfold engineTurn at h
  split at h
  · rename_i hb
    rcases completeCommand_cases h with ⟨i, v, hd, hv, rfl⟩ | ⟨c, hd, rfl⟩
    · exact .command i v hb hd hv rfl
    · exact .illegal c hb hd rfl
  · cases h
    exact .quiet rfl

/-- What a step can do: an event on the same block, with the turn taken. -/
theorem step_cases {s t : State} (h : step s = .next t) :
    ∃ u, SameBlock s u ∧ u.turns = s.turns.tail ∧ StepEvent u t := by
  unfold step agentStep at h
  split at h
  · exact ⟨{ s with turns := s.turns.tail }, rfl, rfl, engineTurn_cases h⟩
  · obtain ⟨u, hu, ht, e⟩ := hostTurn_cases h
    exact ⟨u, (show SameBlock s { s with turns := s.turns.tail } from rfl).trans hu, ht, e⟩

end Sys2Proof.Machine
end

