-- ==== Sys2Proof/Laws/Stages.lean ====
section
/-! SUPPORT. Each stage keeps the registers in bounds and the memories canonical and listed. -/

namespace Sys2Proof.Machine

/-- The part of `State.Sound` that a stage can touch: all but the error latch and the handshake. -/
structure State.Shape (s : State) : Prop where
  bounded : s.Bounded
  canonical : s.Canonical
  listed : s.Listed

theorem shape_sameBlock {s u : State} (h : SameBlock s u) (c : State.Shape s) : State.Shape u := by
  unfold SameBlock at h
  rw [h]
  obtain ⟨b, k, l⟩ := c
  exact ⟨⟨b.1, b.2, b.3, b.4, b.5, b.6, b.7, b.8, b.9, b.10, b.11, b.12, b.13⟩,
   ⟨k.1, k.2, k.3, k.4, k.5, k.6, k.7, k.8, k.9⟩, ⟨l.1, l.2, l.3, l.4, l.5, l.6, l.7, l.8, l.9⟩⟩

theorem toNat_ofNat_small {n : Nat} (h : n < 2 ^ 32) : (BitVec.ofNat 32 n).toNat = n := by
  rw [BitVec.toNat_ofNat]; exact Nat.mod_eq_of_lt h

theorem shape_push {s v : State} {sym : Symbol} (c : State.Shape s) (hp : phaseIn (.push sym) s.phase = true)
    (h : pushRule sym s = .ok v) : State.Shape (v.advance (.push sym)) := by
  unfold pushRule at h
  split at h
  · cases h
  rename_i hne
  cases h
  obtain ⟨b, k, l⟩ := c
  have hlt : s.len.toNat < s.maxLen := by have := b.len; omega
  have hcap := b.maxLen.2
  have hlen : (s.len + 1).toNat = s.len.toNat + 1 := by
    have h1 : (1 : Word).toNat = 1 := rfl
    simp only [Config.maxCapacity] at hcap
    rw [BitVec.toNat_add, h1]; omega
  have hph := rank_of_loadable (phaseIn_loadable hp)
  have z1 := b.uncounted (by simpa using hph)
  have z2 := b.unbuilt (by simp; omega)
  have z3 := b.unpacked (by simp; omega)
  refine ⟨⟨b.1, b.2, ?_, ?_, ?_, b.6, fun _ => z1, b.8, fun _ => z2, b.10, fun _ => z3, b.12, b.13⟩,
    ⟨⟨Memory.write_wf k.1.1 _ _, Memory.write_within k.1.2 hlt _⟩, k.2, k.3, k.4, k.5, k.6, k.7, k.8, k.9⟩, ?_⟩
  · show (s.len + 1).toNat ≤ s.maxLen; omega
  · intro h; cases h
  · intro _; show 1 ≤ (s.len + 1).toNat; omega
  · refine ⟨?_, ?_, ?_, ?_, ?_, ?_, ?_, ?_, ?_⟩
    · show (s.text.write s.len.toNat sym).listedTo (s.len + 1).toNat
      rw [hlen]; exact Memory.write_listedTo l.1 _
    all_goals intro h; revert h; simp

theorem shape_count {s v : State} (c : State.Shape s) (hp : phaseIn .count s.phase = true)
    (h : countRule s = .ok v) : State.Shape (v.advance .count) := by
  cases h
  obtain ⟨b, k, l⟩ := c
  have hph := rank_of_loadable (phaseIn_loadable hp)
  have z2 := b.unbuilt (by simp; omega)
  have z3 := b.unpacked (by simp; omega)
  have hd := distinctCount_le (frequencyTable s.textList)
  have hl := frequencyTable_length s.textList
  refine ⟨⟨b.1, b.2, b.3, ?_, ?_, ?_, ?_, b.8, fun _ => z2, b.10, fun _ => z3, b.12, b.13⟩,
    ⟨k.1, ⟨Memory.writeRun_wf k.2.1 _, Memory.writeRun_within k.2.2 (by omega)⟩, k.3, k.4, k.5, k.6, k.7, k.8, k.9⟩, ?_⟩
  · intro h; cases h
  · intro h; cases h
  · show (BitVec.ofNat 32 (distinctCount (frequencyTable s.textList))).toNat ≤ 256
    rw [toNat_ofNat_small (by omega)]; omega
  · intro h; revert h; simp
  · refine ⟨l.1, ?_, ?_, ?_, ?_, ?_, ?_, ?_, ?_⟩
    · intro _
      have := Memory.writeRun_listedTo s.freq (frequencyTable s.textList)
      rwa [hl] at this
    all_goals intro h; revert h; simp

theorem liveCount_le (nodes : List Node) : liveCount nodes ≤ nodes.length := List.countP_le_length

theorem mergeLoop_length (rounds : Nat) (nodes : List Node) (sc : Scan) :
    (mergeLoop rounds nodes sc).1.length + 1 ≤ max (nodes.length + 1) (nodes.length + liveCount nodes) := by
  induction rounds generalizing nodes sc with
  | zero => simp [mergeLoop]
  | succ r ih =>
    rw [mergeLoop]
    split
    · rename_i h2
      obtain ⟨a, b, hs, ha, hb, hab, -, -⟩ := select2_of_two_live h2
      rw [hs]
      have := liveCount_merge ha hb hab
      have h := ih (merge nodes a b) ⟨some a, some b⟩
      simp only [merge_length, Option.getD_some] at h ⊢
      omega
    · simp

theorem buildNodes_length (leaves : List Node) (sc : Scan) (h : leaves.length ≤ 256) :
    (buildNodes leaves sc).1.length ≤ 511 := by
  have h1 := mergeLoop_length leaves.length leaves sc
  have h2 := liveCount_le leaves
  simp only [buildNodes]; omega

theorem shape_build {s v : State} (c : State.Shape s) (hp : phaseIn .build s.phase = true)
    (h : buildRule s = .ok v) : State.Shape (v.advance .build) := by
  cases h
  obtain ⟨b, k, l⟩ := c
  have hph : s.phase = .counted := by revert hp; simp [phaseIn]
  have z3 := b.unpacked (by simp [hph])
  set leaves := (initLeaves s.freqList).take s.nsym.toNat with hleaves
  have hlen : leaves.length ≤ 256 := by
    have := b.nsym; simp [hleaves]; omega
  have hb := buildNodes_length leaves s.scan hlen
  have hn : (BitVec.ofNat 32 (buildNodes leaves s.scan).1.length).toNat = (buildNodes leaves s.scan).1.length :=
    toNat_ofNat_small (by omega)
  refine ⟨⟨b.1, b.2, b.3, ?_, ?_, b.6, ?_, ?_, ?_, b.10, fun _ => z3, b.12, b.13⟩,
    ⟨k.1, k.2, ⟨Memory.writeRun_wf k.3.1 _, Memory.writeRun_within k.3.2 hb⟩, k.4, k.5, k.6, k.7, k.8, k.9⟩, ?_⟩
  · intro h; cases h
  · intro h; cases h
  · intro h; revert h; simp
  · show (BitVec.ofNat 32 (buildNodes leaves s.scan).1.length).toNat ≤ 511
    rw [hn]; exact hb
  · intro h; revert h; simp
  · refine ⟨l.1, fun _ => l.2 (by simp [hph]), ?_, ?_, ?_, ?_, ?_, ?_, ?_⟩
    · intro _
      show (s.node.writeRun _).listedTo (BitVec.ofNat 32 (buildNodes leaves s.scan).1.length).toNat
      rw [hn]; exact Memory.writeRun_listedTo _ _
    all_goals intro h; revert h; simp

theorem flatten_length {f : Nat → Node} {n : Nat} {out : List Int} (h : flatten f n = some out) : out.length = n := by
  unfold flatten at h
  split at h
  · rename_i h0; cases h; simp [h0]
  · have := (Option.filter_eq_some_iff.mp h).2
    simpa using this

theorem serialized_length (s : State) : ((flatten s.nodeAt s.nnodes.toNat).getD s.freeTree).length = s.nnodes.toNat := by
  cases h : flatten s.nodeAt s.nnodes.toNat with
  | none => simp [State.freeTree]
  | some out => simpa using flatten_length h

theorem shape_serialize {s v : State} (c : State.Shape s) (hp : phaseIn .serialize s.phase = true)
    (h : serializeRule s = .ok v) : State.Shape (v.advance .serialize) := by
  cases h
  obtain ⟨b, k, l⟩ := c
  have hph : s.phase = .built := by revert hp; simp [phaseIn]
  have z3 := b.unpacked (by simp [hph])
  have hlen := serialized_length s
  refine ⟨⟨b.1, b.2, b.3, ?_, ?_, b.6, ?_, b.8, ?_, rfl, fun _ => z3, b.12, b.13⟩,
    ⟨k.1, k.2, k.3, ⟨Memory.writeRun_wf k.4.1 _, Memory.writeRun_within k.4.2 (by have := b.nnodes; omega)⟩, k.5, k.6, k.7, k.8, k.9⟩, ?_⟩
  · intro h; cases h
  · intro h; cases h
  · intro h; revert h; simp
  · intro h; revert h; simp
  · refine ⟨l.1, fun _ => l.2 (by simp [hph]), fun _ => l.3 (by simp [hph]), ?_, ?_, ?_, ?_, ?_, ?_⟩
    · intro _
      have := Memory.writeRun_listedTo s.tree ((flatten s.nodeAt s.nnodes.toNat).getD s.freeTree)
      rw [hlen] at this
      exact this
    all_goals intro h; revert h; simp

theorem deriveLoop_length (f : Nat → Int) (r : Nat) (st : List (Nat × BitString)) (table out : List BitString)
    (h : deriveLoop f r st table = some out) : out.length = table.length := by
  induction r generalizing st table with
  | zero =>
    cases st with
    | nil => cases h; rfl
    | cons => cases h
  | succ r ih =>
    cases st with
    | nil => cases h; rfl
    | cons c rest =>
      obtain ⟨i, p⟩ := c
      rw [deriveLoop] at h
      split at h
      · have := ih _ _ h; simpa using this
      · exact ih _ _ h

theorem emptyTable_length : emptyTable.length = 256 := List.length_replicate

theorem deriveCodes_length {f : Nat → Int} {n r : Nat} {out : List BitString} (h : deriveCodes f n r = some out) :
    out.length = 256 := by
  unfold deriveCodes at h
  split at h
  · cases h; exact emptyTable_length
  · split at h
    · cases h; exact (List.length_set).trans emptyTable_length
    · rw [deriveLoop_length _ _ _ _ _ h]; exact emptyTable_length

theorem derivedLengths_length (s : State) (n r : Nat) : (s.derivedLengths (deriveCodes s.treeAt n r)).length = 256 := by
  cases h : deriveCodes s.treeAt n r with
  | none => simp [State.derivedLengths, Config.symbolCount]
  | some t => simp [State.derivedLengths, deriveCodes_length h]

theorem derivedValues_length (s : State) (n r : Nat) : (s.derivedValues (deriveCodes s.treeAt n r)).length = 256 := by
  cases h : deriveCodes s.treeAt n r with
  | none => simp [State.derivedValues, Config.symbolCount]
  | some t => simp [State.derivedValues, deriveCodes_length h]

theorem shape_derive {s v : State} (c : State.Shape s) (hp : phaseIn .derive s.phase = true)
    (h : deriveRule s = .ok v) : State.Shape (v.advance .derive) := by
  cases h
  obtain ⟨b, k, l⟩ := c
  have hph : s.phase = .serialized := by revert hp; simp [phaseIn]
  have z3 := b.unpacked (by simp [hph])
  have h1 := derivedLengths_length s s.nnodes.toNat s.root.toNat
  have h2 := derivedValues_length s s.nnodes.toNat s.root.toNat
  refine ⟨⟨b.1, b.2, b.3, ?_, ?_, b.6, ?_, b.8, ?_, b.10, fun _ => z3, b.12, b.13⟩,
    ⟨k.1, k.2, k.3, k.4, ⟨Memory.writeRun_wf k.5.1 _, Memory.writeRun_within k.5.2 (by omega)⟩, ⟨Memory.writeRun_wf k.6.1 _, Memory.writeRun_within k.6.2 (by omega)⟩, k.7, k.8, k.9⟩, ?_⟩
  · intro h; cases h
  · intro h; cases h
  · intro h; revert h; simp
  · intro h; revert h; simp
  · refine ⟨l.1, fun _ => l.2 (by simp [hph]), fun _ => l.3 (by simp [hph]), fun _ => l.4 (by simp [hph]), ?_, ?_, ?_, ?_, ?_⟩
    · intro _
      have := Memory.writeRun_listedTo s.codeLen (s.derivedLengths (deriveCodes s.treeAt s.nnodes.toNat s.root.toNat))
      rw [h1] at this; exact this
    · intro _
      have := Memory.writeRun_listedTo s.codeVal (s.derivedValues (deriveCodes s.treeAt s.nnodes.toNat s.root.toNat))
      rw [h2] at this; exact this
    all_goals intro h; revert h; simp

theorem shape_pack {s v : State} (c : State.Shape s) (hp : phaseIn .pack s.phase = true)
    (h : packRule s = .ok v) : State.Shape (v.advance .pack) := by
  simp only [packRule] at h
  split at h
  · cases h
  rename_i hng
  cases h
  obtain ⟨b, k, l⟩ := c
  have hph : s.phase = .derived := by revert hp; simp [phaseIn]
  have hcap := b.maxGroups.2
  simp only [Config.maxCapacity] at hcap
  have hn : (BitVec.ofNat 32 (groupsNeeded s.packedBits.length)).toNat = groupsNeeded s.packedBits.length :=
    toNat_ofNat_small (by omega)
  have ht : (BitVec.ofNat 32 s.packedBits.length).toNat = s.packedBits.length :=
    toNat_ofNat_small (by simp only [groupsNeeded] at hng; omega)
  have hl := packGroups_length s.packedBits
  refine ⟨⟨b.1, b.2, b.3, ?_, ?_, b.6, ?_, b.8, ?_, b.10, ?_, ?_, ?_⟩,
    ⟨k.1, k.2, k.3, k.4, k.5, k.6, ⟨Memory.writeRun_wf k.7.1 _, Memory.writeRun_within k.7.2 (by show _ ≤ s.maxGroups; omega)⟩, k.8, k.9⟩, ?_⟩
  · intro h; cases h
  · intro h; cases h
  · intro h; revert h; simp
  · intro h; revert h; simp
  · intro h; revert h; simp
  · show (BitVec.ofNat 32 (groupsNeeded s.packedBits.length)).toNat ≤ s.maxGroups
    omega
  · show (BitVec.ofNat 32 (groupsNeeded s.packedBits.length)).toNat = groupsNeeded (BitVec.ofNat 32 s.packedBits.length).toNat
    rw [hn, ht]
  · refine ⟨l.1, fun _ => l.2 (by simp [hph]), fun _ => l.3 (by simp [hph]), fun _ => l.4 (by simp [hph]), fun _ => l.5 (by simp [hph]), fun _ => l.6 (by simp [hph]), ?_, ?_, ?_⟩
    · intro _
      have := Memory.writeRun_listedTo s.group (packGroups s.packedBits)
      rw [hl] at this
      show (s.group.writeRun _).listedTo (BitVec.ofNat 32 (groupsNeeded s.packedBits.length)).toNat
      rw [hn]; exact this
    all_goals intro h; revert h; simp

theorem shape_transcode {s v : State} (c : State.Shape s) (hp : phaseIn .transcode s.phase = true)
    (h : transcodeRule s = .ok v) : State.Shape (v.advance .transcode) := by
  cases h
  obtain ⟨b, k, l⟩ := c
  have hph : s.phase = .packed := by revert hp; simp [phaseIn]
  have h1 : (transcodeTree s.treeList).length = 2 * s.nnodes.toNat := by
    rw [transcodeTree_length]; simp [State.treeList]
  have h2 : (transcodeBits s.groupList).length = s.ngroups.toNat := by
    simp [transcodeBits, State.groupList]
  refine ⟨⟨b.1, b.2, b.3, ?_, ?_, b.6, ?_, b.8, ?_, b.10, ?_, b.12, b.13⟩,
    ⟨k.1, k.2, k.3, k.4, k.5, k.6, k.7, ⟨Memory.writeRun_wf k.8.1 _, Memory.writeRun_within k.8.2 (by have := b.nnodes; omega)⟩,
      ⟨Memory.writeRun_wf k.9.1 _, Memory.writeRun_within k.9.2 (by have := b.ngroups; show _ ≤ s.maxGroups; omega)⟩⟩, ?_⟩
  · intro h; cases h
  · intro h; cases h
  · intro h; revert h; simp
  · intro h; revert h; simp
  · intro h; revert h; simp
  · refine ⟨l.1, fun _ => l.2 (by simp [hph]), fun _ => l.3 (by simp [hph]), fun _ => l.4 (by simp [hph]), fun _ => l.5 (by simp [hph]), fun _ => l.6 (by simp [hph]), fun _ => l.7 (by simp [hph]), ?_, ?_⟩
    · intro _
      have := Memory.writeRun_listedTo s.outTree (transcodeTree s.treeList)
      rw [h1] at this; exact this
    · intro _
      have := Memory.writeRun_listedTo s.outBits (transcodeBits s.groupList)
      rw [h2] at this; exact this
end Sys2Proof.Machine
end

