-- ==== Sys2Proof/Laws/Shape.lean ====
section
/-! SUPPORT. Every step keeps the registers in bounds and the memories canonical and listed; ENCODE taken
apart into its stages. -/

namespace Sys2Proof.Machine

/-- The registers and memories that `State.Shape` speaks of do not move. -/
structure SameShape (s u : State) : Prop where
  phase : u.phase = s.phase
  len : u.len = s.len
  nsym : u.nsym = s.nsym
  nnodes : u.nnodes = s.nnodes
  root : u.root = s.root
  totalBits : u.totalBits = s.totalBits
  ngroups : u.ngroups = s.ngroups
  maxLen : u.maxLen = s.maxLen
  maxGroups : u.maxGroups = s.maxGroups
  text : u.text = s.text
  freq : u.freq = s.freq
  node : u.node = s.node
  tree : u.tree = s.tree
  codeLen : u.codeLen = s.codeLen
  codeVal : u.codeVal = s.codeVal
  group : u.group = s.group
  outTree : u.outTree = s.outTree
  outBits : u.outBits = s.outBits

theorem shape_sameShape {s u : State} (e : SameShape s u) (h : State.Shape s) : State.Shape u := by
  obtain ⟨e1, e2, e3, e4, e5, e6, e7, e8, e9, e10, e11, e12, e13, e14, e15, e16, e17, e18⟩ := e
  obtain ⟨b, k, l⟩ := h
  refine ⟨?_, ?_, ?_⟩ <;> constructor <;> simp only [e1, e2, e3, e4, e5, e6, e7, e8, e9, e10, e11, e12, e13, e14, e15, e16, e17, e18]
  exacts [b.1, b.2, b.3, b.4, b.5, b.6, b.7, b.8, b.9, b.10, b.11, b.12, b.13, k.1, k.2, k.3, k.4, k.5, k.6, k.7, k.8, k.9, l.1, l.2, l.3, l.4, l.5, l.6, l.7, l.8, l.9]

theorem sameShape_of_sameBlock {s u : State} (h : SameBlock s u) : SameShape s u := by
  unfold SameBlock at h
  rw [h]
  constructor <;> rfl

theorem sameShape_raise (s : State) (c : ErrCode) (a : Word) : SameShape s (s.raiseError c a) := by
  constructor <;> rfl

theorem sameShape_complete (s : State) : SameShape s s.complete := by constructor <;> rfl
theorem sameShape_latch (s : State) (w : Word) : SameShape s (s.latch w) := by constructor <;> rfl
theorem sameShape_overrun (s : State) : SameShape s s.setOverrun := by constructor <;> rfl

theorem shape_reset {m g : Nat} (hm : 1 ≤ m ∧ m ≤ Config.maxCapacity) (hg : 1 ≤ g ∧ g ≤ Config.maxCapacity) :
   State.Shape (State.resetWith m g) := by
  have hw : ∀ {α : Type} (n : Nat), Memory.wf ([] : Memory α) ∧ Memory.within ([] : Memory α) n := by
    intro α n; exact ⟨List.Pairwise.nil, fun c hc => absurd hc (by simp)⟩
  have hz : ∀ {α : Type}, Memory.listedTo ([] : Memory α) 0 := fun i hi => absurd hi (by omega)
  refine ⟨⟨hm, hg, (by simp [State.resetWith]), fun _ => rfl, (fun h => by cases h), (by simp [State.resetWith]), fun _ => rfl,
      (by simp [State.resetWith]), fun _ => rfl, rfl, fun _ => rfl, (by simp [State.resetWith]), (by simp [State.resetWith, groupsNeeded])⟩,
    ⟨hw _, hw _, hw _, hw _, hw _, hw _, hw _, hw _, hw _⟩, ⟨hz, ?_, ?_, ?_, ?_, ?_, ?_, ?_, ?_⟩⟩
  all_goals intro h; simp [State.resetWith] at h

theorem shape_cleared {s : State} (h : State.Shape s) : State.Shape s.cleared :=
  shape_sameShape (by constructor <;> rfl) (shape_reset h.bounded.maxLen h.bounded.maxGroups)

theorem shape_raise {s : State} (h : State.Shape s) (c : ErrCode) (a : Word) : State.Shape (s.raiseError c a) :=
  shape_sameShape (sameShape_raise s c a) h

/-- What ENCODE does, stage by stage. -/
theorem runStages_encode (s : State) : ∃ s1 s2 s3 s4,
    countRule s = .ok s1 ∧ buildRule (s1.advance .count) = .ok s2 ∧
    serializeRule (s2.advance .build) = .ok s3 ∧ deriveRule (s3.advance .serialize) = .ok s4 ∧
    ((∃ e, packRule (s4.advance .derive) = .error e ∧
        runStages encodeStages s = (s4.advance .derive).raiseError e.code e.aux) ∨
     (∃ s5 s6, packRule (s4.advance .derive) = .ok s5 ∧ transcodeRule (s5.advance .pack) = .ok s6 ∧
        runStages encodeStages s = s6.advance .transcode)) := by
  refine ⟨_, _, _, _, rfl, rfl, rfl, rfl, ?_⟩
  simp only [encodeStages, runStages, countRule, buildRule, serializeRule, deriveRule]
  generalize State.advance _ .derive = s4
  cases hr : packRule s4 with
  | error e => exact .inl ⟨e, rfl, rfl⟩
  | ok v => exact .inr ⟨v, _, rfl, rfl, rfl⟩

theorem shape_encode {s : State} (h : State.Shape s) (hp : phaseIn .encode s.phase = true) :
    State.Shape (runStages encodeStages s) := by
  obtain ⟨s1, s2, s3, s4, h1, h2, h3, h4, h5⟩ := runStages_encode s
  have k1 := shape_count h hp h1
  have k2 := shape_build k1 rfl h2
  have k3 := shape_serialize k2 rfl h3
  have k4 := shape_derive k3 rfl h4
  rcases h5 with ⟨e, -, hr⟩ | ⟨s5, s6, h5, h6, hr⟩
  · rw [hr]; exact shape_raise k4 _ _
  · rw [hr]; exact shape_transcode (shape_pack k4 rfl h5) rfl h6

theorem shape_perform {s : State} {i : Instr} {rule : Rule} (h : State.Shape s)
    (hk : ∀ v, phaseIn i s.phase = true → rule s = .ok v → State.Shape (v.advance i)) :
    State.Shape (s.perform i rule) := by
  rcases perform_cases s i rule with ⟨-, hr⟩ | ⟨-, e, -, hr⟩ | ⟨hp, v, hv, hr⟩ <;> rw [hr]
  · exact shape_raise h _ _
  · exact shape_raise h _ _
  · exact hk v hp hv

theorem shape_exec {s t : State} {i : Instr} (h : State.Shape s) (he : exec i s = .next t) : State.Shape t := by
  cases i <;> cases he
  · exact shape_perform h (fun v _ hv => by cases hv; exact h)
  · exact shape_cleared h
  · exact shape_perform h (fun v hp hv => shape_push h hp hv)
  · exact shape_perform h (fun v hp hv => shape_count h hp hv)
  · exact shape_perform h (fun v hp hv => shape_build h hp hv)
  · exact shape_perform h (fun v hp hv => shape_serialize h hp hv)
  · exact shape_perform h (fun v hp hv => shape_derive h hp hv)
  · exact shape_perform h (fun v hp hv => shape_pack h hp hv)
  · exact shape_perform h (fun v hp hv => shape_transcode h hp hv)
  · cases hp : phaseIn .encode s.phase
    · simpa [hp] using shape_raise h _ _
    · simpa [hp] using shape_encode h hp
  · exact shape_perform h (fun v _ hv => by cases hv; exact shape_sameShape (by constructor <;> rfl) h)
  · refine shape_perform h (fun v _ hv => ?_)
    unfold unxlateRule at hv
    split at hv
    · cases hv; exact shape_sameShape (by constructor <;> rfl) h
    · cases hv

/-- Every step keeps the shape. -/
theorem shape_step {s t : State} (h : State.Shape s) (he : step s = .next t) : State.Shape t := by
  obtain ⟨u, hu, -, ev⟩ := step_cases he
  have h := shape_sameBlock hu h
  cases ev with
  | quiet e => subst e; exact h
  | command i v _ _ run e => subst e; exact shape_sameShape (sameShape_complete v) (shape_exec h run)
  | illegal c _ _ e => subst e; exact shape_sameShape (sameShape_complete _) (shape_raise h _ _)
  | clear e => subst e; exact shape_cleared h
  | overrun _ e => subst e; exact shape_sameShape (sameShape_overrun u) h
  | latch w _ _ _ e => subst e; exact shape_sameShape (sameShape_latch u w) h

/-! ## The error latch -/

theorem latch_of_fields {s u : State} (h : s.LatchSound) (e1 : u.err = s.err) (e2 : u.errCode = s.errCode) (e3 : u.errInfo = s.errInfo) (e4 : u.errAux = s.errAux) : u.LatchSound := by
  constructor
  · rw [e1, e2, e3, e4]; exact h.noError
  · rw [e1, e2]; exact h.error
  · rw [e2, e4]; exact h.errAux

theorem latch_raise (s : State) (c : ErrCode) (a : Word) (hc : c ≠ .none) (ha : c ≠ .outOverflow → a = 0) : (s.raiseError c a).LatchSound := by
  constructor
  · intro h; cases h
  · intro _; exact hc
  · exact ha

/-- The error latch does not move. -/
def LatchFrame (s v : State) : Prop := v.err = s.err ∧ v.errCode = s.errCode ∧ v.errInfo = s.errInfo ∧ v.errAux = s.errAux

theorem latch_perform {s : State} (h : s.LatchSound) (i : Instr) (rule : Rule)
  (hv : ∀ v, rule s = .ok v → LatchFrame s v)
  (he : ∀ e, rule s = .error e → e.code ≠ .none ∧ (e.code ≠ .outOverflow → e.aux = 0)) : (s.perform i rule).LatchSound := by
  rcases perform_cases s i rule with ⟨-, hr⟩ | ⟨-, e, he', hr⟩ | ⟨hp, v, hv', hr⟩ <;> rw [hr]
  · exact latch_raise _ _ _ (by simp) (fun _ => rfl)
  · exact latch_raise _ _ _ (he e he').1 (he e he').2
  · obtain ⟨a, b, c, d⟩ := hv v hv'
    have : LatchFrame v (v.advance i) := by cases i <;> exact ⟨rfl, rfl, rfl, rfl⟩
    obtain ⟨a', b', c', d'⟩ := this
    exact latch_of_fields h (a'.trans a) (b'.trans b) (c'.trans c) (d'.trans d)

theorem latch_exec {s t : State} {i : Instr} (h : s.LatchSound) (he : exec i s = .next t) : t.LatchSound := by
  cases i <;> cases he
  case clear => exact ⟨fun _ => ⟨rfl, rfl, rfl⟩, (fun h => by cases h), fun _ => rfl⟩
  case encode =>
    cases hp : phaseIn .encode s.phase
    · simpa [hp] using latch_raise s .sequence 0 (by simp) (fun _ => rfl)
    · simp only [if_true]
      obtain ⟨s1, s2, s3, s4, h1, h2, h3, h4, h5⟩ := runStages_encode s
      cases h1; cases h2; cases h3; cases h4
      rcases h5 with ⟨e, h5, hr⟩ | ⟨s5, s6, h5, h6, hr⟩
      · rw [hr]; refine latch_raise _ _ _ ?_ ?_
        all_goals
          simp only [packRule] at h5
          split at h5
          · cases h5; simp
          · cases h5
      · rw [hr]
        simp only [packRule] at h5
        split at h5
        · cases h5
        · cases h5; cases h6
          exact latch_of_fields h rfl rfl rfl rfl
  all_goals refine latch_perform h _ _ ?_ ?_
  all_goals
    intro v hv
    first
    | (cases hv; first | exact ⟨rfl, rfl, rfl, rfl⟩ | done)
    | (simp only [pushRule, packRule, unxlateRule] at hv
       split at hv
       all_goals first | (cases hv; exact ⟨rfl, rfl, rfl, rfl⟩) | (cases hv; simp) | cases hv)

/-! ## The handshake -/

/-- No command raises BUSY. -/
theorem idle_exec {s t : State} {i : Instr} (h : s.busy = false) (he : exec i s = .next t) : t.busy = false := by
  have perf : ∀ (i : Instr) (rule : Rule), (∀ v, rule s = .ok v → v.busy = false) →
      (s.perform i rule).busy = false := by
    intro i rule hk
    rcases perform_cases s i rule with ⟨-, hr⟩ | ⟨-, e, -, hr⟩ | ⟨-, v, hv, hr⟩ <;> rw [hr]
    · exact h
    · exact h
    · have := hk v hv
      cases i <;> exact this
  cases i <;> cases he
  case clear => rfl
  case encode =>
    cases hp : phaseIn .encode s.phase
    · simpa [hp] using h
    · simp only [if_true]
      obtain ⟨s1, s2, s3, s4, h1, h2, h3, h4, h5⟩ := runStages_encode s
      cases h1; cases h2; cases h3; cases h4
      rcases h5 with ⟨e, -, hr⟩ | ⟨s5, s6, h5, h6, hr⟩
      · rw [hr]; exact h
      · rw [hr]
        simp only [packRule] at h5
        split at h5
        · cases h5
        · cases h5; cases h6
          exact h
  all_goals refine perf _ _ ?_
  all_goals
    intro v hv
    first
    | (cases hv; exact h)
    | (simp only [pushRule, packRule, unxlateRule] at hv
       split at hv
       all_goals first | (cases hv; exact h) | cases hv)

end Sys2Proof.Machine
end

