-- ==== Sys2Proof/Laws/Results.lean ====
section
/-! SUPPORT. What the stages' results are, from the text on: the tree BUILD makes, its listing, its codes and
the bits packed. -/

namespace Sys2Proof.Machine

/-! ## A listed element does not depend on the draws -/

theorem getD_of_isSome {α : Type} {o : Option α} (h : o.isSome = true) (a b : α) : o.getD a = o.getD b := by
  cases o with
  | none => cases h
  | some v => rfl

theorem map_range_congr {α : Type} (f g : Nat → α) (n : Nat) (h : ∀ i, i < n → f i = g i) :
    (List.range n).map f = (List.range n).map g :=
  List.map_congr_left (fun i hi => h i (List.mem_range.mp hi))

variable {s u : State}

theorem textList_congr (e : SameShape s u) (h : s.text.listedTo s.len.toNat) : u.textList = s.textList := by
  unfold State.textList
  rw [e.len]
  refine map_range_congr _ _ _ (fun i hi => ?_)
  unfold State.textAt
  rw [e.text]
  exact getD_of_isSome (h i hi) _ _

theorem freqList_congr (e : SameShape s u) (h : s.freq.listedTo 256) : u.freqList = s.freqList := by
  refine map_range_congr _ _ _ (fun i hi => ?_)
  unfold State.freqAt
  rw [e.freq]
  exact getD_of_isSome (h i hi) _ _

theorem nodeAt_congr (e : SameShape s u) (h : s.node.listedTo s.nnodes.toNat) {i : Nat} (hi : i < s.nnodes.toNat) :
    u.nodeAt i = s.nodeAt i := by
  unfold State.nodeAt
  rw [e.node]
  exact getD_of_isSome (h i hi) _ _

theorem nodeList_congr (e : SameShape s u) (h : s.node.listedTo s.nnodes.toNat) : u.nodeList = s.nodeList := by
  unfold State.nodeList
  rw [e.nnodes]
  exact map_range_congr _ _ _ (fun i hi => nodeAt_congr e h hi)

theorem treeList_congr (e : SameShape s u) (h : s.tree.listedTo s.nnodes.toNat) : u.treeList = s.treeList := by
  unfold State.treeList
  rw [e.nnodes]
  refine map_range_congr _ _ _ (fun i hi => ?_)
  unfold State.treeAt
  rw [e.tree]
  exact getD_of_isSome (h i hi) _ _

theorem groupList_congr (e : SameShape s u) (h : s.group.listedTo s.ngroups.toNat) : u.groupList = s.groupList := by
  unfold State.groupList
  rw [e.ngroups]
  refine map_range_congr _ _ _ (fun i hi => ?_)
  unfold State.groupAt
  rw [e.group]
  exact getD_of_isSome (h i hi) _ _

theorem codeLenAt_congr (e : SameShape s u) (h : s.codeLen.listedTo 256) {i : Nat} (hi : i < 256) :
    u.codeLenAt i = s.codeLenAt i := by
  unfold State.codeLenAt
  rw [e.codeLen]
  exact getD_of_isSome (h i hi) _ _

theorem codeValAt_congr (e : SameShape s u) (h : s.codeVal.listedTo 256) {i : Nat} (hi : i < 256) :
    u.codeValAt i = s.codeValAt i := by
  unfold State.codeValAt
  rw [e.codeVal]
  exact getD_of_isSome (h i hi) _ _

theorem codeOf_congr (e : SameShape s u) (h : s.codeLen.listedTo 256) (k : s.codeVal.listedTo 256) (sym : Symbol) :
    u.codeOf sym = s.codeOf sym := by
  unfold State.codeOf
  rw [codeLenAt_congr e h sym.isLt, codeValAt_congr e k sym.isLt]

theorem packedBits_congr (e : SameShape s u) (t : s.text.listedTo s.len.toNat) (h : s.codeLen.listedTo 256)
    (k : s.codeVal.listedTo 256) : u.packedBits = s.packedBits := by
  unfold State.packedBits
  rw [textList_congr e t, funext (codeOf_congr e h k)]

/-! ## The tree of a run -/

/-- The code table of a tree: one bit for a lone leaf (44_code_table.md R183), else the paths (R185). -/
def CodeTree.table : CodeTree → List BitString
  | .leaf sym => emptyTable.set sym.toNat [false]
  | .branch l r => storePaths emptyTable [] (CodeTree.branch l r).paths

/-- The tree that the nodes NODE[0 .. n-1] hold, `none` where there is no node. -/
def Holds (nodes : List Node) (freq : List Word) : Option CodeTree → Prop
  | none => initLeaves freq = [] ∧ nodes = []
  | some t => BuiltTree (initLeaves freq) nodes t

/-- The elements of TREE that a tree has. -/
def treeElements : Option CodeTree → List Int
  | none => []
  | some t => t.listing 0

/-- The code table that a tree has. -/
def treeTable : Option CodeTree → List BitString
  | none => emptyTable
  | some t => t.table

theorem buildNodes_holds (text : List Symbol) (h : text.length < 2 ^ 32) (sc : Scan) :
    ∃ t, Holds (buildNodes (initLeaves (frequencyTable text)) sc).1 (frequencyTable text) t := by
  by_cases he : initLeaves (frequencyTable text) = []
  · exact ⟨none, he, by rw [he]; rfl⟩
  · obtain ⟨t, ht⟩ := buildNodes_tree sc he
      (by rw [initLeaves_length]; exact (distinctCount_le _).trans (frequencyTable_length text).le)
      (by rw [initLeaves_weights, frequencyTable_sum text h]; exact h) (initLeaves_leaf _)
    exact ⟨some t, ht⟩

theorem flatten_holds {nodes : List Node} {freq : List Word} {t : Option CodeTree} (h : Holds nodes freq t)
    (f : Nat → Node) (n : Nat) (hf : (List.range n).map f = nodes) : flatten f n = some (treeElements t) := by
  have hn : nodes.length = n := by rw [← hf]; simp
  cases t with
  | none =>
    have : n = 0 := by rw [← hn, h.2]; rfl
    subst this; rfl
  | some t =>
    have hs := h.size
    have hp := (pictures_of_agree (nodeIn nodes) f t (nodes.length - 1) (fun j hj => ?_) h.pictures).1
    · rw [← hs] at hp
      rw [← hn, ← hs]; exact flatten_pictures f t hp
    · have hj : j < n := by
        rw [← hn]; exact List.mem_range.mp (h.ids.mem_iff.mp hj)
      have : nodeIn nodes j = f j := by
        unfold nodeIn
        rw [← hf]; simp [List.getD, hj]
      rw [this]; exact ⟨rfl, rfl, rfl, rfl⟩

theorem deriveCodes_elements (t : Option CodeTree) (f : Nat → Int) (n : Nat)
    (h : (List.range n).map f = treeElements t) : deriveCodes f n 0 = some (treeTable t) := by
  have hn : n = (treeElements t).length := by rw [← h]; simp
  cases t with
  | none => subst hn; rfl
  | some t =>
    have hn' : n = t.size := by rw [hn]; exact t.listing_length 0
    have hl : Lists f t 0 := by
      refine lists_of_getElem f t 0 (fun k hk => ?_)
      show (treeElements (some t))[k]? = _
      rw [← h]; simp [hn', hk]
    have hpos := t.size_pos
    unfold deriveCodes
    rw [if_neg (by omega)]
    cases t with
    | leaf sym =>
      have hl : f 0 = (sym.toNat : Int) := hl
      rw [if_pos (by omega), hl]; rfl
    | branch l r =>
      have h0 : f 0 = -((0 + 1 + l.size : Nat) : Int) := hl.1
      rw [if_neg (by rw [h0]; omega), hn']
      have := deriveLoop_lists f (.branch l r) 0 hl 0 [] [] emptyTable
      rw [Nat.zero_add] at this
      rw [this]; rfl

theorem CodeTree.table_eq (t : CodeTree) : t.table = storePaths emptyTable [] t.codes := by
  cases t <;> rfl

theorem CodeTree.codes_symbols (t : CodeTree) : t.codes.map Prod.fst = t.leaves := by
  cases t with
  | leaf sym => rfl
  | branch l r => exact CodeTree.paths_symbols _

theorem CodeTree.codes_length (t : CodeTree) (h : t.leaves.length ≤ 256) : ∀ c ∈ t.codes, c.2.length ≤ 255 := by
  cases t with
  | leaf sym => intro c hc; simp [CodeTree.codes] at hc; simp [hc]
  | branch l r =>
    intro c hc
    have h1 := CodeTree.path_length_le _ c hc
    have h2 := CodeTree.depth_lt (.branch l r)
    omega

theorem CodeTree.table_getD (t : CodeTree) (hn : t.leaves.Nodup) (c : Symbol × BitString) (hc : c ∈ t.codes) :
    t.table.getD c.1.toNat [] = c.2 := by
  rw [t.table_eq, storePaths_getD _ _ _ emptyTable_length (by rw [t.codes_symbols]; exact hn) c hc]; rfl


/-! ## Each stage adds its result -/

theorem results_sameShape {s u : State} (e : SameShape s u) (h : State.Shape s) (r : s.Results) : u.Results := by
  have l := h.listed
  constructor
  · intro hp
    rw [e.phase] at hp
    rw [freqList_congr e (l.freq hp), textList_congr e l.text, e.nsym]
    exact r.counted hp
  · intro hp
    rw [e.phase] at hp
    have hc : Phase.counted.rank ≤ s.phase.rank := by simp at hp ⊢; omega
    rw [nodeList_congr e (l.node hp), freqList_congr e (l.freq hc)]
    exact r.built hp
  · intro hp
    rw [e.phase] at hp
    have hb : Phase.built.rank ≤ s.phase.rank := by simp at hp ⊢; omega
    have hc : Phase.counted.rank ≤ s.phase.rank := by simp at hp ⊢; omega
    have hlen : s.textList.length < 2 ^ 32 := by simp [State.textList]; omega
    obtain ⟨t, ht⟩ := buildNodes_holds s.textList hlen ⟨none, none⟩
    rw [← (r.counted hc).1, ← r.built hb] at ht
    have h1 := flatten_holds ht s.nodeAt s.nnodes.toNat rfl
    have h2 := flatten_holds ht u.nodeAt u.nnodes.toNat (nodeList_congr e (l.node hb))
    rw [h2, ← h1, r.serialized hp, treeList_congr e (l.tree hp)]
  · intro hp
    rw [e.phase] at hp
    have hs : Phase.serialized.rank ≤ s.phase.rank := by simp at hp ⊢; omega
    have hb : Phase.built.rank ≤ s.phase.rank := by simp at hp ⊢; omega
    have hc : Phase.counted.rank ≤ s.phase.rank := by simp at hp ⊢; omega
    have hlen : s.textList.length < 2 ^ 32 := by simp [State.textList]; omega
    obtain ⟨t, ht⟩ := buildNodes_holds s.textList hlen ⟨none, none⟩
    rw [← (r.counted hc).1, ← r.built hb] at ht
    have h1 := flatten_holds ht s.nodeAt s.nnodes.toNat rfl
    rw [r.serialized hs] at h1
    have h1 : s.treeList = treeElements t := by simpa using h1
    have hr : s.root.toNat = 0 := by rw [h.bounded.root]; rfl
    have d1 := deriveCodes_elements t s.treeAt s.nnodes.toNat h1
    have d2 := deriveCodes_elements t u.treeAt u.nnodes.toNat ((treeList_congr e (l.tree hs)).trans h1)
    obtain ⟨table, ht1, ht2, ht3⟩ := r.derived hp
    refine ⟨table, ?_, ?_, ?_⟩
    · rw [e.root, hr, d2, ← d1, ← ht1, hr]
    · rw [← ht2]; exact map_range_congr _ _ _ (fun i hi => codeLenAt_congr e (l.codeLen hp) hi)
    · rw [← ht3]; exact map_range_congr _ _ _ (fun i hi => codeValAt_congr e (l.codeVal hp) hi)
  · intro hp
    rw [e.phase] at hp
    have hd : Phase.derived.rank ≤ s.phase.rank := by simp at hp ⊢; omega
    rw [groupList_congr e (l.group hp), packedBits_congr e l.text (l.codeLen hd) (l.codeVal hd), e.totalBits]
    exact r.packed hp
  · intro hp
    rw [e.phase] at hp
    rw [e.outTree, e.outBits, e.nnodes, e.ngroups, treeList_congr e (l.tree (by simp [hp])), groupList_congr e (l.group (by simp [hp]))]
    exact r.transcoded hp

theorem results_push {s v : State} {sym : Symbol} (h : pushRule sym s = .ok v) : (v.advance (.push sym)).Results := by
  unfold pushRule at h
  split at h
  · cases h
  cases h
  constructor <;> intro h <;> simp at h

theorem results_count {s v : State} (h : countRule s = .ok v) : (v.advance .count).Results := by
  cases h
  constructor
  · intro _
    have hl := frequencyTable_length s.textList
    have h1 : (State.advance { s with freq := s.freq.writeRun (frequencyTable s.textList), nsym := BitVec.ofNat 32 (distinctCount (frequencyTable s.textList)) } .count).freqList = frequencyTable s.textList := by
      have := Memory.map_getD_writeRun s.freq (frequencyTable s.textList) (fun i => (Config.unwritten .freq s.draws i).setWidth 32)
      rw [hl] at this
      exact this
    refine ⟨h1, ?_⟩
    rw [h1]
    have := distinctCount_le (frequencyTable s.textList)
    exact toNat_ofNat_small (by omega)
  all_goals intro h; simp at h

theorem results_build {s v : State} (c : State.Shape s) (hp : phaseIn .build s.phase = true) (r : s.Results)
    (h : buildRule s = .ok v) : (v.advance .build).Results := by
  cases h
  have hph : s.phase = .counted := by revert hp; simp [phaseIn]
  have rc := r.counted (by simp [hph])
  have htake : (initLeaves s.freqList).take s.nsym.toNat = initLeaves s.freqList := by
    apply List.take_of_length_le
    rw [initLeaves_length, rc.2]
  have hle : (initLeaves s.freqList).length ≤ 256 := by rw [initLeaves_length, ← rc.2]; exact c.bounded.nsym
  constructor
  · intro _; exact rc
  · intro _
    show State.nodeList _ = (buildNodes (initLeaves s.freqList) ⟨none, none⟩).1
    rw [htake]
    have hb := buildNodes_length (initLeaves s.freqList) s.scan hle
    have := Memory.map_getD_writeRun s.node (buildNodes (initLeaves s.freqList) s.scan).1 (fun i => nodeOfBits (Config.unwritten .node s.draws i))
    have hn : (BitVec.ofNat 32 (buildNodes (initLeaves s.freqList) s.scan).1.length).toNat = (buildNodes (initLeaves s.freqList) s.scan).1.length :=
      toNat_ofNat_small (by omega)
    rw [show (buildNodes (initLeaves s.freqList) ⟨none, none⟩).1 = (buildNodes (initLeaves s.freqList) s.scan).1 from mergeLoop_scan _ _ _ _]
    conv_rhs => rw [← this, ← hn]
    rfl
  all_goals intro h; simp at h

theorem results_serialize {s v : State} (hp : phaseIn .serialize s.phase = true) (r : s.Results)
    (h : serializeRule s = .ok v) : (v.advance .serialize).Results := by
  cases h
  have hph : s.phase = .built := by revert hp; simp [phaseIn]
  have rc := r.counted (by simp [hph])
  have rb := r.built (by simp [hph])
  constructor
  · intro _; exact rc
  · intro _; exact rb
  · intro _
    have hlen : s.textList.length < 2 ^ 32 := by simp [State.textList]; omega
    obtain ⟨t, ht⟩ := buildNodes_holds s.textList hlen ⟨none, none⟩
    rw [← rc.1, ← rb] at ht
    have h1 := flatten_holds ht s.nodeAt s.nnodes.toNat rfl
    have h2 := flatten_length h1
    have hx : (flatten s.nodeAt s.nnodes.toNat).getD s.freeTree = treeElements t := by rw [h1]; rfl
    have := Memory.map_getD_writeRun s.tree (treeElements t) (fun i => elementOfBits (Config.unwritten .tree s.draws i))
    rw [h2] at this
    show flatten s.nodeAt s.nnodes.toNat = some (State.treeList _)
    rw [hx, h1]
    congr 1
    exact this.symm
  all_goals intro h; simp at h

theorem results_derive {s v : State} (c : State.Shape s) (hp : phaseIn .derive s.phase = true) (r : s.Results)
    (h : deriveRule s = .ok v) : (v.advance .derive).Results := by
  cases h
  have hph : s.phase = .serialized := by revert hp; simp [phaseIn]
  have rc := r.counted (by simp [hph])
  have rb := r.built (by simp [hph])
  have rs := r.serialized (by simp [hph])
  constructor
  · intro _; exact rc
  · intro _; exact rb
  · intro _; exact rs
  · intro _
    have hlen : s.textList.length < 2 ^ 32 := by simp [State.textList]; omega
    obtain ⟨t, ht⟩ := buildNodes_holds s.textList hlen ⟨none, none⟩
    rw [← rc.1, ← rb] at ht
    have h1 := flatten_holds ht s.nodeAt s.nnodes.toNat rfl
    have h1 : s.treeList = treeElements t := by rw [rs] at h1; simpa using h1
    have hr : s.root.toNat = 0 := by rw [c.bounded.root]; rfl
    have d1 := deriveCodes_elements t s.treeAt s.nnodes.toNat h1
    have d3 := deriveCodes_length d1
    refine ⟨treeTable t, ?_, ?_, ?_⟩
    · show deriveCodes s.treeAt s.nnodes.toNat s.root.toNat = _
      rw [hr, d1]
    · show List.map (State.codeLenAt _) _ = _
      rw [hr, d1]
      have := Memory.map_getD_writeRun s.codeLen ((treeTable t).map codeLength) (fun i => (Config.unwritten .codeLen s.draws i).setWidth 8)
      rw [List.length_map, d3] at this
      exact this
    · show List.map (State.codeValAt _) _ = _
      rw [hr, d1]
      have := Memory.map_getD_writeRun s.codeVal ((treeTable t).map codeValue) (fun i => (Config.unwritten .codeVal s.draws i))
      rw [List.length_map, d3] at this
      exact this
  all_goals intro h; simp at h

theorem results_pack {s v : State} (c : State.Shape s) (hp : phaseIn .pack s.phase = true) (r : s.Results)
    (h : packRule s = .ok v) : (v.advance .pack).Results := by
  simp only [packRule] at h
  split at h
  · cases h
  rename_i hng
  cases h
  have hph : s.phase = .derived := by revert hp; simp [phaseIn]
  have hcap := c.bounded.maxGroups.2
  simp only [Config.maxCapacity] at hcap
  constructor
  · intro _; exact r.counted (by simp [hph])
  · intro _; exact r.built (by simp [hph])
  · intro _; exact r.serialized (by simp [hph])
  · intro _; exact r.derived (by simp [hph])
  · intro _
    have hn : (BitVec.ofNat 32 (groupsNeeded s.packedBits.length)).toNat = groupsNeeded s.packedBits.length :=
      toNat_ofNat_small (by omega)
    refine ⟨?_, toNat_ofNat_small (by simp only [groupsNeeded] at hng; omega)⟩
    have := Memory.map_getD_writeRun s.group (packGroups s.packedBits) (fun i => (Config.unwritten .group s.draws i).setWidth 6)
    rw [packGroups_length, ← hn] at this
    exact this
  · intro h; simp at h

theorem results_transcode {s v : State} (hp : phaseIn .transcode s.phase = true) (r : s.Results)
    (h : transcodeRule s = .ok v) : (v.advance .transcode).Results := by
  cases h
  have hph : s.phase = .packed := by revert hp; simp [phaseIn]
  constructor
  · intro _; exact r.counted (by simp [hph])
  · intro _; exact r.built (by simp [hph])
  · intro _; exact r.serialized (by simp [hph])
  · intro _; exact r.derived (by simp [hph])
  · intro _; exact r.packed (by simp [hph])
  · intro _
    have h1 : (transcodeTree s.treeList).length = 2 * s.nnodes.toNat := by
      rw [transcodeTree_length]; simp [State.treeList]
    have h2 : (transcodeBits s.groupList).length = s.ngroups.toNat := by
      simp [transcodeBits, State.groupList]
    constructor
    · have := listedRun_writeRun s.outTree (transcodeTree s.treeList)
      rw [h1] at this; exact this
    · have := listedRun_writeRun s.outBits (transcodeBits s.groupList)
      rw [h2] at this; exact this

theorem results_reset (m g : Nat) : (State.resetWith m g).Results := by
  constructor <;> intro h <;> simp [State.resetWith] at h

theorem results_cleared (s : State) : s.cleared.Results := by
  constructor <;> intro h <;> simp [State.cleared, State.resetWith] at h

theorem results_encode {s : State} (c : State.Shape s) (hp : phaseIn .encode s.phase = true) :
    (runStages encodeStages s).Results := by
  obtain ⟨s1, s2, s3, s4, h1, h2, h3, h4, h5⟩ := runStages_encode s
  have k1 := shape_count c hp h1
  have k2 := shape_build k1 rfl h2
  have k3 := shape_serialize k2 rfl h3
  have k4 := shape_derive k3 rfl h4
  have r4 := results_derive k3 rfl (results_serialize rfl (results_build k1 rfl (results_count h1) h2) h3) h4
  rcases h5 with ⟨e, -, hr⟩ | ⟨s5, s6, h5, h6, hr⟩
  · rw [hr]; exact results_sameShape (sameShape_raise _ _ _) k4 r4
  · rw [hr]; exact results_transcode rfl (results_pack k4 rfl r4 h5) h6

theorem results_exec {s t : State} {i : Instr} (c : State.Shape s) (r : s.Results) (he : exec i s = .next t) :
    t.Results := by
  have perf : ∀ (i : Instr) (rule : Rule),
      (∀ v, phaseIn i s.phase = true → rule s = .ok v → (v.advance i).Results) → (s.perform i rule).Results := by
    intro i rule hk
    rcases perform_cases s i rule with ⟨-, hr⟩ | ⟨-, e, -, hr⟩ | ⟨hp, v, hv, hr⟩ <;> rw [hr]
    · exact results_sameShape (sameShape_raise _ _ _) c r
    · exact results_sameShape (sameShape_raise _ _ _) c r
    · exact hk v hp hv
  cases i <;> cases he
  · exact perf _ _ (fun v _ hv => by cases hv; exact r)
  · exact results_cleared s
  · exact perf _ _ (fun v _ hv => results_push hv)
  · exact perf _ _ (fun v _ hv => results_count hv)
  · exact perf _ _ (fun v hp hv => results_build c hp r hv)
  · exact perf _ _ (fun v hp hv => results_serialize hp r hv)
  · exact perf _ _ (fun v hp hv => results_derive c hp r hv)
  · exact perf _ _ (fun v hp hv => results_pack c hp r hv)
  · exact perf _ _ (fun v hp hv => results_transcode hp r hv)
  · cases hp : phaseIn .encode s.phase
    · simpa [hp] using results_sameShape (sameShape_raise _ _ _) c r
    · simpa [hp] using results_encode c hp
  · exact perf _ _ (fun v _ hv => by cases hv; exact results_sameShape (by constructor <;> rfl) c r)
  · refine perf _ _ (fun v _ hv => ?_)
    unfold unxlateRule at hv
    split at hv
    · cases hv; exact results_sameShape (by constructor <;> rfl) c r
    · cases hv

theorem results_step {s t : State} (c : State.Shape s) (r : s.Results) (he : step s = .next t) : t.Results := by
  obtain ⟨u, hu, -, ev⟩ := step_cases he
  have r := results_sameShape (sameShape_of_sameBlock hu) c r
  have c := shape_sameBlock hu c
  cases ev with
  | quiet e => subst e; exact r
  | command i v _ _ run e => subst e; exact results_sameShape (sameShape_complete v) (shape_exec c run) (results_exec c r run)
  | illegal _ _ _ e => subst e; exact results_sameShape (sameShape_complete _) (shape_raise c _ _) (results_sameShape (sameShape_raise _ _ _) c r)
  | clear e => subst e; exact results_cleared u
  | overrun _ e => subst e; exact results_sameShape (sameShape_overrun u) c r
  | latch w _ _ _ e => subst e; exact results_sameShape (sameShape_latch u w) c r

/-! ## What the results say of the tree and its codes -/

theorem results_tree {s : State} (r : s.Results) (hp : Phase.built.rank ≤ s.phase.rank) :
    ∃ t, Holds s.nodeList s.freqList t := by
  have hc : Phase.counted.rank ≤ s.phase.rank := by simp at hp ⊢; omega
  obtain ⟨t, ht⟩ := buildNodes_holds s.textList (by simp [State.textList]; omega) ⟨none, none⟩
  rw [← (r.counted hc).1, ← r.built hp] at ht
  exact ⟨t, ht⟩

theorem holds_treeList {s : State} (r : s.Results) (hp : Phase.serialized.rank ≤ s.phase.rank) {t}
   (ht : Holds s.nodeList s.freqList t) : s.treeList = treeElements t := by
  have h1 := flatten_holds ht s.nodeAt s.nnodes.toNat rfl
  rw [r.serialized hp] at h1; simpa using h1

theorem emptyTable_getD (n : Nat) : emptyTable.getD n [] = [] := by
  unfold emptyTable
  by_cases h : n < Config.symbolCount
  · simp [List.getD, h]
  · simp [List.getD, h]

theorem storePaths_forall (P : BitString → Prop) (cs : List (Symbol × BitString)) (table : List BitString) (p : BitString)
   (h0 : ∀ q ∈ table, P q) (h : ∀ c ∈ cs, P (p ++ c.2)) : ∀ q ∈ storePaths table p cs, P q := by
  induction cs generalizing table with
  | nil => exact h0
  | cons c cs ih =>
    refine ih _ ?_ (fun d hd => h d (List.mem_cons_of_mem _ hd))
    intro q hq
    rcases List.mem_or_eq_of_mem_set hq with hq | rfl
    · exact h0 q hq
    · exact h c List.mem_cons_self

/-- leaves of the held tree: distinct, at most 256, exactly the symbols with a count. -/
theorem holds_leaves {nodes freq t} (hf : freq.length = 256) (h : Holds nodes freq (some t)) :
    t.leaves.Nodup ∧ t.leaves.length ≤ 256 ∧ ∀ v : Symbol, v ∈ t.leaves ↔ 0 < (freq.getD v.toNat 0).toNat := by
  have hs := h.symbols
  refine ⟨hs.nodup_iff.mpr (initLeaves_nodup freq (by omega)), ?_, fun v => ?_⟩
  · rw [hs.length_eq, List.length_map, initLeaves_length, ← hf]; exact distinctCount_le _
  · rw [hs.mem_iff]; exact mem_initLeaves_symbols freq hf v

theorem codeOf_of_results {s : State} (r : s.Results) (hp : Phase.derived.rank ≤ s.phase.rank)
    {t} (ht : Holds s.nodeList s.freqList t) (hr : s.root = 0) (sym : Symbol) : s.codeOf sym = (treeTable t).getD sym.toNat [] := by
  have hs : Phase.serialized.rank ≤ s.phase.rank := by simp at hp ⊢; omega
  have hc : Phase.counted.rank ≤ s.phase.rank := by simp at hp ⊢; omega
  have d := deriveCodes_elements t s.treeAt s.nnodes.toNat (holds_treeList r hs ht)
  obtain ⟨table, h1, h2, h3⟩ := r.derived hp
  rw [show s.root.toNat = 0 by rw [hr]; rfl, d] at h1
  cases h1
  have hl := deriveCodes_length d
  have hlt : sym.toNat < 256 := sym.isLt
  have g : ∀ {α : Type} (f : Nat → α) (g : BitString → α), (List.range Config.symbolCount).map f = (treeTable t).map g → f sym.toNat = g ((treeTable t).getD sym.toNat []) := by
    intro α f g e
    have := congrArg (·[sym.toNat]?) e
    simpa [Config.symbolCount, hlt, List.getD, hl] using this
  unfold State.codeOf
  rw [g _ _ h2, g _ _ h3]
  apply codeBits_stored
  cases t with
  | none => rw [show treeTable none = emptyTable from rfl, emptyTable_getD]; simp
  | some t =>
    have hfl : s.freqList.length = 256 := by simp [State.freqList, Config.symbolCount]
    obtain ⟨hn, hk, -⟩ := holds_leaves hfl ht
    have hall : ∀ q ∈ t.table, q.length ≤ 255 := by
      rw [t.table_eq]
      refine storePaths_forall _ _ _ _ ?_ ?_
      · intro q hq
        rw [List.eq_of_mem_replicate hq]; simp
      · intro c hc'; simpa using t.codes_length hk c hc'
    have : (treeTable (some t)).getD sym.toNat [] ∈ t.table := by
      show t.table.getD _ _ ∈ _
      have : sym.toNat < t.table.length := by rw [show t.table.length = 256 from hl]; exact hlt
      simp [List.getD, this]
    exact hall _ this

theorem mem_codes_getD (t : CodeTree) (hn : t.leaves.Nodup) (v : Symbol) (hv : v ∈ t.leaves) :
    (v, t.table.getD v.toNat []) ∈ t.codes := by
  rw [← t.codes_symbols] at hv
  obtain ⟨c, hc, rfl⟩ := List.mem_map.mp hv
  rw [t.table_getD hn c hc]; exact hc

theorem replicate_of_all (l : List Symbol) (v : Symbol) (h : ∀ x ∈ l, x = v) : l = List.replicate l.length v :=
  List.eq_replicate_iff.mpr ⟨rfl, h⟩

theorem freq_pos_of_mem {s : State} (r : s.Results) (hc : Phase.counted.rank ≤ s.phase.rank) (v : Symbol) (hv : v ∈ s.textList) :
   0 < (s.freqList.getD v.toNat 0).toNat := by
  rw [(r.counted hc).1]
  have := frequencyTable_getElem? s.textList v.toNat v.isLt
  rw [List.getD, this]
  have hlen : s.textList.length < 2 ^ 32 := by simp [State.textList]; omega
  have h1 : s.textList.count v ≤ s.textList.length := List.count_le_length
  have h2 : 0 < s.textList.count v := List.count_pos_iff.mpr hv
  simp only [Option.getD_some, BitVec.ofNat_toNat, BitVec.setWidth_eq]
  rw [toNat_ofNat_small (by omega)]; exact h2

end Sys2Proof.Machine
end

