-- ==== Sys2Proof/Tests/Slice0.lean ====
section
/-! SUPPORT. Small tests, each on one step, with results taken from spec/95_test_vectors.md or worked out by hand
from the rules; and for every statement with hypotheses a state and operands that meet them. -/

namespace Sys2Proof.Machine

/-! ## Helpers -/

/-- What a step's answer says of its next state. -/
def ofNext {α : Type} (o : Host.Outcome State Fault Refusal) (f : State → α) : Option α :=
  match o with
  | .next t => some (f t)
  | .fault _ => none
  | .refused _ => none

/-- The state after some commands. -/
def after : List Instr → State → State
  | [], s => s
  | i :: is, s =>
    match exec i s with
    | .next t => after is t
    | .fault _ => s
    | .refused _ => s

/-- The state of a block of capacities `m` and `g` after pushing a text and some commands. -/
def reach (m g : Nat) (text : List Nat) (is : List Instr) : State :=
  after (text.map (fun n => .push (BitVec.ofNat 8 n)) ++ is) (State.resetWith m g)

theorem after_keeps (is : List Instr) (s : State) (h : State.Shape s) (r : s.Results) (l : s.LatchSound)
    (b : s.busy = false) : (after is s).Sound ∧ (after is s).Results := by
  induction is generalizing s with
  | nil =>
    exact ⟨⟨h.bounded, l, fun hb => (by rw [show (after [] s).busy = s.busy from rfl, b] at hb; cases hb), h.canonical, h.listed⟩, r⟩
  | cons i is ih =>
    obtain ⟨t, ht⟩ := exec_next i s
    rw [after, ht]
    exact ih t (shape_exec h ht) (results_exec h r ht) (latch_exec l ht) (idle_exec b ht)

theorem reach_keeps (text : List Nat) (is : List Instr) {m g : Nat} (hm : 1 ≤ m ∧ m ≤ 4194304)
    (hg : 1 ≤ g ∧ g ≤ 4194304) : (reach m g text is).Sound ∧ (reach m g text is).Results :=
  after_keeps _ _ (shape_reset hm hg) (results_reset m g)
    ⟨fun _ => ⟨rfl, rfl, rfl⟩, (fun h => by cases h), fun _ => rfl⟩ rfl

/-- A sound state with a latched word, whatever the word but CLEAR. -/
theorem latch_keeps {s : State} (h : s.Sound) (r : s.Results) (he : s.err = false) {w : Word} (hw : w ≠ clearWord) :
    (s.latch w).Sound ∧ (s.latch w).Results := by
  have k := shape_sameShape (sameShape_latch s w) ⟨h.bounded, h.canonical, h.listed⟩
  exact ⟨⟨k.bounded, latch_of_fields h.latch rfl rfl rfl rfl, fun _ => ⟨he, rfl, hw⟩, k.canonical, k.listed⟩,
    results_sameShape (sameShape_latch s w) ⟨h.bounded, h.canonical, h.listed⟩ r⟩

/-! ## Decoding: words written out bit by bit from 30_encoding.md R80 and R84 -/

/-- OP = 0x00, no operand. -/
theorem test_decode_nop : decode 0b00000000000000000000000000000000#32 = .ok .nop := by decide

/-- OP = 0x01, no operand (R86). -/
theorem test_decode_clear : decode 0b00000001000000000000000000000000#32 = .ok .clear := by decide

/-- OP = 0x02, sym = 0xFF, the largest symbol. -/
theorem test_decode_push : decode 0b00000010000000000000000011111111#32 = .ok (.push 255) := by decide

/-- OP = 0x03 to 0x09, no operand. -/
theorem test_decode_stages :
    decode 0b00000011000000000000000000000000#32 = .ok .count ∧
    decode 0b00000100000000000000000000000000#32 = .ok .build ∧
    decode 0b00000101000000000000000000000000#32 = .ok .serialize ∧
    decode 0b00000110000000000000000000000000#32 = .ok .derive ∧
    decode 0b00000111000000000000000000000000#32 = .ok .pack ∧
    decode 0b00001000000000000000000000000000#32 = .ok .transcode ∧
    decode 0b00001001000000000000000000000000#32 = .ok .encode := by decide

/-- OP = 0x0A, v = 50. -/
theorem test_decode_xlate : decode 0b00001010000000000000000000110010#32 = .ok (.xlate 50) := by decide

/-- OP = 0x0B, b = 93. -/
theorem test_decode_unxlate : decode 0b00001011000000000000000001011101#32 = .ok (.unxlate 93) := by decide

/-- The illegal words of V-C2 to V-C6, V-F3 and V-T2. -/
theorem test_decode_illegal :
    decode 0x00000001#32 = .error .operandBits ∧ decode 0x00010000#32 = .error .reservedBits ∧
    decode 0x0C000000#32 = .error .reservedOpcode ∧ decode 0xFF000000#32 = .error .reservedOpcode ∧
    decode 0x01000001#32 = .error .operandBits ∧ decode 0x02000100#32 = .error .operandBits ∧
    decode 0x0A000040#32 = .error .operandBits := by decide

/-- The twelve words of the opcode table. -/
def tableWords : List Nat :=
  [0x00000000, 0x01000000, 0x02000061, 0x03000000, 0x04000000, 0x05000000, 0x06000000, 0x07000000, 0x08000000,
    0x09000000, 0x0A000032, 0x0B00005D]

/-- Every row decodes, and runs as the first command after reset. -/
theorem test_table_words_run :
    ∀ w ∈ tableWords, (decodeTableWord 32 w).isSome = true ∧
      goesOn (step (State.reset.withFetchWord 32 w)) = true := by decide +kernel

/-! ## Well-formedness: ill-formed terms the checks refuse -/

/-- 20_memory.md R61: width, alignment, aperture. -/
theorem test_access_ill_formed :
    Access.wellFormed ⟨0x004, 2, .read⟩ = false ∧ Access.wellFormed ⟨0x006, 4, .read⟩ = false ∧
    Access.wellFormed ⟨0x4000000, 4, .read⟩ = false ∧ Access.wellFormed ⟨0x3FFFFFC, 4, .read⟩ = true ∧
    HostAction.wellFormed (.access ⟨0x004, 1, .write 0⟩) = false := by decide

/-- 30_encoding.md R88: operands out of range, missing, or of the wrong kind. -/
theorem test_line_ill_formed :
    Line.wellFormed ⟨.push, some (.number 256)⟩ = false ∧ Line.wellFormed ⟨.xlate, some (.number 64)⟩ = false ∧
    Line.wellFormed ⟨.unxlate, some (.number 256)⟩ = false ∧
    Line.wellFormed ⟨.word, some (.number 4294967296)⟩ = false ∧ Line.wellFormed ⟨.push, none⟩ = false ∧
    Line.wellFormed ⟨.nop, some (.number 0)⟩ = false ∧ Line.wellFormed ⟨.xlate, some (.character 'a')⟩ = false ∧
    Line.wellFormed ⟨.push, some (.character 'é')⟩ = false ∧
    Line.wellFormed ⟨.pushs, some (.quoted ['é'])⟩ = false ∧
    Line.wellFormed ⟨.push, some (.number 255)⟩ = true := by decide

/-! ## The assembler -/

/-- Lines of programs P1 to P3, and a comment. -/
theorem test_assemble_lines :
    assemble [['P', 'U', 'S', 'H', ' ', '\'', 'a', '\'', ' ', ';', ' ', 'x'], [], ['X', 'L', 'A', 'T', 'E', ' ', '5', '0'],
        ['U', 'N', 'X', 'L', 'A', 'T', 'E', ' ', '0', 'x', '4', 'B']] =
      some [writeCmd 0x02000061#32, writeCmd 0x0A000032#32, writeCmd 0x0B00004B#32] := by decide

/-- A lower-case mnemonic and an operand out of range are rejected. -/
theorem test_assemble_rejects :
    assemble [['n', 'o', 'p']] = none ∧ assemble [['P', 'U', 'S', 'H', ' ', '2', '5', '6']] = none := by decide

/-! ## One step of each command -/

/-- V-C1: NOP from reset gives STATUS 0x00000002. -/
theorem test_nop_status :
    ofNext (step (State.reset.withFetchWord 32 0x00000000)) State.statusWord = some 0x00000002#32 := by
  decide +kernel

/-- V-C7: a command is ignored while ERR = 1. -/
theorem test_ignored_after_error :
    ofNext (submit 0x02000061#32 ((State.resetWith 64 64).raiseError .illegalCmd 0)) State.busy = some false := by
  decide +kernel

/-- V-C10: CLEAR cancels a running ENCODE. -/
theorem test_clear_while_busy :
    ofNext (submit 0x01000000#32 ((reach 64 64 [97] []).latch 0x09000000#32)) (fun t => (t.statusWord, t.len)) =
      some (0x00000002#32, 0#32) := by decide +kernel

/-- V-F1: PUSH 0x61 from reset. -/
theorem test_push_first :
    ofNext (exec (.push 0x61) (State.resetWith 64 64)) (fun t => (t.len, t.text, t.phase)) =
      some (1#32, [(0, 0x61#8)], .loaded) := by decide +kernel

/-- P5: the third PUSH with MAX_LEN = 2 is TEXT_FULL. -/
theorem test_push_full :
    ofNext (exec (.push 122) (reach 2 64 [120, 121] [])) (fun t => (t.errCode, t.len)) =
      some (.textFull, 2#32) := by decide +kernel

/-- V-F8: the bytes 255, 0, 255. -/
theorem test_count_ends :
    ofNext (exec .count (reach 64 64 [255, 0, 255] []))
      (fun t => (t.freq.read? 0, t.freq.read? 255, t.freq.read? 7, t.nsym)) =
      some (some 1#32, some 2#32, some 0#32, 2#32) := by decide +kernel

/-- V-B3, "aabbc": the tie between a leaf and an older node. -/
theorem test_build_tie :
    ofNext (exec .build (reach 64 64 [97, 97, 98, 98, 99] [.count])) (fun t => (t.node.read? 3, t.node.read? 4)) =
      some (some ⟨.internal, 0, 3, false, 0, 2⟩, some ⟨.internal, 0, 5, true, 3, 1⟩) := by decide +kernel

/-- V-S3, "aabbc". -/
theorem test_serialize_tree :
    ofNext (exec .serialize (reach 64 64 [97, 97, 98, 98, 99] [.count, .build])) (fun t => t.tree.map Prod.snd) =
      some [-4, -3, 97, 99, 98] := by decide +kernel

/-- V-D3, "aabbc": 97 has "00", 99 has "01" and 98 has "1". -/
theorem test_derive_codes :
    ofNext (exec .derive (reach 64 64 [97, 97, 98, 98, 99] [.count, .build, .serialize]))
      (fun t => (t.codeLen.read? 97, t.codeVal.read? 99, t.codeLen.read? 98, t.codeVal.read? 98, t.codeLen.read? 0)) =
      some (some 2, some 1, some 1, some 1, some 0) := by decide +kernel

/-- V-D5: the lone leaf has the one-bit code "0". -/
theorem test_derive_single :
    ofNext (exec .derive (reach 64 64 [120] [.count, .build, .serialize]))
      (fun t => (t.codeLen.read? 120, t.codeVal.read? 120)) = some (some 1, some 0) := by decide +kernel

/-- V-P5, "aabbc": 00001101 and two groups. -/
theorem test_pack_groups :
    ofNext (exec .pack (reach 64 64 [97, 97, 98, 98, 99] [.count, .build, .serialize, .derive]))
      (fun t => (t.totalBits, t.ngroups, t.group.map Prod.snd)) = some (8, 2, [3, 16]) := by decide +kernel

/-- The same text with MAX_GROUPS = 1 (45_bit_packer.md R202). -/
theorem test_pack_overflow :
    ofNext (exec .pack (reach 64 1 [97, 97, 98, 98, 99] [.count, .build, .serialize, .derive]))
      (fun t => (t.errCode, t.errAux, t.ngroups, t.phase)) = some (.outOverflow, 2, 0, .derived) := by decide +kernel

/-- V-T3, "aab". -/
theorem test_transcode_segments :
    ofNext (exec .transcode (reach 64 64 [97, 97, 98] [.count, .build, .serialize, .derive, .pack]))
      (fun t => (t.outTree.map Prod.snd, t.outBits.map Prod.snd)) =
      some ([49, 105, 51, 75, 51, 76], [50]) := by decide +kernel

/-- V-T3, "ab", by ENCODE. -/
theorem test_encode_ab :
    ofNext (exec .encode (reach 64 64 [97, 98] []))
      (fun t => (t.outTree.map Prod.snd, t.outBits.map Prod.snd, t.phase)) =
      some ([49, 105, 51, 76, 51, 75], [74], .transcoded) := by decide +kernel

/-- P6: the empty text. -/
theorem test_encode_empty :
    ofNext (exec .encode (State.resetWith 64 64)) (fun t => (t.nnodes, t.ngroups, t.outTree.length, t.outBits.length, t.phase)) =
      some (0, 0, 0, 0, .transcoded) := by decide +kernel

/-- V-T2: the skip at 92. -/
theorem test_xlate_skip :
    ofNext (exec (.xlate 50) (State.resetWith 64 64)) State.result = some 93#32 := by decide +kernel

/-- V-T2: the byte after the skip, and the skipped one. -/
theorem test_unxlate_skip :
    ofNext (exec (.unxlate 93) (State.resetWith 64 64)) State.result = some 50#32 ∧
    ofNext (exec (.unxlate 92) (State.resetWith 64 64)) (fun t => (t.errCode, t.result)) =
      some (.badOperand, 0#32) := by decide +kernel

/-- P3: BUILD from EMPTY is SEQUENCE, STATUS 0x00000206. -/
theorem test_sequence_status :
    ofNext (step ((State.resetWith 64 64).withFetchWord 32 0x04000000)) (fun t => (t.statusWord, t.errInfo)) =
      some (0x00000206#32, 0x04000000#32) := by decide +kernel

/-- V-C9: a write while BUSY = 1 is dropped and sets OVERRUN. -/
theorem test_overrun :
    ofNext (submit 0x02000062#32 ((State.resetWith 64 64).latch 0x02000061#32)) (fun t => (t.statusWord, t.pending)) =
      some (0x00000009#32, 0x02000061#32) := by decide +kernel

/-- The node window of P2: node 0 and node 2 of "aab". -/
theorem test_node_window :
    (reach 64 64 [97, 97, 98] [.count, .build]).readWord 0x2004 = some 0x6100#32 ∧
    (reach 64 64 [97, 97, 98] [.count, .build]).readWord 0x2024 = some 0x3#32 ∧
    (reach 64 64 [97, 97, 98] [.count, .build]).readWord 0x202C = some 1#32 := by decide +kernel

/-! ## The decode contract -/

/-- The "abracadabra" tree segment of V-T3. -/
def sampleTree : List Symbol := [49, 99, 49, 102, 49, 103, 51, 93, 51, 76, 49, 100, 51, 78, 51, 77, 51, 75]

/-- V-X1. -/
theorem test_decode_sample :
    decodeOutput sampleTree [78, 65, 62, 76] 11 0 =
      .ok [97, 98, 114, 97, 99, 97, 100, 97, 98, 114, 97] := by decide +kernel

/-- V-X2: one case for each error kind. -/
theorem test_decode_errors :
    decodeOutput sampleTree.dropLast [78, 65, 62, 76] 11 0 = .error .oddTree ∧
    decodeOutput sampleTree [92, 65, 62, 76] 11 0 = .error .badChar ∧
    decodeOutput [] [78] 1 0 = .error .emptyTree ∧ decodeOutput [] [] 0 0 = .ok [] ∧
    decodeOutput [49, 106, 51, 75] [42] 1 0 = .error .badElement ∧
    decodeOutput [51, 75, 51, 76, 49, 105] [42] 1 2 = .error .badIndex ∧
    decodeOutput sampleTree [78, 65] 11 0 = .error .bitsExhausted ∧
    decodeOutput [51, 75] [74] 1 0 = .error .badBranch := by decide +kernel

/-- 48_decode_contract.md R247: the degenerate round trips. -/
theorem test_decode_degenerate :
    decodeOutput [51, 75] [42] 5 0 = .ok [97, 97, 97, 97, 97] ∧ decodeOutput [51, 75] [42] 7 0 = .error .bitsExhausted := by
  decide +kernel

/-! ## Witnesses: states and operands that meet each statement's hypotheses -/

/-- The stages up to each phase. -/
def upTo : Nat → List Instr
  | 0 => []
  | 1 => [.count]
  | 2 => [.count, .build]
  | 3 => [.count, .build, .serialize]
  | 4 => [.count, .build, .serialize, .derive]
  | 5 => [.count, .build, .serialize, .derive, .pack]
  | _ => [.count, .build, .serialize, .derive, .pack, .transcode]

/-- Texts with no symbol, one, and two distinct ones. -/
def sampleTexts : List (List Nat) := [[], [97], [97, 97, 98]]

/-- A sample state, at capacities 64 and 64. -/
def sample (text : List Nat) (n : Nat) : State := reach 64 64 text (upTo n)

theorem sample_keeps (text : List Nat) (n : Nat) : (sample text n).Sound ∧ (sample text n).Results :=
  reach_keeps text (upTo n) (by decide) (by decide)

theorem sample_symbols :
    (sample [] 1).nsym = 0 ∧ (sample [97] 1).nsym = 1 ∧ (sample [97, 97, 98] 1).nsym = 2 ∧
    (sample [97, 97, 98] 6).nsym = 2 ∧ (sample [97] 6).nsym = 1 ∧ (sample [] 6).nsym = 0 ∧
    (sample [] 2).nnodes = 0 ∧ (sample [97] 2).nnodes = 1 ∧ (sample [97, 97, 98] 2).nnodes = 3 := by decide +kernel

/-- BuildMergesGreedily, SerializeListsTheTree, DeriveWritesTheCodes, PackWritesTheGroups, TranscodeWritesTheSegments:
a sound state with true results in each command's phase, for a text with no, one and two distinct symbols. -/
theorem witness_stage_commands : ∀ text ∈ sampleTexts,
    ∀ c ∈ [(1, Phase.counted), (2, .built), (3, .serialized), (4, .derived), (5, .packed), (6, .transcoded)],
    (sample text c.1).Sound ∧ (sample text c.1).Results ∧ (sample text c.1).phase = c.2 := by
  intro text ht c hc
  refine ⟨(sample_keeps text c.1).1, (sample_keeps text c.1).2, ?_⟩
  revert c text
  decide +kernel

/-- CountFillsTheTable, EncodeRunsThePipeline: a sound state in each phase they run in, and one past them. -/
theorem witness_loadable :
    (sample [] 0).Sound ∧ (sample [] 0).phase = .empty ∧ (sample [97, 97, 98] 0).Sound ∧
    (sample [97, 97, 98] 0).phase = .loaded ∧ Phase.counted.rank ≤ (sample [97] 1).phase.rank :=
  ⟨(sample_keeps _ _).1, by decide +kernel, (sample_keeps _ _).1, by decide +kernel, by decide +kernel⟩

/-- The invariants' statements from each phase on, with k >= 2: RootIsTheOnlyLiveNode, NodesFormAFullBinaryTree,
WeightsCountTheText, TreeElementsAreInRange, CodesArePrefixFree, CodesMeetKraftsSum, TotalBitsIsTheWeightedLength,
SegmentsAreSafeAndSized, RoundTrip, ValidElementsAreRead. -/
theorem witness_whole_run :
    (sample [97, 97, 98] 6).Sound ∧ (sample [97, 97, 98] 6).Results ∧ (sample [97, 97, 98] 6).phase = .transcoded ∧
    (sample [97, 97, 98] 6).nsym = 2 ∧ (sample [97, 97, 98] 6).busy = false :=
  ⟨(sample_keeps _ _).1, (sample_keeps _ _).2, by decide +kernel, by decide +kernel, by decide +kernel⟩

/-- WeightsCountTheText: the trees that the store of "aab" pictures from a leaf and from the root (the third node, whose
right child is the lighter leaf). -/
theorem witness_WeightsCountTheText :
    Pictures (sample [97, 97, 98] 6).nodeAt (.leaf 97) 0 ∧
    Pictures (sample [97, 97, 98] 6).nodeAt (.branch (.leaf 97) (.leaf 98)) 2 ∧
    (sample [97, 97, 98] 6).nnodes = 3 :=
  ⟨⟨by decide +kernel, by decide +kernel⟩,
    ⟨by decide +kernel, ⟨by decide +kernel, by decide +kernel⟩, by decide +kernel, by decide +kernel⟩, by decide +kernel⟩

/-- A sound state after a completion. -/
theorem complete_keeps {s : State} (h : s.Sound) (r : s.Results) : s.complete.Sound ∧ s.complete.Results := by
  have k := shape_sameShape (sameShape_complete s) ⟨h.bounded, h.canonical, h.listed⟩
  exact ⟨⟨k.bounded, latch_of_fields h.latch rfl rfl rfl rfl, fun hb => (by cases hb), k.canonical, k.listed⟩,
    results_sameShape (sameShape_complete s) ⟨h.bounded, h.canonical, h.listed⟩ r⟩

/-- RoundTrip, SegmentsAreSafeAndSized: a run that has ended. -/
theorem witness_RoundTrip :
    (sample [97, 97, 98] 6).complete.Sound ∧ (sample [97, 97, 98] 6).complete.Results ∧
    (sample [97, 97, 98] 6).complete.runEnded = true :=
  ⟨(complete_keeps (sample_keeps _ _).1 (sample_keeps _ _).2).1,
    (complete_keeps (sample_keeps _ _).1 (sample_keeps _ _).2).2, by decide +kernel⟩

/-- DecodeFollowsTheRows, IllegalWords: a word that matches a row, and words that match none, one for each
case. -/
theorem witness_words :
    (0x020000FF#32 &&& 0xFFFFFF00#32 = 0x02000000#32) ∧
    (∀ w ∈ [0x0C000000#32, 0xFF000000#32, 0x00010000#32, 0x02000100#32, 0x0A000040#32],
      ∀ r ∈ rows, w &&& r.mask ≠ r.pattern) ∧
    (∀ w ∈ [0x0C000000#32, 0x00010000#32, 0x0A000040#32], ∃ c, decode w = .error c) ∧
    ((State.resetWith 64 64).latch 0x0C000000#32).pending = 0x0C000000#32 :=
  ⟨by decide, by simp [rows], fun w hw => by
    simp only [List.mem_cons, List.not_mem_nil, or_false] at hw
    rcases hw with rfl | rfl | rfl <;> exact ⟨_, rfl⟩, rfl⟩

/-- A block whose host polls next, with a NOP to write after that. -/
def hostWaits (s : State) : State := { s with script := [.wait, writeCmd 0x00000000#32], turns := [.host] }

/-- PseudoInstructionsExpand: an ASCII character before an ASCII string; WAIT next on the host's turn, with BUSY = 1
and with BUSY = 0. -/
theorem witness_PseudoInstructionsExpand :
    'z'.toNat < 128 ∧ (assembleLine ⟨.pushs, some (.quoted ['a', 'b'])⟩).isSome = true ∧
    nextAgent (hostWaits (State.resetWith 64 64)) = .host ∧
    (hostWaits (State.resetWith 64 64)).busy = false ∧
    nextAgent (hostWaits ((State.resetWith 64 64).latch 0x03000000#32)) = .host ∧
    (hostWaits ((State.resetWith 64 64).latch 0x03000000#32)).busy = true := by decide

/-- 30_encoding.md section 5: WAIT reads STATUS and goes on polling while it reads BUSY = 1. -/
theorem test_wait_polls :
    ofNext (step (hostWaits ((State.resetWith 64 64).latch 0x03000000#32))) (fun t => (t.received, t.script.length)) =
      some ([0x00000001#32], 2) ∧
    ofNext (step (hostWaits (State.resetWith 64 64))) (fun t => (t.received, t.script.length)) =
      some ([0x00000000#32], 1) := by decide

/-- StepRunsTheLatchedCommand: a busy state on the engine's turn whose word decodes. -/
theorem witness_StepRunsTheLatchedCommand :
    ((State.resetWith 64 64).latch 0x02000061#32).busy = true ∧
    nextAgent ((State.resetWith 64 64).latch 0x02000061#32) = .engine ∧
    decode ((State.resetWith 64 64).latch 0x02000061#32).pending = .ok (.push 0x61) := by decide

/-- A block whose host writes a word next. -/
def hostWrites (s : State) (w : Word) : State := { s with script := [writeCmd w], turns := [.host] }

/-- CmdWriteIsAcceptedInOrder, OnlyClearActsAtTheWrite, BusyFollowsTheHandshake, ErrorLatchIsSticky: host writes in
an idle, a busy and a failed state. -/
theorem witness_host_writes :
    nextAgent (hostWrites (State.resetWith 64 64) 0x02000061#32) = .host ∧
    goesOn (step (hostWrites (State.resetWith 64 64) 0x02000061#32)) = true ∧
    goesOn (step (hostWrites ((State.resetWith 64 64).latch 0x03000000#32) 0x02000061#32)) = true ∧
    goesOn (step (hostWrites ((State.resetWith 64 64).raiseError .sequence 0) 0x01000000#32)) = true ∧
    opField 0x01000001#32 = 0x01 ∧ (0x01000001#32 ≠ 0x01000000#32) := by decide

/-- The same states' CLEAR is the next step. -/
theorem witness_clearsNext : (hostWrites ((State.resetWith 64 64).raiseError .sequence 0) 0x01000000#32).clearsNext :=
  ⟨rfl, [], rfl⟩

/-- ErrorLatchIsSticky: a sound state with ERR = 1, whose host reads next, and one whose host writes CLEAR next. -/
theorem witness_ErrorLatchIsSticky :
    (reach 64 64 [97] [.build]).Sound ∧ (reach 64 64 [97] [.build]).err = true ∧
    goesOn (step (reach 64 64 [97] [.build])) = true :=
  ⟨(reach_keeps _ _ (by decide) (by decide)).1, by decide +kernel, by decide +kernel⟩

/-- LatchedCommandCompletes: a busy state with turns left and a host that polls and then writes. -/
theorem witness_LatchedCommandCompletes :
    ({ (State.resetWith 64 64).latch 0x03000000#32 with
      script := [.wait, writeCmd 0x02000061#32], turns := [.host, .host] } : State).busy = true ∧
    ({ (State.resetWith 64 64).latch 0x03000000#32 with
      script := [.wait, writeCmd 0x02000061#32], turns := [.host, .host] } : State).safeScript = true := by decide

/-- NopChangesNothing: a word with OP = 0 that is not NOP; NOP latched; a failed idle state. -/
theorem witness_NopChangesNothing :
    opField 0x00000001#32 = 0 ∧ (0x00000001#32 ≠ 0#32) ∧
    ((State.resetWith 64 64).latch 0x00000000#32).busy = true ∧
    ((State.resetWith 64 64).latch 0x00000000#32).pending = 0x00000000#32 ∧
    ((State.resetWith 64 64).raiseError .sequence 0).busy = false ∧
    ((State.resetWith 64 64).raiseError .sequence 0).err = true := by decide

/-- ClearRestoresReset, ResetLeaves: a location that is neither a register nor reserved. -/
theorem witness_window : (∀ r, Location.tree 0 ≠ .register r) ∧ Location.tree 0 ≠ .reserved := by
  exact ⟨(fun r h => by cases h), by decide⟩

/-- ErrorEntry: a sound busy state whose command fails. -/
theorem witness_ErrorEntry :
    ((sample [97] 0).latch 0x04000000#32).Sound ∧ ((sample [97] 0).latch 0x04000000#32).busy = true ∧
    ofNext (engineTurn ((sample [97] 0).latch 0x04000000#32)) State.err = some true :=
  ⟨(latch_keeps (sample_keeps _ _).1 (sample_keeps _ _).2 (by decide +kernel) (by decide)).1, by decide +kernel,
    by decide +kernel⟩

/-- ErrorsArePrecise, ErrorCodesByCause: a command that fails with each code, ENCODE's overflow among them. -/
theorem witness_errors :
    ofNext (exec .build (State.resetWith 64 64)) (fun t => (t.err, t.errCode)) = some (true, .sequence) ∧
    ofNext (exec (.unxlate 41) (State.resetWith 64 64)) (fun t => (t.err, t.errCode)) = some (true, .badOperand) ∧
    ofNext (exec (.push 97) (reach 1 64 [97] [])) (fun t => (t.err, t.errCode)) = some (true, .textFull) ∧
    ofNext (exec .pack (reach 64 1 [97, 98, 97, 98, 97, 98, 97] (upTo 4))) (fun t => (t.err, t.errCode)) =
      some (true, .outOverflow) ∧
    ofNext (exec .encode (reach 64 1 [97, 98, 97, 98, 97, 98, 97] [])) (fun t => (t.err, t.errCode, t.phase)) =
      some (true, .outOverflow, .derived) ∧
    (State.resetWith 64 64).errCode = .none := by decide +kernel

/-- ChecksRunInOrder: an illegal word, a command out of phase with LEN = MAX_LEN, and a command in phase that
fails. -/
theorem witness_ChecksRunInOrder :
    decode ((State.resetWith 64 64).latch 0x0C000000#32).pending = .error .reservedOpcode ∧
    decode ((reach 1 64 [97] [.count]).latch 0x02000061#32).pending = .ok (.push 0x61) ∧
    phaseIn (.push 0x61) ((reach 1 64 [97] [.count]).latch 0x02000061#32).phase = false ∧
    phaseIn (.push 0x61) ((reach 1 64 [97] []).latch 0x02000061#32).phase = true ∧
    ((reach 1 64 [97] []).latch 0x02000061#32).err = false ∧
    ofNext (completeCommand ((reach 1 64 [97] []).latch 0x02000061#32)) State.err = some true := by decide +kernel

/-- OverrunDoesNotDisturb: a running command and a word that is dropped. -/
theorem witness_OverrunDoesNotDisturb :
    ((State.resetWith 64 64).latch 0x02000061#32).busy = true ∧ (0x02000062#32 ≠ 0x01000000#32) ∧
    ((State.resetWith 64 64).latch 0x02000061#32).pending ≠ 0x01000000#32 ∧
    goesOn (engineTurn ((State.resetWith 64 64).latch 0x02000061#32)) = true := by decide

/-- PushAppendsTheSymbol: LEN at MAX_LEN - 1 and at MAX_LEN, PHASE at COUNTED, IMM at 255 and at 256. -/
theorem witness_PushAppendsTheSymbol :
    (reach 2 64 [97] []).Sound ∧ (reach 2 64 [97] []).phase = .loaded ∧
    (reach 2 64 [97] []).len.toNat + 1 = (reach 2 64 [97] []).maxLen ∧
    (reach 2 64 [97, 98] []).len.toNat = (reach 2 64 [97, 98] []).maxLen ∧
    (reach 2 64 [97, 98] []).phase = .loaded ∧ Phase.counted.rank ≤ (sample [97] 1).phase.rank ∧
    (immField 0x020000FF#32).toNat = 255 ∧ (immField 0x02000100#32).toNat = 256 ∧
    opField 0x02000100#32 = 0x02 ∧ rsvField 0x02000100#32 = 0 :=
  ⟨(reach_keeps _ _ (by decide) (by decide)).1, by decide +kernel, by decide +kernel, by decide +kernel,
    by decide +kernel, by decide +kernel, by decide, by decide, by decide, by decide⟩

/-- CountIgnoresTheOrder: two texts that differ in order alone. -/
theorem witness_CountIgnoresTheOrder :
    (sample [97, 98, 97] 0).textList.Perm (sample [97, 97, 98] 0).textList ∧
    (sample [97, 98, 97] 0).textList ≠ (sample [97, 97, 98] 0).textList ∧
    (sample [97, 98, 97] 0).phase = .loaded ∧ (sample [97, 97, 98] 0).phase = .loaded := by decide +kernel

/-- LeavesStandInSymbolOrder, SelectTakesTheTwoLeast, MergeMakesAnInternalNode: a table of counts, and a store with
three live nodes. -/
theorem witness_builder :
    (frequencyTable [97, 97, 98]).length = 256 ∧
    select2 [leafNode 97 2, leafNode 98 2, leafNode 99 1] = ⟨some 2, some 0⟩ ∧
    (List.replicate 510 (leafNode 0 0)).length ≤ 510 := by decide +kernel

/-- PackWritesTheGroups, StreamingPackerAgrees: exactly MAX_GROUPS groups, one more, and the empty text. -/
theorem witness_PackWritesTheGroups :
    (reach 64 1 [97, 98, 97, 98, 97, 98] (upTo 4)).Sound ∧
    (reach 64 1 [97, 98, 97, 98, 97, 98] (upTo 4)).phase = .derived ∧
    ((reach 64 1 [97, 98, 97, 98, 97, 98] (upTo 4)).packedBits.length + 5) / 6 = 1 ∧
    ((reach 64 1 [97, 98, 97, 98, 97, 98, 97] (upTo 4)).packedBits.length + 5) / 6 = 2 ∧
    (sample [] 4).len = 0 ∧ ofNext (exec .pack (sample [97, 97, 98] 4)) State.phase = some .packed :=
  ⟨(reach_keeps _ _ (by decide) (by decide)).1, by decide +kernel, by decide +kernel, by decide +kernel,
    by decide +kernel, by decide +kernel⟩

/-- XlateMapsTheValue, UnxlateMapsTheByteBack, TranscodingIsInvertible: the ends of each range. -/
theorem witness_mappings :
    (immField 0x0A00003F#32).toNat = 63 ∧ (immField 0x0A000040#32).toNat = 64 ∧
    (∀ b ∈ [42#8, 91#8, 93#8, 106#8], isSafe b = true) ∧ (∀ b ∈ [41#8, 92#8, 107#8], isSafe b = false) ∧
    (immField 0x0B0000FF#32).toNat = 255 ∧ (immField 0x0B000100#32).toNat = 256 := by decide

/-- DecodeGivesNSymbolsAndIgnoresPadding, its first part: a decode that succeeds by a lone leaf, on five bits, and by a
tree, on 23; safe characters that begin with those bits and differ in the padding of the last one; N = 0. -/
theorem witness_DecodeGivesNSymbolsAndIgnoresPadding :
    decodeOutput [51, 75] [42] 5 0 = .ok [97, 97, 97, 97, 97] ∧
    (bitsOf [42]).take 5 <+: bitsOf [43, 106] ∧ bitsOf [43] ≠ bitsOf [42] ∧
    (decodeOutput sampleTree [78, 65, 62, 76] 11 0).toBool = true ∧
    (bitsOf [78, 65, 62, 76]).take 23 <+: bitsOf [78, 65, 62, 77] ∧
    (∀ b ∈ [42#8, 43#8, 78#8, 65#8, 62#8, 76#8, 77#8, 106#8], 42 ≤ b.toNat ∧ b.toNat ≤ 106 ∧ b.toNat ≠ 92) ∧
    decodeOutput [92] [42] 0 0 = .error .oddTree ∧ decodeOutput [51, 75] [42] 0 9 = .ok [] := by decide +kernel

/-- Its checks, each with the earlier ones passed: an odd tree segment, characters just outside T's range, N = 0, no
element, elements just outside the range of two (256, -1, -2) and at its ends, and a root at n and at n - 1. -/
theorem witness_decode_checks :
    ([42#8].length % 2 = 1 ∧ ∀ b ∈ [41#8, 92#8, 107#8], b.toNat ≤ 41 ∨ b.toNat = 92 ∨ 107 ≤ b.toNat) ∧
    elementsOf [54, 42, 50, 42] = [256, 0] ∧ elementsOf [49, 106, 51, 75] = [-1, 97] ∧
    elementsOf [49, 105, 51, 75] = [-2, 97] ∧ elementsOf [53, 106, 50, 42] = [255, 0] ∧
    (∀ e ∈ [255, 0], e ≤ 255 ∧ e ≠ -1 ∧ -(((4 / 2 : Nat) : Int) - 1) ≤ e) ∧
    (elementsOf [51, 75, 51, 76])[1]? = some 98 ∧ [51#8, 75, 51, 76].length / 2 ≤ 2 := by decide +kernel

/-- Its walk of a lone leaf: five 0 bits and then a 1, and six 0 bits for seven symbols. -/
theorem witness_decode_leaf :
    (elementsOf [51, 75])[0]? = some 97 ∧ bitsOf [43] = [false, false, false, false, false, true] ∧
    decodeOutput [51, 75] [43] 6 0 = .error .badBranch ∧ decodeOutput [51, 75] [43] 5 0 = .ok (List.replicate 5 97) ∧
    (∀ b ∈ bitsOf [42], b = false) ∧ (bitsOf [42]).length < 7 := by decide +kernel

/-- Its walk of a tree: the 23 bits that give eleven symbols; two characters, which give fewer; and a left step past
the end, from a branch that is the last element. -/
theorem witness_decode_tree :
    (elementsOf sampleTree)[0]? = some (-8) ∧
    (leafSymbols (elementsOf sampleTree) ((walkTargets (elementsOf sampleTree) 0 0
      (bitsOf [78, 65, 62, 76])).take 23)).length = 11 ∧
    (∀ i ∈ walkTargets (elementsOf sampleTree) 0 0 (bitsOf [78, 65, 62, 76]), i < 9) ∧
    (leafSymbols (elementsOf sampleTree) (walkTargets (elementsOf sampleTree) 0 0 (bitsOf [78, 65]))).length < 11 ∧
    (elementsOf [51, 75, 51, 76, 49, 105])[2]? = some (-2) ∧
    (walkTargets [97, 98, -2] 2 2 (bitsOf [42]))[0]? = some 3 ∧
    decodeOutput [51, 75, 51, 76, 49, 105] [42] 1 2 = .error .badIndex := by decide +kernel

/-- ReadReturnsTheWord, WritesActOnlyAtCmd, BadAccessesAreBusErrors, WindowsAreMapped: offsets of each kind, at the ends
of the aperture; the first one past it; and CMD read with BUSY = 1. -/
theorem witness_offsets :
    locate 64 64 0x000 = .register .id ∧ locate 64 64 0x038 = .reserved ∧ locate 64 64 0x47F8 = .tree 510 ∧
    locate 64 64 0x3FFFFFC = .reserved ∧ (0x3FFFFFC % 4 = 0 ∧ 0x3FFFFFC < 0x4000000) ∧
    locate 64 64 0x10000FC = .text 63 ∧ (64 ≤ Config.maxCapacity) ∧
    (sample [97, 97, 98] 6).valid (.tree 2) = true ∧ (sample [97, 97, 98] 6).valid (.tree 3) = false ∧
    (0x4000000 % 4 = 0 ∧ 0x4000000 ≤ 0x4000000) ∧
    ((State.resetWith 64 64).latch 0x00000000#32).readWord cmdOffset = none := by
  decide +kernel

/-- BadAccessesAreBusErrors: a width and an offset that are refused, inside the aperture. -/
theorem witness_BadAccessesAreBusErrors :
    (2 : Nat) ≠ 4 ∧ 0x3FFFFFE % 4 ≠ 0 ∧ 0x3FFFFFE < 0x4000000 ∧
    busAccess ⟨0x3FFFFFE, 4, .read⟩ (State.resetWith 64 64) = .fault (.busError ⟨0x3FFFFFE, 4, .read⟩) ∧
    busAccess ⟨0x3FFFFFC, 2, .read⟩ (State.resetWith 64 64) = .fault (.busError ⟨0x3FFFFFC, 2, .read⟩) :=
  ⟨by decide, by decide, by decide, rfl, rfl⟩

/-- WritesActOnlyAtCmd, its second part: a read of ID, a write of CMD and a misaligned read next on the host's turn. -/
theorem witness_WritesActOnlyAtCmd :
    ∀ a ∈ [(⟨0x000, 4, .read⟩ : Access), ⟨0x004, 4, .write 0x03000000#32⟩, ⟨0x006, 4, .read⟩],
      nextAgent { State.resetWith 64 64 with script := [.access a], turns := [.host] } = .host := by decide

/-- 10_state.md R25: a host's read of ID, in one step. -/
theorem test_host_reads_id :
    ofNext (step { State.resetWith 64 64 with script := [.access ⟨0x000, 4, .read⟩], turns := [.host] })
      (fun t => (t.received, t.script.length)) = some ([0x48554631#32], 0) := by decide

/-- RegistersAreMapped: an idle state. -/
theorem witness_RegistersAreMapped : (State.resetWith 64 64).busy = false := rfl

/-- PhaseNeverDecreases, TextMovesOnlyByPush, ParametersNeverChange, SoundKeptByStep, ResultsKeptByStep: a sound state
with true results whose next step completes a PUSH. -/
theorem witness_steps :
    ((sample [97] 0).latch 0x02000062#32).Sound ∧ ((sample [97] 0).latch 0x02000062#32).Results ∧
    ofNext (step ((sample [97] 0).latch 0x02000062#32)) State.len = some 2#32 :=
  ⟨(latch_keeps (sample_keeps _ _).1 (sample_keeps _ _).2 (by decide +kernel) (by decide)).1,
    (latch_keeps (sample_keeps _ _).1 (sample_keeps _ _).2 (by decide +kernel) (by decide)).2, by decide +kernel⟩

end Sys2Proof.Machine
end

section
/-! PROOFS. What a step on a known agent's turn does (40_control.md R100, R101; 20_memory.md R61 to R64), and
when BUSY moves (10_state.md R28). -/

namespace Sys2Proof.Machine

variable {s t : State}

theorem SameBlock.busy_eq (h : SameBlock s t) : t.busy = s.busy := by
  unfold SameBlock at h
  rw [h]

theorem step_of_engine (h : nextAgent s = .engine) : step s = engineTurn { s with turns := s.turns.tail } := by
  simp only [step, agentStep, h]

theorem step_of_host (h : nextAgent s = .host) : step s = hostTurn { s with turns := s.turns.tail } := by
  simp only [step, agentStep, h]

/-! ## The host's turn -/

theorem busAccess_cmdWrite (w : Word) (s : State) : busAccess ⟨cmdOffset, 4, .write w⟩ s = submit w s := by
  simp [busAccess, cmdOffset, Config.apertureBytes]

/-- An accepted access is 4 bytes wide (20_memory.md R62). -/
theorem busAccess_width {a : Access} (h : busAccess a s = .next t) : a.width = 4 := by
  by_contra hw
  simp [busAccess, hw] at h

/-- An access other than a CMD write leaves the block alone (20_memory.md R63, R64). -/
theorem busAccess_sameBlock {a : Access} (h : busAccess a s = .next t)
    (ha : ∀ w, a ≠ ⟨cmdOffset, 4, .write w⟩) : SameBlock s t := by
  rcases busAccess_cases h with rfl | ⟨-, rfl⟩ | ⟨w, hk, haddr, -⟩
  · exact .refl _
  · exact sameBlock_hostRead _ _
  · obtain ⟨addr, width, kind⟩ := a
    obtain rfl : width = 4 := busAccess_width h
    obtain rfl : addr = cmdOffset := haddr
    obtain rfl : kind = .write w := hk
    exact absurd rfl (ha w)

/-- The host's turn submits a word where a CMD write is its next action, and leaves the block alone where it is
not (20_memory.md R64). -/
theorem hostTurn_submits (h : hostTurn s = .next t) :
    (∃ w rest, s.script = .access ⟨cmdOffset, 4, .write w⟩ :: rest ∧ submit w { s with script := rest } = .next t) ∨
    ((∀ w rest, s.script ≠ .access ⟨cmdOffset, 4, .write w⟩ :: rest) ∧ SameBlock s t) := by
  unfold hostTurn at h
  split at h
  case h_1 hs =>
    cases h
    exact .inr ⟨by simp [hs], .refl _⟩
  case h_2 a rest hs =>
    by_cases ha : ∃ w, a = ⟨cmdOffset, 4, .write w⟩
    · obtain ⟨w, rfl⟩ := ha
      exact .inl ⟨w, rest, hs, busAccess_cmdWrite w _ ▸ h⟩
    · have ha : ∀ w, a ≠ ⟨cmdOffset, 4, .write w⟩ := not_exists.mp ha
      have taken : SameBlock s { s with script := rest } := rfl
      exact .inr ⟨by simp [hs, ha], taken.trans (busAccess_sameBlock h ha)⟩
  case h_3 rest hs =>
    refine .inr ⟨by simp [hs], ?_⟩
    have taken : SameBlock s { s with script := rest } := rfl
    split at h <;> cases h
    · exact sameBlock_hostRead _ _
    · exact taken.trans (sameBlock_hostRead _ _)

/-! ## BUSY after each event -/

/-- After a CMD write BUSY is 1 exactly where the word is not CLEAR's and either BUSY was 1 or the word was
latched (40_control.md R100). -/
theorem submit_busy {w : Word} (h : submit w s = .next t) :
    t.busy = true ↔ w ≠ clearWord ∧ (s.busy = true ∨ s.err = false) := by
  rcases submit_cases h with ⟨hw, rfl⟩ | ⟨hw, hb, rfl⟩ | ⟨hw, hb, he, rfl⟩ | ⟨hw, hb, he, rfl⟩
  · simp [hw]
  · simp [hw, hb]
  · simp [hb, he]
  · simp [hw, he]

/-- The engine's turn leaves BUSY = 0: it completes a command, or there was none (40_control.md R101). -/
theorem engineTurn_busy (h : engineTurn s = .next t) : t.busy = false := by
  unfold engineTurn at h
  split at h
  case isTrue => rcases completeCommand_cases h with ⟨_, _, _, _, rfl⟩ | ⟨_, _, rfl⟩ <;> rfl
  case isFalse hb =>
    cases h
    simpa using hb

/-- A step on the host's turn moves BUSY only by a CMD write, as `submit_busy` says. -/
theorem step_host_busy (hn : nextAgent s = .host) (h : step s = .next t) :
    (∃ w rest, s.script = .access ⟨cmdOffset, 4, .write w⟩ :: rest ∧
      (t.busy = true ↔ w ≠ clearWord ∧ (s.busy = true ∨ s.err = false))) ∨
    ((∀ w rest, s.script ≠ .access ⟨cmdOffset, 4, .write w⟩ :: rest) ∧ t.busy = s.busy) := by
  rw [step_of_host hn] at h
  rcases hostTurn_submits h with ⟨w, rest, hs, hw⟩ | ⟨hs, hb⟩
  · exact .inl ⟨w, rest, hs, submit_busy (s := { s with script := rest, turns := s.turns.tail }) hw⟩
  · exact .inr ⟨hs, hb.busy_eq⟩

/-- Settles O10, by whose turn it is and, on the host's, by whether a CMD write is its next action. -/
theorem busyFollowsTheHandshake : Obligations.BusyFollowsTheHandshake := by
  unfold Obligations.BusyFollowsTheHandshake
  intro s t h
  cases hn : nextAgent s with
  | engine =>
    rw [step_of_engine hn] at h
    simp [engineTurn_busy h]
  | host =>
    rcases step_host_busy hn h with ⟨w, rest, hs, hbusy⟩ | ⟨hs, hbusy⟩
    · refine ⟨fun hb => ?_, fun hb => ?_⟩
      · simp only [hbusy, hb, hs]
        simp [clearWord, cmdOffset, and_comm]
      · simp [State.clearsNext, hn, hs, ← Bool.not_eq_true, hbusy, hb]
    · have noClear : ¬ s.clearsNext := fun ⟨_, rest, e⟩ => hs _ rest e
      refine ⟨fun hb => ?_, fun hb => ?_⟩
      · simp only [hbusy, hb]
        refine iff_of_false (by simp) ?_
        rintro ⟨-, -, w, rest, e, -⟩
        exact hs w rest e
      · simp [hbusy, hb, noClear]

end Sys2Proof.Machine
end

section
/-! PROOFS. What an element's window reads (10_state.md R48). -/

namespace Sys2Proof.Machine

variable {s : State}

/-! ## Listed elements -/

theorem Memory.listedTo.read?_eq_some {α : Type} {m : Memory α} {n i : Nat} (h : m.listedTo n) (hi : i < n) (d : α) :
    m.read? i = some ((m.read? i).getD d) := by
  obtain ⟨a, ha⟩ := Option.isSome_iff_exists.mp (h i hi)
  simp [ha]

/-- An output memory's listed elements stand at their own indexes in the artifact's run (40_control.md R106). -/
theorem Memory.listedTo.listedRun_getElem? {m : Memory Symbol} {n i : Nat} (h : m.listedTo n) (hi : i < n) :
    (listedRun m n)[i]? = m.read? i := by
  have run : listedRun m n = (List.range n).map (fun j => (m.read? j).getD 0) := by
    rw [listedRun, ← List.filterMap_eq_map]
    exact List.filterMap_congr fun j hj => h.read?_eq_some (List.mem_range.mp hj) 0
  rw [run, h.read?_eq_some hi 0]
  simp [hi]

/-! ## Windows -/

theorem wordAt_window {loc : Location} (hloc : ∀ r, loc ≠ .register r) :
    s.wordAt loc = if s.valid loc then s.windowWord loc else none := by
  cases loc with
  | register r => exact absurd rfl (hloc r)
  | _ => rfl

/-- The form of a row of 10_state.md R48's table: what a window reads, from when its element is valid. -/
theorem wordAt_eq_ite {loc : Location} {P : Prop} [Decidable P] {x : Option Word} (hloc : ∀ r, loc ≠ .register r)
    (hv : s.valid loc = true ↔ P) (hw : P → s.windowWord loc = x) : s.wordAt loc = if P then x else none := by
  by_cases hP : P
  · simp [wordAt_window hloc, hv.mpr hP, hP, hw hP]
  · simp [wordAt_window hloc, hv, hP]

/-- Settles O47: the table of 10_state.md R48 row by row, each valid element being listed in a sound state. -/
theorem validElementsAreRead : Obligations.ValidElementsAreRead := by
  unfold Obligations.ValidElementsAreRead
  intro s hs
  have l := hs.listed
  refine ⟨fun i => ?text, fun v hv => ?freq, fun j w => ?node, fun i => ?tree, fun v hv => ?codeLen,
    fun v w hv => ?codeVal, fun j => ?group, fun c => ?outTree, fun j => ?outBits⟩
  all_goals
    refine wordAt_eq_ite (by simp) ?_ ?_
    · simp only [State.valid, Bool.and_eq_true, Bool.not_eq_true', decide_eq_true_eq, and_assoc]
  case text => exact fun ⟨_, hi⟩ => congrArg (Option.map _) (l.text.read?_eq_some hi _)
  case freq => exact fun ⟨_, hp⟩ => (l.freq hp).read?_eq_some hv _
  case node => exact fun ⟨_, hp, hj⟩ => congrArg (Option.map _) ((l.node hp).read?_eq_some hj _)
  case tree => exact fun ⟨_, hp, hi⟩ => congrArg (Option.map _) ((l.tree hp).read?_eq_some hi _)
  case codeLen => exact fun ⟨_, hp⟩ => congrArg (Option.map _) ((l.codeLen hp).read?_eq_some hv _)
  case codeVal => exact fun ⟨_, hp⟩ => congrArg (Option.map _) ((l.codeVal hp).read?_eq_some hv _)
  case group => exact fun ⟨_, hp, hj⟩ => congrArg (Option.map _) ((l.group hp).read?_eq_some hj _)
  case outTree => exact fun ⟨_, hp, hc⟩ => congrArg (Option.map _) ((l.outTree hp).listedRun_getElem? hc).symm
  case outBits => exact fun ⟨_, hp, hj⟩ => congrArg (Option.map _) ((l.outBits hp).listedRun_getElem? hj).symm

end Sys2Proof.Machine
end

section
/-! PROOFS. The state after CLEAR (10_state.md R54), the registers' offsets and the fields of STATUS (R24 to R37). -/

namespace Sys2Proof.Machine

variable {s : State}

/-! ## CLEAR -/

/-- With an empty text and no stage done, no window element is valid (10_state.md R48, R53). -/
theorem valid_of_unloaded {loc : Location} (hp : s.phase = .empty) (hl : s.len = 0) (hreg : ∀ r, loc ≠ .register r)
    (hres : loc ≠ .reserved) : s.valid loc = false := by
  cases loc with
  | register r => exact absurd rfl (hreg r)
  | reserved => exact absurd rfl hres
  | _ => simp [State.valid, hp, hl]

theorem wordAt_of_not_valid {loc : Location} (h : s.valid loc = false) : s.wordAt loc = none := by
  cases loc with
  | register r => cases h
  | _ => simp [State.wordAt, h]

theorem cleared_statusWord (s : State) : s.cleared.statusWord = 0x00000002#32 := by
  simp [State.statusWord, Phase.bits, ErrCode.bits]

/-- Settles O12: the fields by `State.cleared`, and no element valid with an empty text and PHASE = EMPTY. -/
theorem clearRestoresReset : Obligations.ClearRestoresReset := by
  unfold Obligations.ClearRestoresReset
  refine ⟨rfl, fun s => ⟨rfl, s.cleared, rfl, ?_⟩⟩
  have unread (loc : Location) (hreg : ∀ r, loc ≠ .register r) (hres : loc ≠ .reserved) :
      s.cleared.valid loc = false ∧ s.cleared.wordAt loc = none :=
    have hv := valid_of_unloaded (s := s.cleared) rfl rfl hreg hres
    ⟨hv, wordAt_of_not_valid hv⟩
  exact ⟨rfl, rfl, rfl, rfl, rfl, rfl, rfl, rfl, rfl, rfl, rfl, rfl, rfl, rfl, rfl, cleared_statusWord s,
    rfl, rfl, rfl, rfl, rfl, rfl, unread⟩

/-! ## The register map -/

/-- The register of index `k` stands at byte offset `4 * k` (10_state.md R24). -/
theorem locate_register {k : Nat} {r : Register} (h : registerMap[k]? = some r) (maxLen maxGroups : Nat) :
    locate maxLen maxGroups (4 * k) = .register r := by
  have hk : k < 14 := (List.getElem?_eq_some_iff.mp h).1
  simp [locate, show 4 * k < 0x38 by omega, h]

/-- The offsets past the registers, up to the first window, are reserved (20_memory.md R60). -/
theorem locate_past_registers {a : Nat} (h : 0x38 ≤ a) (h' : a < 0x1000) (maxLen maxGroups : Nat) :
    locate maxLen maxGroups a = .reserved := by
  simp [locate, show ¬ a < 0x38 by omega, h']

theorem readWord_register {k : Nat} {r : Register} (h : registerMap[k]? = some r) :
    s.readWord (4 * k) = if s.busy && !r.definedWhileBusy then none else some (s.registerWord r) := by
  rw [State.readWord, locate_register h]
  rfl

theorem readWord_register_of_idle {k : Nat} {r : Register} (h : registerMap[k]? = some r) (hb : s.busy = false) :
    s.readWord (4 * k) = some (s.registerWord r) := by
  simp [readWord_register h, hb]

theorem readWord_register_of_defined {k : Nat} {r : Register} (h : registerMap[k]? = some r)
    (hd : r.definedWhileBusy = true) : s.readWord (4 * k) = some (s.registerWord r) := by
  simp [readWord_register h, hd]

/-- A write at an accepted offset other than CMD's is ignored (20_memory.md R64). -/
theorem busAccess_write_ignored {a : Nat} (h4 : a % 4 = 0) (ha : a < Config.apertureBytes) (hc : a ≠ cmdOffset)
    (v : Word) : busAccess ⟨a, 4, .write v⟩ s = .next s := by
  simp [busAccess, h4, Nat.not_le.mpr ha, hc]

/-- Settles O50, register by register. -/
theorem registersAreMapped : Obligations.RegistersAreMapped := by
  unfold Obligations.RegistersAreMapped
  intro s
  refine ⟨readWord_register_of_defined (k := 0) rfl rfl, readWord_register_of_defined (k := 12) rfl rfl,
    readWord_register_of_defined (k := 13) rfl rfl, fun hb => ?idle, fun a h h' => ?reserved,
    fun a v h4 ha hc => ?writes⟩
  case idle =>
    have idle {k : Nat} {r : Register} (h : registerMap[k]? = some r) := readWord_register_of_idle h hb
    exact ⟨idle (k := 1) rfl, idle (k := 2) rfl, idle (k := 3) rfl, idle (k := 4) rfl, idle (k := 5) rfl,
      idle (k := 6) rfl, idle (k := 7) rfl, idle (k := 8) rfl, idle (k := 9) rfl, idle (k := 10) rfl,
      idle (k := 11) rfl⟩
  case reserved =>
    rw [State.readWord, locate_past_registers h (by omega)]
    rfl
  case writes => exact busAccess_write_ignored h4 (by simp only [Config.apertureBytes]; omega) hc v

/-! ## STATUS -/

/-- STATUS bit by bit (10_state.md R27). -/
theorem statusWord_getLsbD (s : State) (i : Nat) :
    s.statusWord.getLsbD i =
      if i = 0 then s.busy else if i = 1 then s.done else if i = 2 then s.err else if i = 3 then s.overrun
      else if i < 8 then false else if i < 12 then s.errCode.bits.getLsbD (i - 8)
      else if i < 16 then false else s.phase.bits.getLsbD (i - 16) := by
  rw [State.statusWord]
  simp only [BitVec.getLsbD_append, BitVec.getLsbD_ofBool, BitVec.getLsbD_zero]
  match i with
  | 0 | 1 | 2 | 3 => simp
  | j + 4 => grind

/-- Settles O51: each field by the bits of STATUS. -/
theorem statusHoldsItsFields : Obligations.StatusHoldsItsFields := by
  unfold Obligations.StatusHoldsItsFields
  refine ⟨fun s => ⟨readWord_register_of_defined (k := 2) rfl rfl, statusWord_getLsbD s 0, statusWord_getLsbD s 1,
    statusWord_getLsbD s 2, statusWord_getLsbD s 3, ?errCode, ?phase, fun i hi => ?rest⟩,
    rfl, rfl, rfl, rfl, rfl, rfl, rfl, rfl, rfl⟩
  case errCode =>
    ext j hj
    rw [BitVec.getElem_extractLsb', statusWord_getLsbD]
    grind
  case phase =>
    ext j hj
    rw [BitVec.getElem_extractLsb', statusWord_getLsbD]
    grind
  case rest =>
    have past : 19 ≤ i → s.phase.bits.getLsbD (i - 16) = false := fun h => BitVec.getLsbD_of_ge _ _ (by omega)
    rw [statusWord_getLsbD]
    grind

end Sys2Proof.Machine
end

section
/-! PROOFS. The host's access (20_memory.md R61, R62, R64), the address map (R60) and the node window
(10_state.md R41). -/

namespace Sys2Proof.Machine

variable {s : State}

/-! ## What comes of an access -/

/-- An access of another width or alignment is refused before its offset is looked at (20_memory.md R62). -/
theorem busAccess_of_bad {a : Access} (h : a.width ≠ 4 ∨ a.addr % 4 ≠ 0) : busAccess a s = .fault (.busError a) :=
  if_pos h

theorem submit_next (w : Word) (s : State) : ∃ t, submit w s = .next t := by
  unfold submit
  split
  · exact exec_next .clear s
  · split
    · exact ⟨_, rfl⟩
    · split <;> exact ⟨_, rfl⟩

/-- An access of the form the block accepts always has a next state (20_memory.md R61). -/
theorem busAccess_next_of_wellFormed {a : Access} (h : a.wellFormed = true) (s : State) :
    ∃ t, busAccess a s = .next t := by
  simp only [Access.wellFormed, Bool.and_eq_true, decide_eq_true_eq] at h
  obtain ⟨⟨hw, h4⟩, hin⟩ := h
  simp only [busAccess, hw, h4, ne_eq, not_true, or_self, if_false, Nat.not_le.mpr hin]
  split
  · exact ⟨_, rfl⟩
  · split
    · exact submit_next _ _
    · exact ⟨_, rfl⟩

theorem hostTurn_access {a : Access} {rest : List HostAction} (h : s.script = .access a :: rest) :
    hostTurn s = busAccess a { s with script := rest } := by
  simp only [hostTurn, h]

/-- Settles O48, by whether the offset is CMD's. -/
theorem writesActOnlyAtCmd : Obligations.WritesActOnlyAtCmd := by
  unfold Obligations.WritesActOnlyAtCmd
  refine ⟨fun s a v h4 ha => ?_, fun s a rest hn hs => ?_⟩
  · split
    case isTrue hc =>
      rw [hc]
      exact busAccess_cmdWrite v s
    case isFalse hc => exact busAccess_write_ignored h4 ha hc v
  · rw [step_of_host hn]
    exact hostTurn_access (s := { s with turns := s.turns.tail }) hs

/-- Settles O49: in the aperture an access of the right width and alignment is accepted, so it has a next state. -/
theorem badAccessesAreBusErrors : Obligations.BadAccessesAreBusErrors := by
  unfold Obligations.BadAccessesAreBusErrors
  refine fun s a => ⟨busAccess_of_bad, fun hin hfault => ?_⟩
  by_contra hgood
  have accepted : a.wellFormed = true := by
    simp only [not_or, not_not] at hgood
    simp [Access.wellFormed, hgood, Config.apertureBytes, hin]
  obtain ⟨t, ht⟩ := busAccess_next_of_wellFormed accepted s
  rw [ht] at hfault
  cases hfault

/-! ## The address map -/

section Windows

variable {maxLen maxGroups : Nat}

/-- The index of a word in the window of one word per element that begins at `base`. -/
theorem wordIndex (base i : Nat) : (base + 4 * i - base) / 4 = i := by omega

theorem locate_freq {v : Nat} (hv : v < 256) : locate maxLen maxGroups (0x1000 + 4 * v) = .freq v := by
  simp (disch := omega) only [locate, if_pos, if_neg, wordIndex]

theorem locate_node {j w : Nat} (hj : j < 511) (hw : w < 4) :
    locate maxLen maxGroups (0x2000 + 16 * j + 4 * w) = .node j w := by
  simp (disch := omega) only [locate, if_pos, if_neg]
  congr 1 <;> omega

theorem locate_tree {i : Nat} (hi : i < 511) : locate maxLen maxGroups (0x4000 + 4 * i) = .tree i := by
  simp (disch := omega) only [locate, if_pos, if_neg, wordIndex]

theorem locate_codeLen {v : Nat} (hv : v < 256) : locate maxLen maxGroups (0x5000 + 4 * v) = .codeLen v := by
  simp (disch := omega) only [locate, if_pos, if_neg, wordIndex]

theorem locate_codeVal {v w : Nat} (hv : v < 256) (hw : w < 8) :
    locate maxLen maxGroups (0x6000 + 32 * v + 4 * w) = .codeVal v w := by
  simp (disch := omega) only [locate, if_pos, if_neg]
  congr 1 <;> omega

theorem locate_outTree {c : Nat} (hc : c < 1022) : locate maxLen maxGroups (0x8000 + 4 * c) = .outTree c := by
  simp (disch := omega) only [locate, if_pos, if_neg, wordIndex]

theorem locate_text {i : Nat} (hi : i < 4194304) :
    locate maxLen maxGroups (0x1000000 + 4 * i) = if i < maxLen then .text i else .reserved := by
  simp (disch := omega) only [locate, if_pos, if_neg, wordIndex]

theorem locate_group {j : Nat} (hj : j < 4194304) :
    locate maxLen maxGroups (0x2000000 + 4 * j) = if j < maxGroups then .group j else .reserved := by
  simp (disch := omega) only [locate, if_pos, if_neg, wordIndex]

theorem locate_outBits {j : Nat} (hj : j < 4194304) :
    locate maxLen maxGroups (0x3000000 + 4 * j) = if j < maxGroups then .outBits j else .reserved := by
  simp (disch := omega) only [locate, if_pos, if_neg, wordIndex]

/-- The offsets between two windows are reserved (20_memory.md R60). -/
theorem locate_between_windows {a : Nat}
    (h : (0x1400 ≤ a ∧ a ≤ 0x1FFF) ∨ (0x3FF0 ≤ a ∧ a ≤ 0x3FFF) ∨ (0x47FC ≤ a ∧ a ≤ 0x4FFF) ∨
      (0x5400 ≤ a ∧ a ≤ 0x5FFF) ∨ (0x8FF8 ≤ a ∧ a ≤ 0xFFFFFF)) : locate maxLen maxGroups a = .reserved := by
  rcases h with h | h | h | h | h <;> simp (disch := omega) only [locate, if_pos, if_neg]

end Windows

/-! ## The node window -/

/-- INFO bit by bit (10_state.md R41). -/
theorem infoWord_getLsbD (n : Node) (i : Nat) :
    n.infoWord.getLsbD i =
      if i = 0 then n.kind == .internal else if i = 1 then n.live else if i < 8 then false
      else n.sym.getLsbD (i - 8) := by
  rw [Node.infoWord]
  simp only [BitVec.getLsbD_append, BitVec.getLsbD_ofBool, BitVec.getLsbD_zero]
  match i with
  | 0 | 1 => simp
  | j + 2 => grind

theorem infoWord_sym (n : Node) : n.infoWord.extractLsb' 8 8 = n.sym := by
  ext j hj
  rw [BitVec.getElem_extractLsb', infoWord_getLsbD]
  grind

theorem infoWord_zeros (n : Node) {i : Nat} (hi : (2 ≤ i ∧ i ≤ 7) ∨ 16 ≤ i) : n.infoWord.getLsbD i = false := by
  have past : 16 ≤ i → n.sym.getLsbD (i - 8) = false := fun h => BitVec.getLsbD_of_ge _ _ (by omega)
  rw [infoWord_getLsbD]
  grind

/-- Settles O52, window by window, and for a node by the bits of INFO. -/
theorem windowsAreMapped : Obligations.WindowsAreMapped := by
  unfold Obligations.WindowsAreMapped
  intro maxLen maxGroups _ _
  refine ⟨fun v hv => ⟨locate_freq hv, locate_codeLen hv, fun w hw => locate_codeVal hv hw⟩,
    fun j hj => ⟨locate_tree hj, fun w hw => locate_node hj hw⟩, fun c hc => locate_outTree hc,
    fun i hi => ⟨locate_text hi, locate_group hi, locate_outBits hi⟩, fun a ha => ?reserved, fun n => ?node⟩
  case reserved =>
    rcases ha with ⟨h, h'⟩ | ha
    · exact locate_past_registers h (by omega) maxLen maxGroups
    · exact locate_between_windows ha
  case node =>
    exact ⟨rfl, BitVec.toNat_setWidth_of_le (by decide), BitVec.toNat_setWidth_of_le (by decide),
      infoWord_getLsbD n 0, infoWord_getLsbD n 1, infoWord_sym n, fun i hi => infoWord_zeros n hi⟩

end Sys2Proof.Machine
end

section
/-! PROOFS. The table of rows by a word's fields, the decoder by the rows, and the illegal words
(30_encoding.md R84 to R87). -/

namespace Sys2Proof

/-! ## Words by their fields -/

/-- OP, RSV and IMM make up the whole word (30_encoding.md R80). -/
theorem eq_append_fields (w : Word) : w = opField w ++ rsvField w ++ immField w := by
  rw [opField, rsvField, immField, BitVec.extractLsb'_append_extractLsb'_eq_extractLsb' (by rfl),
    BitVec.extractLsb'_append_extractLsb'_eq_extractLsb' (by rfl)]
  exact (BitVec.extractLsb'_eq_self).symm

/-- A word with RSV = 0 and no stray bit, of an opcode without operand, is that opcode's only word (R82). -/
theorem eq_opcode_append_zero {w : Word} (hform : formOf (opField w) = .none) (hrsv : rsvField w = 0)
    (hstray : hasStrayBit w = false) : w = opField w ++ (0 : BitVec 24) := by
  have himm : immField w = 0 := by simpa [hasStrayBit, hform, OperandForm.width] using hstray
  calc w = opField w ++ rsvField w ++ immField w := eq_append_fields w
    _ = opField w ++ (0 : BitVec 24) := by rw [hrsv, himm, BitVec.append_assoc]; rfl

/-- Masking off the low bits leaves nothing exactly where shifting them out does. -/
theorem and_allOnes_shiftLeft_eq_zero {k : Nat} (x : BitVec k) (n : Nat) :
    x &&& BitVec.allOnes k <<< n = 0 ↔ x >>> n = 0 := by
  rw [← BitVec.shiftLeft_ushiftRight]
  refine ⟨fun h => BitVec.eq_of_getLsbD_eq fun i hi => ?_, fun h => by simp [h]⟩
  by_cases hk : n + i < k
  · simpa [hk] using congrArg (·.getLsbD (n + i)) h
  · simp [BitVec.getLsbD_of_ge x (n + i) (by omega)]

/-- A masked word equals another exactly where its fields, masked each, do. -/
theorem and_eq_iff_fields (w m v : Word) : w &&& m = v ↔
    opField w &&& opField m = opField v ∧ rsvField w &&& rsvField m = rsvField v ∧
      immField w &&& immField m = immField v := by
  simp only [opField, rsvField, immField, ← BitVec.extractLsb'_and]
  refine ⟨fun h => by simp [h], fun ⟨hop, hrsv, himm⟩ => ?_⟩
  rw [eq_append_fields (w &&& m), eq_append_fields v]
  simp only [opField, rsvField, immField, hop, hrsv, himm]

/-- R84's table: each row's pattern is its opcode, and its mask covers OP, RSV and the bits of IMM that its form
does not name. -/
theorem rows_shape : ∀ r ∈ rows, rsvField r.pattern = 0 ∧ immField r.pattern = 0 ∧
    opField r.mask = BitVec.allOnes 8 ∧ rsvField r.mask = BitVec.allOnes 8 ∧
    immField r.mask = BitVec.allOnes 16 <<< (formOf (opField r.pattern)).width := by decide

theorem rows_opcodes : rows.map (fun r => opField r.pattern) = (List.range 12).map (BitVec.ofNat 8) := by decide

/-! ## The rows a word matches -/

/-- The row of a word's opcode is the only one it can match, and it does where RSV is 0 and no bit of IMM is stray. -/
theorem matches_row_iff {r : Row} (hr : r ∈ rows) (w : Word) : w &&& r.mask = r.pattern ↔
    opField w = opField r.pattern ∧ rsvField w = 0 ∧ hasStrayBit w = false := by
  obtain ⟨hrsv, himm, mop, mrsv, mimm⟩ := rows_shape r hr
  rw [and_eq_iff_fields, hrsv, himm, mop, mrsv, mimm, BitVec.and_allOnes, BitVec.and_allOnes,
    and_allOnes_shiftLeft_eq_zero]
  refine and_congr_right fun hop => and_congr_right fun _ => ?_
  simp [hasStrayBit, hop]

/-- An opcode has a row exactly where it is below 0x0C. -/
theorem exists_row_of_opcode_iff (op : BitVec 8) : (∃ r ∈ rows, opField r.pattern = op) ↔ op.toNat < 0x0C := by
  have listed : (∃ r ∈ rows, opField r.pattern = op) ↔ ∃ k < 12, BitVec.ofNat 8 k = op := by
    rw [← List.mem_map (f := fun r : Row => opField r.pattern), rows_opcodes]
    simp
  rw [listed]
  refine ⟨?_, fun h => ⟨op.toNat, h, by simp⟩⟩
  rintro ⟨k, hk, rfl⟩
  simp only [BitVec.toNat_ofNat]
  omega

theorem rows_opcodes_nodup : (rows.map (fun r => opField r.pattern)).Nodup := by decide

/-- No word matches two rows, since their opcodes differ (30_encoding.md R87). -/
theorem row_unique {r q : Row} (hr : r ∈ rows) (hq : q ∈ rows) {w : Word} (wr : w &&& r.mask = r.pattern)
    (wq : w &&& q.mask = q.pattern) : r = q :=
  List.inj_on_of_nodup_map rows_opcodes_nodup hr hq
    (((matches_row_iff hr w).mp wr).1.symm.trans ((matches_row_iff hq w).mp wq).1)

/-- A word matches some row exactly where it falls under none of R85's three cases. -/
theorem exists_matching_row_iff (w : Word) : (∃ r ∈ rows, w &&& r.mask = r.pattern) ↔
    (opField w).toNat < 0x0C ∧ rsvField w = 0 ∧ hasStrayBit w = false := by
  rw [← exists_row_of_opcode_iff]
  constructor
  · rintro ⟨r, hr, h⟩
    obtain ⟨hop, hrest⟩ := (matches_row_iff hr w).mp h
    exact ⟨⟨r, hr, hop.symm⟩, hrest⟩
  · rintro ⟨⟨r, hr, hop⟩, hrest⟩
    exact ⟨r, hr, (matches_row_iff hr w).mpr ⟨hop.symm, hrest⟩⟩

/-! ## The decoder -/

theorem decode_of_matches {r : Row} (hr : r ∈ rows) {w : Word} (h : w &&& r.mask = r.pattern) :
    decode w = .ok (r.command w) := by
  unfold decode
  split
  case h_1 q hq =>
    have wq : w &&& q.mask = q.pattern := by simpa [Row.matches] using List.find?_some hq
    rw [row_unique hr (List.mem_of_find?_eq_some hq) h wq]
  case h_2 hnone =>
    exact absurd h (by simpa [Row.matches] using List.find?_eq_none.mp hnone r hr)

theorem decode_of_no_row {w : Word} (h : ∀ r ∈ rows, w &&& r.mask ≠ r.pattern) :
    decode w = .error (illegalCause w) := by
  have notFound : rows.find? (fun r => r.matches w) = none :=
    List.find?_eq_none.mpr fun r hr => by simpa [Row.matches] using h r hr
  rw [decode, notFound]

/-- Settles O2: the table is the model's, and two rows that match one word are one row. -/
theorem decodeFollowsTheRows : Obligations.DecodeFollowsTheRows := by
  unfold Obligations.DecodeFollowsTheRows
  refine ⟨rfl, ?disjoint, fun w => ⟨fun r hr h => decode_of_matches hr h, fun h => ⟨_, decode_of_no_row h⟩⟩⟩
  case disjoint =>
    refine (List.pairwise_map.mp rows_opcodes_nodup).imp_of_mem fun hr hq hne w hw => ?_
    exact hne (congrArg (fun r : Row => opField r.pattern) (row_unique hr hq hw.1 hw.2))

/-! ## Illegal words -/

theorem illegal_iff_no_row (w : Word) :
    (∃ c, decode w = .error c) ↔ ∀ r ∈ rows, w &&& r.mask ≠ r.pattern := by
  refine ⟨fun ⟨c, hc⟩ r hr h => ?_, fun h => ⟨_, decode_of_no_row h⟩⟩
  rw [decode_of_matches hr h] at hc
  cases hc

/-- The three cases of R85. -/
theorem illegal_iff_fields (w : Word) : (∃ c, decode w = .error c) ↔
    0x0C ≤ (opField w).toNat ∨ rsvField w ≠ 0 ∨ hasStrayBit w = true := by
  have noRow : (∀ r ∈ rows, w &&& r.mask ≠ r.pattern) ↔ ¬ ∃ r ∈ rows, w &&& r.mask = r.pattern := by simp
  rw [illegal_iff_no_row, noRow, exists_matching_row_iff]
  simp only [not_and_or, Nat.not_lt, Bool.not_eq_false, ne_eq]

/-- A word of an opcode without operand is illegal where any other bit is 1 (30_encoding.md R82, R85). -/
theorem illegal_of_ne_opcode_append_zero {w : Word} (hform : formOf (opField w) = .none)
    (hw : w ≠ opField w ++ (0 : BitVec 24)) : ∃ c, decode w = .error c := by
  rw [illegal_iff_fields]
  by_contra! h
  obtain ⟨-, hrsv, hstray⟩ := h
  exact hw (eq_opcode_append_zero hform hrsv (by simpa using hstray))

end Sys2Proof
end

section
/-! PROOFS. What the engine does with an illegal word (30_encoding.md R85), and what a CMD write does at once (R86). -/

namespace Sys2Proof.Machine

/-- The engine completes an illegal word with ILLEGAL_CMD (30_encoding.md R85). -/
theorem completeCommand_of_illegal {s : State} {c : IllegalWord} (h : decode s.pending = .error c) :
    completeCommand s = .next (s.raiseError .illegalCmd 0).complete := by
  rw [completeCommand, h]

/-- Settles O3: by the rows, by the fields, and by the completion of an illegal word. -/
theorem illegalWords : Obligations.IllegalWords := by
  unfold Obligations.IllegalWords
  refine fun w => ⟨illegal_iff_no_row w, illegal_iff_fields w, ?_⟩
  rintro s c rfl hc
  exact ⟨_, completeCommand_of_illegal hc, rfl⟩

/-! ## CLEAR at the write -/

/-- A CMD write of any word but CLEAR's moves the handshake alone (40_control.md R100). -/
theorem submit_handshake {s t : State} {w : Word} (hw : w ≠ clearWord) (h : submit w s = .next t) :
    t = { s with pending := t.pending, busy := t.busy, done := t.done, overrun := t.overrun } := by
  rcases submit_cases h with ⟨hclear, -⟩ | ⟨-, -, rfl⟩ | ⟨-, -, -, rfl⟩ | ⟨-, -, -, rfl⟩
  · exact absurd hclear hw
  all_goals rfl

/-- Settles O13: CLEAR by `submit`'s first case, another word by the other three, and an illegal one by its fields. -/
theorem onlyClearActsAtTheWrite : Obligations.OnlyClearActsAtTheWrite := by
  unfold Obligations.OnlyClearActsAtTheWrite
  refine ⟨fun s => rfl, fun s t w hw h => submit_handshake hw h, fun w hop hw => ?_⟩
  apply illegal_of_ne_opcode_append_zero
  · rw [hop]; rfl
  · rw [hop]; exact hw

end Sys2Proof.Machine
end

section
/-! PROOFS. A CMD write on the host's turn (40_control.md R100), NOP (R103), and ENCODE as its six stage commands
(R105). -/

namespace Sys2Proof.Machine

variable {s t : State}

/-! ## The CMD write -/

theorem step_cmdWrite {w : Word} {rest : List HostAction} (hn : nextAgent s = .host)
    (hs : s.script = .access ⟨cmdOffset, 4, .write w⟩ :: rest) :
    step s = submit w { s with script := rest, turns := s.turns.tail } := by
  rw [step_of_host hn, hostTurn_access (s := { s with turns := s.turns.tail }) hs, busAccess_cmdWrite]

/-- Settles O8: the step is `submit`'s, whose four cases are those of R100 in order. -/
theorem cmdWriteIsAcceptedInOrder : Obligations.CmdWriteIsAcceptedInOrder := by
  unfold Obligations.CmdWriteIsAcceptedInOrder
  rintro s w rest hn hs u rfl
  exact step_cmdWrite hn hs

/-! ## NOP -/

theorem exec_nop (s : State) : exec .nop s = .next s := rfl

theorem decode_nop : decode 0x00000000#32 = .ok .nop := rfl

/-- The completion of a word that decodes (40_control.md R101). -/
theorem completeCommand_of_decode {i : Instr} (hd : decode s.pending = .ok i) (hx : exec i s = .next t) :
    completeCommand s = .next t.complete := by
  simp only [completeCommand, hd, hx, completeOutcome]

theorem completeCommand_nop (hw : s.pending = 0x00000000#32) : completeCommand s = .next s.complete :=
  completeCommand_of_decode (hw ▸ decode_nop) (exec_nop s)

/-- With BUSY = 0 and ERR = 1 any word but CLEAR's is ignored (40_control.md R100). -/
theorem submit_ignored {w : Word} (hw : w ≠ clearWord) (hb : s.busy = false) (he : s.err = true) :
    submit w s = .next s := by
  simp [submit, hw, hb, he]

/-- R103's example: NOP right after reset leaves DONE alone set in STATUS. -/
theorem step_nop_from_reset :
    ∃ t, step (State.reset.withFetchWord 32 0x00000000) = .next t ∧ t.statusWord = 0x00000002#32 :=
  ⟨_, completeCommand_nop (s := State.reset.latch 0x00000000#32) rfl, rfl⟩

/-- Settles O11: NOP's effect, its only word, its completion, its write with ERR = 1, and its example. -/
theorem nopChangesNothing : Obligations.NopChangesNothing := by
  unfold Obligations.NopChangesNothing
  refine ⟨exec_nop, decode_nop, fun w hop hw => ?illegal, fun s _ hp => ⟨_, completeCommand_nop hp, rfl⟩,
    fun s hb he => submit_ignored (by decide) hb he, step_nop_from_reset⟩
  case illegal =>
    apply illegal_of_ne_opcode_append_zero
    · rw [hop]; rfl
    · rw [hop]; exact hw

/-! ## The stages of ENCODE -/

/-- ENCODE's phase in (30_encoding.md R84). -/
theorem phaseIn_encode_iff (p : Phase) : phaseIn .encode p = true ↔ p.rank < Phase.counted.rank := by
  cases p <;> decide

theorem exec_encode_of_phaseIn (h : phaseIn .encode s.phase = true) :
    exec .encode s = .next (runStages encodeStages s) :=
  congrArg Host.Outcome.next (if_pos h)

theorem exec_encode_of_counted (h : Phase.counted.rank ≤ s.phase.rank) :
    exec .encode s = .next (s.raiseError .sequence 0) :=
  congrArg Host.Outcome.next (if_neg ((phaseIn_encode_iff s.phase).not.mpr (Nat.not_lt.mpr h)))

theorem perform_of_ok {i : Instr} {rule : Rule} (hp : phaseIn i s.phase = true) (h : rule s = .ok t) :
    s.perform i rule = t.advance i := by
  simp only [State.perform, hp, h, if_true]

/-- Of what a stage leaves unchanged, what ENCODE's statement speaks of. -/
structure StageFrame (s t : State) : Prop where
  err : t.err = s.err
  len : t.len = s.len
  maxGroups : t.maxGroups = s.maxGroups

theorem StageFrame.trans {u : State} (h : StageFrame s t) (k : StageFrame t u) : StageFrame s u :=
  ⟨k.err.trans h.err, k.len.trans h.len, k.maxGroups.trans h.maxGroups⟩

/-- PACK's rule succeeds only where the groups fit (45_bit_packer.md R201, R202). -/
theorem packRule_ok (h : packRule s = .ok t) : groupsNeeded s.packedBits.length ≤ s.maxGroups ∧
    t = { s with
      group := s.group.writeRun (packGroups s.packedBits), totalBits := BitVec.ofNat 32 s.packedBits.length,
      ngroups := BitVec.ofNat 32 (groupsNeeded s.packedBits.length), accumulator := [] } := by
  simp only [packRule] at h
  split at h
  case isTrue => cases h
  case isFalse hfit =>
    cases h
    exact ⟨Nat.le_of_not_lt hfit, rfl⟩

/-- PACK's rule fails only where they do not fit (45_bit_packer.md R202). -/
theorem packRule_error {e : CommandError} (h : packRule s = .error e) :
    s.maxGroups < groupsNeeded s.packedBits.length ∧
      e = ⟨.outOverflow, BitVec.ofNat 32 (groupsNeeded s.packedBits.length)⟩ := by
  simp only [packRule] at h
  split at h
  case isTrue hover =>
    cases h
    exact ⟨hover, rfl⟩
  case isFalse => cases h

/-- A stage whose rule succeeds does what the command of its name does (R105). -/
theorem exec_stage {i : Instr} {rule : Rule} (hp : phaseIn i s.phase = true) (h : rule s = .ok t)
    (hi : (i, rule) ∈ encodeStages := by simp [encodeStages]) :
    exec i s = .next (t.advance i) ∧ StageFrame s (t.advance i) := by
  have performs := congrArg (Host.Outcome.next (φ := Fault) (ρ := Refusal)) (perform_of_ok hp h)
  simp only [encodeStages, List.mem_cons, Prod.mk.injEq, List.not_mem_nil, or_false] at hi
  rcases hi with ⟨rfl, rfl⟩ | ⟨rfl, rfl⟩ | ⟨rfl, rfl⟩ | ⟨rfl, rfl⟩ | ⟨rfl, rfl⟩ | ⟨rfl, rfl⟩ <;>
    refine ⟨performs, ?_⟩
  pick_goal 5
  · obtain ⟨-, rfl⟩ := packRule_ok h
    exact ⟨rfl, rfl, rfl⟩
  all_goals
    cases h
    exact ⟨rfl, rfl, rfl⟩

/-- ENCODE as commands: four that do not fail, then PACK's latch, or PACK and TRANSCODE (R105). -/
theorem encode_commands (hin : phaseIn .encode s.phase = true) : ∃ s1 s2 s3 s4,
    exec .count s = .next s1 ∧ exec .build s1 = .next s2 ∧ exec .serialize s2 = .next s3 ∧
      exec .derive s3 = .next s4 ∧ s4.phase = .derived ∧ StageFrame s s4 ∧
      ((s4.maxGroups < groupsNeeded s4.packedBits.length ∧ runStages encodeStages s =
          s4.raiseError .outOverflow (BitVec.ofNat 32 (groupsNeeded s4.packedBits.length))) ∨
        (groupsNeeded s4.packedBits.length ≤ s4.maxGroups ∧ ∃ s5, exec .pack s4 = .next s5 ∧
          exec .transcode s5 = .next (runStages encodeStages s) ∧
          (runStages encodeStages s).phase = .transcoded ∧ StageFrame s (runStages encodeStages s))) := by
  obtain ⟨u1, u2, u3, u4, h1, h2, h3, h4, hend⟩ := runStages_encode s
  obtain ⟨e1, k1⟩ := exec_stage (i := .count) hin h1
  obtain ⟨e2, k2⟩ := exec_stage (i := .build) rfl h2
  obtain ⟨e3, k3⟩ := exec_stage (i := .serialize) rfl h3
  obtain ⟨e4, k4⟩ := exec_stage (i := .derive) rfl h4
  have frame : StageFrame s (u4.advance .derive) := ((k1.trans k2).trans k3).trans k4
  refine ⟨_, _, _, _, e1, e2, e3, e4, rfl, frame, ?_⟩
  rcases hend with ⟨e, herr, hrun⟩ | ⟨u5, u6, h5, h6, hrun⟩
  · obtain ⟨hover, rfl⟩ := packRule_error herr
    exact .inl ⟨hover, hrun⟩
  · obtain ⟨e5, k5⟩ := exec_stage (i := .pack) rfl h5
    obtain ⟨e6, k6⟩ := exec_stage (i := .transcode) rfl h6
    rw [hrun]
    exact .inr ⟨(packRule_ok h5).1, _, e5, e6, rfl, (frame.trans k5).trans k6⟩

/-! ## The empty text -/

theorem distinctCount_frequencyTable_nil : distinctCount (frequencyTable []) = 0 := by
  simp [distinctCount, frequencyTable, List.countP_eq_zero]

/-- The empty encoding: an empty text's results are all zero and empty (R105). -/
theorem empty_of_transcoded (h : State.Shape s) (r : s.Results) (hp : s.phase = .transcoded) (hl : s.len = 0) :
    s.nsym = 0 ∧ s.nnodes = 0 ∧ s.root = 0 ∧ s.totalBits = 0 ∧ s.ngroups = 0 ∧
      s.artifact.outTree = [] ∧ s.artifact.outBits = [] := by
  have text : s.textList = [] := by simp [State.textList, hl]
  obtain ⟨hf, hn⟩ := r.counted (by simp [hp])
  have nsym : s.nsym.toNat = 0 := by
    rw [hn, hf, text, distinctCount_frequencyTable_nil]
  have nnodes : s.nnodes.toNat = 0 := by
    have leaves : initLeaves s.freqList = [] :=
      List.eq_nil_of_length_eq_zero (by rw [initLeaves_length, ← hn, nsym])
    have nodes : s.nodeList = [] := by rw [r.built (by simp [hp]), leaves]; rfl
    simpa [State.nodeList] using nodes
  have totalBits : s.totalBits.toNat = 0 := by
    rw [(r.packed (by simp [hp])).2, State.packedBits, text]
    rfl
  have ngroups : s.ngroups.toNat = 0 := by rw [h.bounded.groups, totalBits]; rfl
  refine ⟨BitVec.eq_of_toNat_eq nsym, BitVec.eq_of_toNat_eq nnodes, h.bounded.root,
    BitVec.eq_of_toNat_eq totalBits, BitVec.eq_of_toNat_eq ngroups, ?_, ?_⟩
  · simp [State.artifact, nnodes, listedRun]
  · simp [State.artifact, ngroups, listedRun]

/-- Settles O43: ENCODE by its commands, and the empty text by the results they leave. -/
theorem encodeRunsThePipeline : Obligations.EncodeRunsThePipeline := by
  unfold Obligations.EncodeRunsThePipeline
  refine ⟨fun s hs hp => ?_, fun s => exec_encode_of_counted⟩
  have hin : phaseIn .encode s.phase = true := (phaseIn_encode_iff s.phase).mpr (rank_of_loadable hp)
  obtain ⟨s1, s2, s3, s4, e1, e2, e3, e4, derived, frame, hpack⟩ := encode_commands hin
  refine ⟨s1, s2, s3, s4, e1, e2, e3, e4, derived, frame.err, ?_⟩
  rw [exec_encode_of_phaseIn hin, ← frame.maxGroups]
  rcases hpack with ⟨hover, hrun⟩ | ⟨hfit, s5, e5, e6, transcoded, kept⟩
  · exact ⟨fun h => absurd hover (Nat.not_lt.mpr h), fun _ => congrArg _ hrun⟩
  · refine ⟨fun _ => ⟨s5, _, e5, e6, rfl, transcoded, kept.err, fun hlen => ?_⟩,
      fun h => absurd hfit (Nat.not_le.mpr h)⟩
    have shape : State.Shape s := ⟨hs.bounded, hs.canonical, hs.listed⟩
    exact empty_of_transcoded (shape_encode shape hin) (results_encode shape hin) transcoded (kept.len.trans hlen)

end Sys2Proof.Machine
end

section
/-! PROOFS. A command word by its fields (30_encoding.md R82 to R85), PUSH (41_frequency.md R120) and COUNT (R121,
R123). -/

namespace Sys2Proof

/-! ## A command word by its fields -/

/-- No bit of IMM is stray exactly where IMM fits the opcode's operand (30_encoding.md R82). -/
theorem hasStrayBit_eq_false_iff (w : Word) :
    hasStrayBit w = false ↔ (immField w).toNat < 2 ^ (formOf (opField w)).width := by
  rw [hasStrayBit, bne_eq_false_iff_eq, ← BitVec.toNat_inj, BitVec.toNat_ushiftRight, Nat.shiftRight_eq_div_pow]
  simp [Nat.div_eq_zero_iff]

/-- A word with a row's opcode, RSV = 0 and an IMM that fits decodes by that row. -/
theorem decode_of_imm_lt {r : Row} (hr : r ∈ rows) {w : Word} (hop : opField w = opField r.pattern)
    (hrsv : rsvField w = 0) (himm : (immField w).toNat < 2 ^ (formOf (opField w)).width) :
    decode w = .ok (r.command w) :=
  decode_of_matches hr ((matches_row_iff hr w).mpr ⟨hop, hrsv, (hasStrayBit_eq_false_iff w).mpr himm⟩)

/-- A word with an assigned opcode, RSV = 0 and an IMM that does not fit has a stray operand bit (30_encoding.md R85). -/
theorem decode_of_imm_ge {w : Word} (hop : (opField w).toNat < 0x0C) (hrsv : rsvField w = 0)
    (himm : 2 ^ (formOf (opField w)).width ≤ (immField w).toNat) : decode w = .error .operandBits := by
  have noRow : ∀ r ∈ rows, w &&& r.mask ≠ r.pattern := by
    intro r hr h
    obtain ⟨-, -, hstray⟩ := (matches_row_iff hr w).mp h
    exact absurd ((hasStrayBit_eq_false_iff w).mp hstray) (Nat.not_lt.mpr himm)
  have hcause : illegalCause w = .operandBits := by
    rw [illegalCause, if_neg (Nat.not_le.mpr hop), if_neg (not_not.mpr hrsv)]
  rw [decode_of_no_row noRow, hcause]

end Sys2Proof

namespace Sys2Proof.Machine

variable {s t : State}

/-! ## The checks of a command -/

theorem perform_of_error {i : Instr} {rule : Rule} {e : CommandError} (hp : phaseIn i s.phase = true)
    (h : rule s = .error e) : s.perform i rule = s.raiseError e.code e.aux := by
  simp only [State.perform, hp, h, if_true]

theorem perform_of_not_phaseIn {i : Instr} {rule : Rule} (hp : ¬ phaseIn i s.phase = true) :
    s.perform i rule = s.raiseError .sequence 0 :=
  if_neg hp

/-- PUSH's phase in (30_encoding.md R84). -/
theorem phaseIn_push_iff (sym : Symbol) (p : Phase) : phaseIn (.push sym) p = true ↔ p = .empty ∨ p = .loaded := by
  simp [phaseIn]

/-- COUNT's phase in (30_encoding.md R84). -/
theorem phaseIn_count_iff (p : Phase) : phaseIn .count p = true ↔ p = .empty ∨ p = .loaded := by
  simp [phaseIn]

theorem not_loadable_of_counted {p : Phase} (h : Phase.counted.rank ≤ p.rank) : ¬ (p = .empty ∨ p = .loaded) :=
  fun hp => absurd (rank_of_loadable hp) (Nat.not_lt.mpr h)

/-! ## PUSH -/

theorem pushRule_of_room (sym : Symbol) (h : s.len.toNat ≠ s.maxLen) :
    pushRule sym s = .ok { s with text := s.text.write s.len.toNat sym, len := s.len + 1 } :=
  if_neg h

theorem pushRule_of_full (sym : Symbol) (h : s.len.toNat = s.maxLen) : pushRule sym s = .error ⟨.textFull, 0⟩ :=
  if_pos h

theorem exec_push_of_room (sym : Symbol) (hp : s.phase = .empty ∨ s.phase = .loaded)
    (h : s.len.toNat ≠ s.maxLen) : exec (.push sym) s =
      .next { s with text := s.text.write s.len.toNat sym, len := s.len + 1, phase := .loaded } :=
  congrArg Host.Outcome.next (perform_of_ok ((phaseIn_push_iff sym _).mpr hp) (pushRule_of_room sym h))

theorem exec_push_of_full (sym : Symbol) (hp : s.phase = .empty ∨ s.phase = .loaded)
    (h : s.len.toNat = s.maxLen) : exec (.push sym) s = .next (s.raiseError .textFull 0) :=
  congrArg Host.Outcome.next (perform_of_error ((phaseIn_push_iff sym _).mpr hp) (pushRule_of_full sym h))

theorem exec_push_of_counted (sym : Symbol) (h : Phase.counted.rank ≤ s.phase.rank) :
    exec (.push sym) s = .next (s.raiseError .sequence 0) :=
  congrArg Host.Outcome.next (perform_of_not_phaseIn ((phaseIn_push_iff sym _).not.mpr (not_loadable_of_counted h)))

/-- While the text has room, LEN + 1 does not wrap and stays within MAX_LEN (00_scope.md R7). -/
theorem len_succ_of_room (b : s.Bounded) (h : s.len.toNat ≠ s.maxLen) :
    (s.len + 1).toNat = s.len.toNat + 1 ∧ s.len.toNat + 1 ≤ s.maxLen := by
  have hlen := b.len
  obtain ⟨-, hcap⟩ := b.maxLen
  simp only [Config.maxCapacity] at hcap
  exact ⟨BitVec.toNat_add_of_lt (by simp; omega), by omega⟩

/-- Settles O20: PUSH by its three outcomes, and its words by their IMM field. -/
theorem pushAppendsTheSymbol : Obligations.PushAppendsTheSymbol := by
  unfold Obligations.PushAppendsTheSymbol
  refine ⟨fun s sym hs hp hroom => ?room, fun s sym => exec_push_of_full sym, fun s sym => exec_push_of_counted sym,
    fun w hop hrsv => ?words⟩
  case room =>
    obtain ⟨hsucc, hle⟩ := len_succ_of_room hs.bounded hroom
    refine ⟨_, exec_push_of_room sym hp hroom, rfl, hsucc, hsucc.trans_le hle, ?stored, fun j hj => ?kept⟩
    case stored => rw [Memory.read?_write, if_pos rfl]
    case kept => rw [Memory.read?_write, if_neg hj.symm]
  case words =>
    have hwidth : 2 ^ (formOf (opField w)).width = 256 := by rw [hop]; rfl
    refine ⟨fun himm => ?fits, fun himm => ?stray⟩
    case fits =>
      exact decode_of_imm_lt (r := ⟨0x02000000#32, 0xFFFFFF00#32, fun w => .push (symOperand w)⟩) (by simp [rows]) hop
        hrsv (hwidth ▸ himm)
    case stray => exact decode_of_imm_ge (by rw [hop]; decide) hrsv (hwidth ▸ himm)

/-! ## The table of counts -/

@[simp] theorem textList_length (s : State) : s.textList.length = s.len.toNat := by simp [State.textList]

theorem textList_length_lt (s : State) : s.textList.length < 2 ^ 32 := by
  rw [textList_length]
  exact s.len.isLt

/-- A text's count of a symbol fits an element of FREQ (00_scope.md R9). -/
theorem toNat_count {text : List Symbol} (h : text.length < 2 ^ 32) (v : Symbol) :
    (BitVec.ofNat 32 (text.count v)).toNat = text.count v :=
  toNat_ofNat_small (List.count_le_length.trans_lt h)

/-- The table depends on the counts alone, which a permutation keeps (41_frequency.md R123). -/
theorem frequencyTable_perm {text text' : List Symbol} (h : text.Perm text') :
    frequencyTable text = frequencyTable text' := by
  simp only [frequencyTable, h.count_eq]

/-- The symbols with a count are those that occur in the text (41_frequency.md R121). -/
theorem distinctCount_frequencyTable {text : List Symbol} (h : text.length < 2 ^ 32) :
    distinctCount (frequencyTable text) =
      ((List.range 256).filter (fun v => decide (BitVec.ofNat 8 v ∈ text))).length := by
  rw [distinctCount, frequencyTable, List.countP_map, ← List.countP_eq_length_filter]
  refine List.countP_congr fun v _ => ?_
  simp only [Function.comp, decide_eq_true_eq, toNat_count h, List.count_pos_iff]

/-! ## COUNT -/

/-- The state that COUNT leaves (41_frequency.md R121). -/
def State.counted (s : State) : State :=
  { s with
    freq := s.freq.writeRun (frequencyTable s.textList)
    nsym := BitVec.ofNat 32 (distinctCount (frequencyTable s.textList))
    phase := .counted }

theorem exec_count_of_loadable (hp : s.phase = .empty ∨ s.phase = .loaded) : exec .count s = .next s.counted :=
  congrArg Host.Outcome.next (perform_of_ok (rule := countRule) ((phaseIn_count_iff _).mpr hp) rfl)

theorem exec_count_of_counted (h : Phase.counted.rank ≤ s.phase.rank) :
    exec .count s = .next (s.raiseError .sequence 0) :=
  congrArg Host.Outcome.next (perform_of_not_phaseIn ((phaseIn_count_iff _).not.mpr (not_loadable_of_counted h)))

theorem counted_freq_read? (s : State) (j : Nat) : s.counted.freq.read? j =
    if j < 256 then some (BitVec.ofNat 32 (s.textList.count (BitVec.ofNat 8 j))) else s.freq.read? j := by
  rw [State.counted, Memory.read?_writeRun, frequencyTable_length]
  exact ite_congr rfl (frequencyTable_getElem? s.textList j) fun _ => rfl

theorem counted_nsym (s : State) :
    s.counted.nsym = BitVec.ofNat 32 (distinctCount (frequencyTable s.textList)) := rfl

theorem counted_nsym_toNat (s : State) : s.counted.nsym.toNat =
    ((List.range 256).filter (fun v => decide (BitVec.ofNat 8 v ∈ s.textList))).length := by
  have hle := distinctCount_le (frequencyTable s.textList)
  rw [frequencyTable_length] at hle
  rw [counted_nsym, ← distinctCount_frequencyTable (textList_length_lt s)]
  exact toNat_ofNat_small (by omega)

theorem counted_freqList (s : State) : s.counted.freqList = frequencyTable s.textList :=
  ((results_count (s := s) rfl).counted (Nat.le_refl _)).1

/-- FREQ adds up to LEN (41_frequency.md R121). -/
theorem counted_freqList_sum (s : State) : (s.counted.freqList.map BitVec.toNat).sum = s.len.toNat := by
  rw [counted_freqList, frequencyTable_sum _ (textList_length_lt s), textList_length]

theorem counted_nsym_of_empty (h : s.len = 0) : s.counted.nsym = 0 := by
  have htext : s.textList = [] := by simp [State.textList, h]
  rw [counted_nsym, htext, distinctCount_frequencyTable_nil]
  rfl

/-- Settles O21: COUNT by its two outcomes, and the first by what each register and element then holds. -/
theorem countFillsTheTable : Obligations.CountFillsTheTable := by
  unfold Obligations.CountFillsTheTable
  refine ⟨fun s _ hp => ?_, fun s => exec_count_of_counted⟩
  refine ⟨s.counted, exec_count_of_loadable hp, rfl, fun v => ?filled, fun j hj => ?kept, counted_nsym_toNat s,
    counted_freqList_sum s, counted_nsym_of_empty⟩
  case filled =>
    refine ⟨BitVec.ofNat 32 (s.textList.count v), ?_, toNat_count (textList_length_lt s) v, ?_⟩
    · rw [counted_freq_read?, if_pos v.isLt, BitVec.ofNat_toNat, BitVec.setWidth_eq]
    · rw [toNat_count (textList_length_lt s), ← textList_length]
      exact List.count_le_length
  case kept => rw [counted_freq_read?, if_neg (Nat.not_lt.mpr hj)]

/-- Settles O22: permuted texts have one table of counts, and COUNT writes FREQ and NSYM from it. -/
theorem countIgnoresTheOrder : Obligations.CountIgnoresTheOrder := by
  unfold Obligations.CountIgnoresTheOrder
  intro s s' t t' hperm hp hp' ht ht'
  obtain rfl : s.counted = t := by simpa [exec_count_of_loadable hp] using ht
  obtain rfl : s'.counted = t' := by simpa [exec_count_of_loadable hp'] using ht'
  refine ⟨fun v hv => ?freq, ?nsym⟩
  case freq => rw [counted_freq_read?, counted_freq_read?, if_pos hv, if_pos hv, hperm.count_eq]
  case nsym => rw [counted_nsym, counted_nsym, frequencyTable_perm hperm]

end Sys2Proof.Machine
end

section
/-! PROOFS. The builder's operations: the leaves (42_tree_builder.md R141), the scan (R142, R148) and a merge (R143). -/

namespace Sys2Proof.Machine

variable {nodes : List Node} {i j : Nat}

/-! ## Ids in a node store -/

theorem getElem?_eq_nodeIn (h : j < nodes.length) : nodes[j]? = some (nodeIn nodes j) := by
  simp [nodeIn, List.getD_eq_getElem?_getD, h]

/-! ## The leaves -/

/-- The leaves by the symbols' counts: each is made of one count that is not 0. -/
theorem mem_initLeaves_iff {freq : List Word} {n : Node} :
    n ∈ initLeaves freq ↔ ∃ v c, freq[v]? = some c ∧ 0 < c.toNat ∧ leafNode (BitVec.ofNat 8 v) c = n := by
  simp only [initLeaves, List.mem_map, List.mem_filter, Prod.exists, List.mk_mem_zipIdx_iff_getElem?,
    decide_eq_true_eq, and_assoc]
  exact exists_comm

theorem initLeaves_pairwise {freq : List Word} (h : freq.length ≤ 256) :
    (initLeaves freq).Pairwise (fun m n => m.sym.toNat < n.sym.toNat) := by
  have ids := zipIdx_filter_sublist freq (fun c => decide (0 < c.1.toNat))
  rw [← List.pairwise_map (f := Node.sym) (R := fun v w => v.toNat < w.toNat), initLeaves_symbols, List.pairwise_map]
  refine (List.pairwise_lt_range.sublist ids).imp_of_mem fun {v w} hv hw hlt => ?_
  have hv := List.mem_range.mp (ids.subset hv)
  have hw := List.mem_range.mp (ids.subset hw)
  rwa [BitVec.toNat_ofNat, BitVec.toNat_ofNat, Nat.mod_eq_of_lt (by omega), Nat.mod_eq_of_lt (by omega)]

/-- A leaf by its own fields: it is made of its own symbol's count alone. -/
theorem mem_initLeaves_iff_fields {freq : List Word} (hlen : freq.length = 256) {n : Node} :
    n ∈ initLeaves freq ↔ n.kind = .leaf ∧ n.live = true ∧ n.left = 0 ∧ n.right = 0 ∧
      freq[n.sym.toNat]? = some n.weight ∧ n.weight ≠ 0 := by
  rw [mem_initLeaves_iff]
  constructor
  case mp =>
    rintro ⟨v, c, hc, hpos, rfl⟩
    have hv : v < 256 := hlen ▸ (List.getElem?_eq_some_iff.mp hc).1
    refine ⟨rfl, rfl, rfl, rfl, ?_, ?_⟩
    · simpa [leafNode, Nat.mod_eq_of_lt hv] using hc
    · rintro rfl
      exact absurd hpos (by decide)
  case mpr =>
    obtain ⟨kind, sym, weight, live, left, right⟩ := n
    rintro ⟨rfl, rfl, rfl, rfl, hc, hne⟩
    have hpos : 0 < weight.toNat := by simpa [Nat.pos_iff_ne_zero, ← BitVec.toNat_inj] using hne
    exact ⟨sym.toNat, weight, hc, hpos, by simp [leafNode]⟩

/-- Settles O23: the symbols ascend as the indexes of FREQ do, and each leaf is known by its fields. -/
theorem leavesStandInSymbolOrder : Obligations.LeavesStandInSymbolOrder := by
  unfold Obligations.LeavesStandInSymbolOrder
  exact fun freq hlen => ⟨initLeaves_pairwise hlen.le, fun n => mem_initLeaves_iff_fields hlen⟩

/-! ## The scan -/

theorem before_asymm (h : Before nodes i j) : ¬ Before nodes j i := by
  unfold Before at *
  omega

theorem weight_le_of_before (h : Before nodes i j) :
    (nodeIn nodes i).weight.toNat ≤ (nodeIn nodes j).weight.toNat := by
  unfold Before at h
  omega

/-- The order of the pairs (W, id) has at most one least live id (42_tree_builder.md R142). -/
theorem leastLive_unique {other : Nat → Prop} (hi : LeastLive nodes other i) (hj : LeastLive nodes other j) :
    i = j := by
  obtain ⟨livei, keepsi, leasti⟩ := hi
  obtain ⟨livej, keepsj, leastj⟩ := hj
  by_contra hne
  exact before_asymm (leasti j livej keepsj (Ne.symm hne)) (leastj i livei keepsi hne)

theorem select2_first_iff : (select2 nodes).first = some i ↔ LeastLive nodes (fun _ => True) i := by
  have knows := select2_knows nodes
  have least : ∀ a, (select2 nodes).first = some a → LeastLive nodes (fun _ => True) a := fun a ha =>
    have ⟨live, before⟩ := knows.first a ha
    ⟨live, trivial, fun j hj _ => before j hj⟩
  refine ⟨least i, fun h => ?_⟩
  cases hf : (select2 nodes).first with
  | none => exact absurd h.1 ((knows.noFirst hf).2 i)
  | some a => rw [leastLive_unique (least a hf) h]

theorem select2_second_iff {a : Nat} (ha : (select2 nodes).first = some a) :
    (select2 nodes).second = some i ↔ LeastLive nodes (fun j => j ≠ a) i := by
  have knows := select2_knows nodes
  have least : ∀ b, (select2 nodes).second = some b → LeastLive nodes (fun j => j ≠ a) b := fun b hb =>
    knows.second a b ha hb
  refine ⟨least i, fun h => ?_⟩
  cases hs : (select2 nodes).second with
  | none => exact absurd (knows.noSecond a ha hs i h.1) h.2.1
  | some b => rw [leastLive_unique (least b hs) h]

/-- Settles O24: both candidates are the only ids with their property, and what comes later weighs no less. -/
theorem selectTakesTheTwoLeast : Obligations.SelectTakesTheTwoLeast := by
  unfold Obligations.SelectTakesTheTwoLeast
  refine fun nodes => ⟨fun a => select2_first_iff, fun a b => select2_second_iff, fun a b j ha hb hj hja hjb => ?_⟩
  obtain ⟨-, -, leasta⟩ := select2_first_iff.mp ha
  obtain ⟨-, -, leastb⟩ := (select2_second_iff ha).mp hb
  exact ⟨weight_le_of_before (leasta j hj trivial hja), weight_le_of_before (leastb j hj hja hjb)⟩

/-! ## A merge -/

theorem mergedNode_right {a : Nat} (b : Nat) (h : a < 512) : (mergedNode nodes a b).right.toNat = a :=
  (BitVec.toNat_ofNat a 9).trans (Nat.mod_eq_of_lt h)

theorem mergedNode_left (a : Nat) {b : Nat} (h : b < 512) : (mergedNode nodes a b).left.toNat = b :=
  (BitVec.toNat_ofNat b 9).trans (Nat.mod_eq_of_lt h)

theorem getElem?_merge_new (nodes : List Node) (a b : Nat) :
    (merge nodes a b)[nodes.length]? = some (mergedNode nodes a b) := by
  rw [getElem?_eq_nodeIn (by simp [merge_length]), nodeIn_merge_new]

theorem getElem?_merge_old {a b : Nat} {n : Node} (h : nodes[j]? = some n) :
    (merge nodes a b)[j]? = some (if j = a ∨ j = b then { n with live := false } else n) := by
  have hj : j < nodes.length := (List.getElem?_eq_some_iff.mp h).1
  obtain rfl : nodeIn nodes j = n := Option.some.inj ((getElem?_eq_nodeIn hj).symm.trans h)
  rw [getElem?_eq_nodeIn (by rw [merge_length]; omega), nodeIn_merge_old nodes a b j hj]
  by_cases hin : j = a ∨ j = b
  · rcases hin with rfl | rfl <;> simp
  · obtain ⟨ha, hb⟩ := not_or.mp hin
    simp [ha, hb]

/-- Settles O25: the new node stands last, and its two children's ids fit their 9 bits. -/
theorem mergeMakesAnInternalNode : Obligations.MergeMakesAnInternalNode := by
  unfold Obligations.MergeMakesAnInternalNode
  intro nodes a b ha hb _ hlen
  exact ⟨merge_length nodes a b,
    ⟨mergedNode nodes a b, getElem?_merge_new nodes a b, rfl, rfl, rfl, rfl, mergedNode_right b (by omega),
      mergedNode_left a (by omega)⟩,
    fun j n => getElem?_merge_old⟩

end Sys2Proof.Machine
end

section
/-! PROOFS. BUILD (42_tree_builder.md R140, R150) and the node store it leaves (R144 to R147). -/

namespace Sys2Proof.Machine

/-! ## What the merges keep -/

/-- What every merge of the loop keeps, the loop keeps. -/
theorem mergeLoop_keeps {P : List Node → Prop}
    (keeps : ∀ nodes a b, P nodes → a ∈ liveIds nodes → b ∈ liveIds nodes → a ≠ b → P (merge nodes a b))
    (rounds : Nat) (nodes : List Node) (sc : Scan) (h : P nodes) : P (mergeLoop rounds nodes sc).1 := by
  induction rounds generalizing nodes sc with
  | zero => exact h
  | succ rounds ih =>
    rw [mergeLoop]
    split
    case isTrue two =>
      obtain ⟨a, b, found, ha, hb, hab, -, -⟩ := select2_of_two_live two
      rw [found]
      exact ih _ _ (keeps nodes a b h ha hb hab)
    case isFalse => exact h

/-- An internal node made of two older ones, with the exact sum of their weights (42_tree_builder.md R143, R144). -/
structure AddsUp (nodeAt : Nat → Node) (j : Nat) : Prop where
  kind : (nodeAt j).kind = .internal
  left : (nodeAt j).left.toNat < j
  right : (nodeAt j).right.toNat < j
  weight : (nodeAt j).weight.toNat =
    (nodeAt (nodeAt j).left.toNat).weight.toNat + (nodeAt (nodeAt j).right.toNat).weight.toNat

/-- A node that adds up does so in every store that agrees with its own, up to LIVE. -/
theorem AddsUp.of_agree {f g : Nat → Node} {j : Nat} (h : AddsUp f j)
    (agree : ∀ i, i ≤ j → ∃ live, g i = { f i with live := live }) : AddsUp g j := by
  obtain ⟨live, hj⟩ := agree j (Nat.le_refl j)
  have weight : ∀ i, i < j → (g i).weight = (f i).weight := fun i hi => by
    obtain ⟨live, hi⟩ := agree i hi.le
    rw [hi]
  constructor <;> rw [hj]
  · exact h.kind
  · exact h.left
  · exact h.right
  · rw [weight _ h.left, weight _ h.right]
    exact h.weight

/-- The new node adds up where the sum fits 32 bits (00_scope.md R9). -/
theorem addsUp_merge_new {nodes : List Node} {a b : Nat} (ha : a < nodes.length) (hb : b < nodes.length)
    (hlen : nodes.length ≤ 510)
    (hw : (nodeIn nodes a).weight.toNat + (nodeIn nodes b).weight.toNat < 2 ^ 32) :
    AddsUp (nodeIn (merge nodes a b)) nodes.length := by
  have left : (mergedNode nodes a b).left.toNat = b := mergedNode_left a (by omega)
  have right : (mergedNode nodes a b).right.toNat = a := mergedNode_right b (by omega)
  constructor <;> rw [nodeIn_merge_new]
  · rfl
  · rwa [left]
  · rwa [right]
  · rw [left, right, nodeIn_merge_old nodes a b a ha, nodeIn_merge_old nodes a b b hb, Nat.add_comm]
    exact BitVec.toNat_add_of_lt hw

/-- An older node adds up as before, a merge taking LIVE alone. -/
theorem addsUp_merge_old {nodes : List Node} {j : Nat} (a b : Nat) (hj : j < nodes.length)
    (h : AddsUp (nodeIn nodes) j) : AddsUp (nodeIn (merge nodes a b)) j :=
  h.of_agree fun i hi => ⟨_, nodeIn_merge_old nodes a b i (Nat.lt_of_le_of_lt hi hj)⟩

/-- Two live nodes weigh no more than all leaves together. -/
theorem Forest.weight_pair_le {leaves nodes : List Node} {trees : List (Nat × CodeTree)} {a b : Nat}
    (F : Forest leaves nodes trees) (ha : a ∈ liveIds nodes) (hb : b ∈ liveIds nodes) (hab : a ≠ b) :
    (nodeIn nodes a).weight.toNat + (nodeIn nodes b).weight.toNat ≤ (leaves.map (fun n => n.weight.toNat)).sum := by
  rw [← F.weights, sum_perm_nat ((liveIds_perm_pair ha hb hab).map _)]
  simp only [List.map_cons, List.sum_cons]
  omega

/-- Before a merge the store has room for one more node (42_tree_builder.md R147). -/
theorem Forest.length_le {leaves nodes : List Node} {trees : List (Nat × CodeTree)} {a b : Nat}
    (F : Forest leaves nodes trees) (hk : leaves.length ≤ 256) (ha : a ∈ liveIds nodes) (hb : b ∈ liveIds nodes)
    (hab : a ≠ b) : nodes.length ≤ 510 := by
  have := F.count
  have := liveCount_merge ha hb hab
  have : 0 < liveCount (merge nodes a b) := by
    rw [← liveIds_length, liveIds_merge, List.length_append]
    exact Nat.lt_add_left _ Nat.one_pos
  omega

/-- A store that the merges have made of the leaves: a forest over them, in which each later node adds up. -/
structure MergedStore (leaves nodes : List Node) : Prop where
  forest : ∃ trees, Forest leaves nodes trees
  addsUp : ∀ j, leaves.length ≤ j → j < nodes.length → AddsUp (nodeIn nodes) j

/-- BUILD makes such a store (42_tree_builder.md R144). -/
theorem buildNodes_merged {leaves : List Node} (sc : Scan) (hk : leaves.length ≤ 256)
    (hw : (leaves.map (fun n => n.weight.toNat)).sum < 2 ^ 32)
    (hl : ∀ n ∈ leaves, n.kind = .leaf ∧ n.live = true) : MergedStore leaves (buildNodes leaves sc).1 := by
  refine mergeLoop_keeps (P := MergedStore leaves) ?_ leaves.length leaves sc
    ⟨⟨_, forest_init leaves hl⟩, fun j hj hlt => absurd hlt (Nat.not_lt.mpr hj)⟩
  rintro nodes a b ⟨⟨trees, F⟩, adds⟩ ha hb hab
  refine ⟨forest_merge F hk hw ha hb hab, fun j hj hlt => ?_⟩
  rcases Nat.lt_succ_iff_lt_or_eq.mp (merge_length nodes a b ▸ hlt) with hold | rfl
  · exact addsUp_merge_old a b hold (adds j hj hold)
  · exact addsUp_merge_new (mem_liveIds.mp ha).1 (mem_liveIds.mp hb).1 (F.length_le hk ha hb hab)
      (Nat.lt_of_le_of_lt (F.weight_pair_le ha hb hab) hw)

/-- k leaves make 2k - 1 nodes, and no leaf makes none (42_tree_builder.md R145, R150). -/
theorem holds_length {nodes : List Node} {freq : List Word} {t : Option CodeTree} (h : Holds nodes freq t) :
    nodes.length = 2 * (initLeaves freq).length - 1 := by
  cases t with
  | none => rw [h.1, h.2]; rfl
  | some t =>
    have := h.count
    omega

/-! ## The leaves of a counted text -/

variable {s : State}

theorem counted_le_of_built_le {p : Phase} (h : Phase.built.rank ≤ p.rank) : Phase.counted.rank ≤ p.rank :=
  Nat.le_trans (by decide) h

theorem freqList_length (s : State) : s.freqList.length = 256 := by simp [State.freqList, Config.symbolCount]

section Counted

variable (r : s.Results) (hc : Phase.counted.rank ≤ s.phase.rank)
include r hc

theorem initLeaves_length_eq_nsym : (initLeaves s.freqList).length = s.nsym.toNat := by
  rw [initLeaves_length, (r.counted hc).2]

theorem freqList_getElem? (v : Symbol) : s.freqList[v.toNat]? = some (BitVec.ofNat 32 (s.textList.count v)) := by
  rw [(r.counted hc).1, frequencyTable_getElem? _ _ v.isLt, BitVec.ofNat_toNat, BitVec.setWidth_eq]

/-- A leaf weighs its symbol's count in the text (42_tree_builder.md R144). -/
theorem weight_of_mem_initLeaves {n : Node} (h : n ∈ initLeaves s.freqList) :
    n.weight.toNat = s.textList.count n.sym := by
  obtain ⟨-, -, -, -, hw, -⟩ := (mem_initLeaves_iff_fields (freqList_length s)).mp h
  rw [← Option.some.inj ((freqList_getElem? r hc n.sym).symm.trans hw), toNat_count (textList_length_lt s)]

/-- The leaves together weigh LEN (42_tree_builder.md R144). -/
theorem initLeaves_weights_eq_len : ((initLeaves s.freqList).map (fun n => n.weight.toNat)).sum = s.len.toNat := by
  rw [initLeaves_weights, (r.counted hc).1, frequencyTable_sum _ (textList_length_lt s), textList_length]

/-- The symbols with a count are those of the text. -/
theorem freqList_pos_iff (v : Symbol) : 0 < (s.freqList.getD v.toNat 0).toNat ↔ v ∈ s.textList := by
  rw [List.getD_eq_getElem?_getD, freqList_getElem? r hc, Option.getD_some, toNat_count (textList_length_lt s),
    List.count_pos_iff]

theorem buildNodes_holds_of_counted (sc : Scan) :
    ∃ t, Holds (buildNodes (initLeaves s.freqList) sc).1 s.freqList t := by
  rw [(r.counted hc).1]
  exact buildNodes_holds s.textList (textList_length_lt s) sc

end Counted

/-! ## BUILD -/

/-- The nodes and scan candidates that BUILD makes of FREQ. -/
def State.builtNodes (s : State) : List Node × Scan := buildNodes (initLeaves s.freqList) s.scan

/-- The state that BUILD leaves (42_tree_builder.md R140). -/
def State.built (s : State) : State :=
  { s with
    node := s.node.writeRun s.builtNodes.1
    nnodes := BitVec.ofNat 32 s.builtNodes.1.length
    phase := .built
    scan := s.builtNodes.2 }

/-- BUILD's phase in (30_encoding.md R84). -/
theorem phaseIn_build_iff (p : Phase) : phaseIn .build p = true ↔ p = .counted := by simp [phaseIn]

theorem exec_build_of_not_counted (h : s.phase ≠ .counted) : exec .build s = .next (s.raiseError .sequence 0) :=
  congrArg Host.Outcome.next (perform_of_not_phaseIn ((phaseIn_build_iff _).not.mpr h))

section Build

variable (r : s.Results) (hp : s.phase = .counted)
include r hp

theorem exec_build_of_counted : exec .build s = .next s.built := by
  have all : (initLeaves s.freqList).take s.nsym.toNat = initLeaves s.freqList :=
    List.take_of_length_le (initLeaves_length_eq_nsym r (by rw [hp])).le
  have rule : buildRule s = .ok { s.built with phase := s.phase } := by
    simp only [buildRule, all]
    rfl
  exact congrArg Host.Outcome.next (perform_of_ok ((phaseIn_build_iff _).mpr hp) rule)

theorem builtNodes_length : s.builtNodes.1.length = 2 * s.nsym.toNat - 1 := by
  obtain ⟨t, ht⟩ := buildNodes_holds_of_counted r (by rw [hp]) s.scan
  rw [State.builtNodes, holds_length ht, initLeaves_length_eq_nsym r (by rw [hp])]

/-- BUILD's nodes come of the leaves by NSYM - 1 greedy merges (42_tree_builder.md R140, R145). -/
theorem builtNodes_greedy : GreedyMerges (s.nsym.toNat - 1) (initLeaves s.freqList) s.builtNodes.1 := by
  have allLive : liveCount (initLeaves s.freqList) = (initLeaves s.freqList).length :=
    List.countP_eq_length.mpr fun n hn => (initLeaves_leaf _ n hn).2
  rw [← initLeaves_length_eq_nsym r (by rw [hp]), ← allLive]
  exact mergeLoop_greedy _ _ _ (by omega)

end Build

/-- Settles O26: BUILD by its phase; the nodes by their merges and their number, the store by the run it writes. -/
theorem buildMergesGreedily : Obligations.BuildMergesGreedily := by
  unfold Obligations.BuildMergesGreedily
  refine ⟨fun s hs r hp => ?_, fun s => exec_build_of_not_counted⟩
  have hlen := builtNodes_length r hp
  refine ⟨s.built, s.builtNodes.1, exec_build_of_counted r hp, rfl, builtNodes_greedy r hp,
    initLeaves_length_eq_nsym r (by rw [hp]), ?nnodes, ?length, fun j hj => ?written, fun j hj => ?kept⟩
  case nnodes =>
    have := hs.bounded.nsym
    exact toNat_ofNat_small (by omega)
  case length =>
    split
    case isTrue h => rw [hlen, h]; rfl
    case isFalse => exact hlen
  case written => rw [State.built, Memory.read?_writeRun, if_pos hj]
  case kept => rw [State.built, Memory.read?_writeRun, if_neg (Nat.not_lt.mpr hj)]

/-! ## The node store from BUILT on -/

theorem nodeAt_eq_nodeIn {j : Nat} (hj : j < s.nnodes.toNat) : s.nodeAt j = nodeIn s.nodeList j := by
  simp [nodeIn, State.nodeList, List.getD_eq_getElem?_getD, hj]

@[simp] theorem nodeList_length (s : State) : s.nodeList.length = s.nnodes.toNat := by simp [State.nodeList]

/-- The tree of the node list, as NODE itself pictures it. -/
theorem BuiltTree.pictures_nodeAt {leaves : List Node} {t : CodeTree} (h : BuiltTree leaves s.nodeList t) :
    Pictures s.nodeAt t (s.nnodes.toNat - 1) ∧
      (pictureIds s.nodeAt t (s.nnodes.toNat - 1)).Perm (List.range s.nnodes.toNat) := by
  have pictures := h.pictures
  have ids := h.ids
  rw [nodeList_length] at pictures ids
  have agree := pictures_of_agree (nodeIn s.nodeList) s.nodeAt t (s.nnodes.toNat - 1) (fun j hj => by
    rw [nodeAt_eq_nodeIn (List.mem_range.mp (ids.mem_iff.mp hj))]
    exact ⟨rfl, rfl, rfl, rfl⟩) pictures
  exact ⟨agree.1, agree.2 ▸ ids⟩

section Built

variable (r : s.Results) (hb : Phase.built.rank ≤ s.phase.rank)
include r hb

theorem nnodes_eq : s.nnodes.toNat = 2 * s.nsym.toNat - 1 := by
  obtain ⟨t, ht⟩ := results_tree r hb
  rw [← nodeList_length, holds_length ht, initLeaves_length_eq_nsym r (counted_le_of_built_le hb)]

theorem builtTree_of_nsym_ne_zero (hk : s.nsym ≠ 0) : ∃ t, BuiltTree (initLeaves s.freqList) s.nodeList t := by
  obtain ⟨t, ht⟩ := results_tree r hb
  cases t with
  | none =>
    have := initLeaves_length_eq_nsym r (counted_le_of_built_le hb)
    rw [ht.1] at this
    exact absurd (BitVec.eq_of_toNat_eq this.symm) hk
  | some t => exact ⟨t, ht⟩

theorem nsym_ne_zero_of_lt {j : Nat} (hj : j < s.nnodes.toNat) : s.nsym ≠ 0 := by
  intro h
  rw [nnodes_eq r hb, h] at hj
  exact absurd hj (Nat.not_lt_zero j)

theorem root_lt (hk : s.nsym ≠ 0) : s.nnodes.toNat - 1 < s.nnodes.toNat := by
  have := nnodes_eq r hb
  have : s.nsym.toNat ≠ 0 := fun h => hk (BitVec.eq_of_toNat_eq h)
  omega

/-- The nodes below NSYM are the leaves, but for LIVE (42_tree_builder.md R141, R143). -/
theorem nodeAt_leaf {j : Nat} (hj : j < s.nsym.toNat) :
    (s.nodeAt j).kind = .leaf ∧ (s.nodeAt j).weight.toNat = s.textList.count (s.nodeAt j).sym := by
  have hc := counted_le_of_built_le hb
  have hn := nnodes_eq r hb
  obtain ⟨t, ht⟩ := builtTree_of_nsym_ne_zero r hb (nsym_ne_zero_of_lt r hb (j := j) (by omega))
  have hlt : j < (initLeaves s.freqList).length := by rwa [initLeaves_length_eq_nsym r hc]
  obtain ⟨-, same⟩ := ht.older j hlt
  have leaf := List.getElem_mem hlt
  have weight := weight_of_mem_initLeaves r hc leaf
  rw [nodeAt_eq_nodeIn (by omega), same]
  exact ⟨(initLeaves_leaf _ _ leaf).1, weight⟩

/-- The nodes from NSYM on are the internal ones (42_tree_builder.md R143, R145). -/
theorem nodeAt_addsUp {j : Nat} (hj : s.nsym.toNat ≤ j) (hlt : j < s.nnodes.toNat) : AddsUp s.nodeAt j := by
  have hc := counted_le_of_built_le hb
  have merged := buildNodes_merged (leaves := initLeaves s.freqList) ⟨none, none⟩
    (by rw [initLeaves_length, ← freqList_length s]; exact distinctCount_le _)
    (by rw [initLeaves_weights_eq_len r hc]; exact s.len.isLt) (initLeaves_leaf _)
  rw [← r.built hb] at merged
  exact (merged.addsUp j (by rwa [initLeaves_length_eq_nsym r hc]) (by rwa [nodeList_length])).of_agree
    fun i hi => ⟨_, nodeAt_eq_nodeIn (Nat.lt_of_le_of_lt hi hlt)⟩

theorem nodeAt_internal_iff {j : Nat} (hj : j < s.nnodes.toNat) :
    (s.nodeAt j).kind = .internal ↔ s.nsym.toNat ≤ j := by
  refine ⟨fun h => ?_, fun h => (nodeAt_addsUp r hb h hj).kind⟩
  by_contra hlt
  exact absurd ((nodeAt_leaf r hb (Nat.lt_of_not_le hlt)).1.symm.trans h) (by decide)

theorem nodeAt_leaf_iff {j : Nat} (hj : j < s.nnodes.toNat) : (s.nodeAt j).kind = .leaf ↔ j < s.nsym.toNat := by
  rw [← not_le, ← nodeAt_internal_iff r hb hj]
  cases (s.nodeAt j).kind <;> decide

/-- There are NSYM - 1 internal nodes (42_tree_builder.md R147). -/
theorem internal_count :
    ((List.range s.nnodes.toNat).filter (fun j => decide ((s.nodeAt j).kind = .internal))).length =
      s.nsym.toNat - 1 := by
  have internal : ∀ j ∈ List.range s.nnodes.toNat,
      decide ((s.nodeAt j).kind = .internal) = decide (s.nsym.toNat ≤ j) := fun j hj =>
    decide_eq_decide.mpr (nodeAt_internal_iff r hb (List.mem_range.mp hj))
  have nnodes : s.nnodes.toNat = s.nsym.toNat + (s.nsym.toNat - 1) := by
    have := nnodes_eq r hb
    omega
  have leaves : (List.range s.nsym.toNat).filter (fun j => decide (s.nsym.toNat ≤ j)) = [] := by
    simp [List.filter_eq_nil_iff]
  have others : ((List.range (s.nsym.toNat - 1)).map (s.nsym.toNat + ·)).filter
      (fun j => decide (s.nsym.toNat ≤ j)) = (List.range (s.nsym.toNat - 1)).map (s.nsym.toNat + ·) := by
    simp [List.filter_eq_self]
  rw [List.filter_congr internal, nnodes, List.range_add, List.filter_append, leaves, others]
  simp

theorem weight_le_len {j : Nat} (hj : j < s.nnodes.toNat) : (s.nodeAt j).weight.toNat ≤ s.len.toNat := by
  obtain ⟨t, ht⟩ := builtTree_of_nsym_ne_zero r hb (nsym_ne_zero_of_lt r hb hj)
  rw [nodeAt_eq_nodeIn hj, ← initLeaves_weights_eq_len r (counted_le_of_built_le hb)]
  exact ht.bounded j (by rwa [nodeList_length])

theorem weight_root (hk : s.nsym ≠ 0) : (s.nodeAt (s.nnodes.toNat - 1)).weight.toNat = s.len.toNat := by
  obtain ⟨t, ht⟩ := builtTree_of_nsym_ne_zero r hb hk
  have weight := ht.rootWeight
  rw [nodeList_length, initLeaves_weights_eq_len r (counted_le_of_built_le hb)] at weight
  rwa [nodeAt_eq_nodeIn (root_lt r hb hk)]

/-- A node's weight is the text's count of the leaves below it (42_tree_builder.md R144). -/
theorem weight_of_pictures {tr : CodeTree} {j : Nat} (hj : j < s.nnodes.toNat) (h : Pictures s.nodeAt tr j) :
    (s.nodeAt j).weight.toNat = (tr.leaves.map (fun v => s.textList.count v)).sum := by
  induction tr generalizing j with
  | leaf v =>
    obtain ⟨kind, rfl⟩ := h
    simpa [CodeTree.leaves] using (nodeAt_leaf r hb ((nodeAt_leaf_iff r hb hj).mp kind)).2
  | branch l u ihl ihu =>
    obtain ⟨kind, hl, hu⟩ := h
    have adds := nodeAt_addsUp r hb ((nodeAt_internal_iff r hb hj).mp kind) hj
    rw [adds.weight, ihl (adds.left.trans hj) hl, ihu (adds.right.trans hj) hu, CodeTree.leaves, List.map_append,
      List.sum_append]

/-- The leaves below a node are distinct symbols (42_tree_builder.md R144). -/
theorem leaves_nodup_of_pictures {tr : CodeTree} {j : Nat} (hj : j < s.nnodes.toNat) (h : Pictures s.nodeAt tr j) :
    tr.leaves.Nodup := by
  obtain ⟨t, ht⟩ := builtTree_of_nsym_ne_zero r hb (nsym_ne_zero_of_lt r hb hj)
  obtain ⟨pictures, ids⟩ := ht.pictures_nodeAt
  obtain ⟨nodup, -, -⟩ := holds_leaves (t := t) (freqList_length s) ht
  obtain ⟨u, hu, sub⟩ := pictures_below pictures (ids.mem_iff.mpr (List.mem_range.mpr hj))
  rw [pictures_unique h hu]
  exact nodup.sublist sub

end Built

/-- Settles O27: the tree's root is the only live node, and every node below NNODES is listed. -/
theorem rootIsTheOnlyLiveNode : Obligations.RootIsTheOnlyLiveNode := by
  unfold Obligations.RootIsTheOnlyLiveNode
  refine fun s hs r hb hk => ⟨nnodes_eq r hb, fun j hj => ?_⟩
  obtain ⟨t, ht⟩ := builtTree_of_nsym_ne_zero r hb hk
  refine ⟨s.nodeAt j, (hs.listed.node hb).read?_eq_some hj _, ?_⟩
  rw [nodeAt_eq_nodeIn hj, ht.live j (by rwa [nodeList_length]), nodeList_length]

/-- Settles O28: the tree of the run, its nodes and its leaves counted by NSYM. -/
theorem nodesFormAFullBinaryTree : Obligations.NodesFormAFullBinaryTree := by
  unfold Obligations.NodesFormAFullBinaryTree
  intro s hs r hb hk
  have hc := counted_le_of_built_le hb
  obtain ⟨t, ht⟩ := builtTree_of_nsym_ne_zero r hb hk
  obtain ⟨pictures, ids⟩ := ht.pictures_nodeAt
  obtain ⟨nodup, -, mem⟩ := holds_leaves (t := t) (freqList_length s) ht
  have leaves : t.leaves.length = s.nsym.toNat := by
    rw [ht.symbols.length_eq, List.length_map, initLeaves_length_eq_nsym r hc]
  have depth := t.depth_lt
  have nsym := hs.bounded.nsym
  exact ⟨t, pictures, ids, leaves, nnodes_eq r hb, internal_count r hb, by omega, by omega, nodup,
    fun v => (mem v).trans (freqList_pos_iff r hc v)⟩

/-- Settles O29: the leaves weigh their counts, the internal nodes add up, and so does every tree below a node. -/
theorem weightsCountTheText : Obligations.WeightsCountTheText := by
  unfold Obligations.WeightsCountTheText
  refine fun s _ r hb => ⟨fun j hj => ⟨weight_le_len r hb hj, fun kind => ?leaf, fun kind => ?internal,
    fun tr h => ⟨leaves_nodup_of_pictures r hb hj h, weight_of_pictures r hb hj h⟩⟩,
    fun hk => ⟨weight_root r hb hk, ?root⟩⟩
  case leaf => exact (nodeAt_leaf r hb ((nodeAt_leaf_iff r hb hj).mp kind)).2
  case internal => exact (nodeAt_addsUp r hb ((nodeAt_internal_iff r hb hj).mp kind) hj).weight
  case root =>
    obtain ⟨t, ht⟩ := builtTree_of_nsym_ne_zero r hb hk
    have pictures := ht.pictures_nodeAt.1
    have hroot := root_lt r hb hk
    exact ⟨t, pictures, leaves_nodup_of_pictures r hb hroot pictures,
      (weight_of_pictures r hb hroot pictures).symm.trans (weight_root r hb hk)⟩

end Sys2Proof.Machine
end

section
/-! PROOFS. SERIALIZE (43_serializer.md R160, R162, R168) and the elements it leaves in TREE (R164, R165). -/

namespace Sys2Proof.Machine

variable {s : State}

/-! ## The pre-order listing -/

/-- An element of a listing that begins at index `i` is a symbol, or minus the index of a right child, two or more
past its own and within the listing (43_serializer.md R164, R165). -/
theorem CodeTree.listing_getElem?_range (t : CodeTree) (i k : Nat) {e : Int} (h : (t.listing i)[k]? = some e) :
    (0 ≤ e ∧ e ≤ 255) ∨ ∃ r : Nat, e = -(r : Int) ∧ i + k + 2 ≤ r ∧ r < i + t.size := by
  induction t generalizing i k with
  | leaf v =>
    obtain rfl : e = (v.toNat : Int) := by simpa [CodeTree.listing] using List.mem_of_getElem? h
    have := v.isLt
    exact .inl ⟨by omega, by omega⟩
  | branch l u ihl ihu =>
    have := l.size_pos
    have := u.size_pos
    rw [CodeTree.size]
    cases k with
    | zero =>
      obtain rfl : -((i + 1 + l.size : Nat) : Int) = e := by simpa [CodeTree.listing] using h
      exact .inr ⟨_, rfl, by omega, by omega⟩
    | succ k =>
      rw [CodeTree.listing, List.getElem?_cons_succ, List.getElem?_append, l.listing_length] at h
      split at h
      case isTrue hk =>
        exact (ihl _ _ h).imp_right fun ⟨r, hr, past, within⟩ => ⟨r, hr, by omega, by omega⟩
      case isFalse hk =>
        exact (ihu _ _ h).imp_right fun ⟨r, hr, past, within⟩ => ⟨r, hr, by omega, by omega⟩

/-- A tree of one node lists that node's symbol (43_serializer.md R168). -/
theorem listing_of_size_one {nodeAt : Nat → Node} {t : CodeTree} {id : Nat} (h : Pictures nodeAt t id)
    (one : t.size = 1) (i : Nat) : t.listing i = [((nodeAt id).sym.toNat : Int)] := by
  cases t with
  | leaf v =>
    obtain ⟨-, rfl⟩ := h
    rfl
  | branch l u =>
    have := l.size_pos
    rw [CodeTree.size] at one
    omega

/-! ## SERIALIZE -/

/-- The elements that SERIALIZE writes. -/
def State.flattened (s : State) : List Int := (flatten s.nodeAt s.nnodes.toNat).getD s.freeTree

/-- The state that SERIALIZE leaves (43_serializer.md R160). -/
def State.serialized (s : State) : State :=
  { s with
    tree := s.tree.writeRun s.flattened
    root := 0
    phase := .serialized
    frames := [] }

/-- SERIALIZE's phase in (30_encoding.md R84). -/
theorem phaseIn_serialize_iff (p : Phase) : phaseIn .serialize p = true ↔ p = .built := by simp [phaseIn]

theorem exec_serialize_of_built (h : s.phase = .built) : exec .serialize s = .next s.serialized :=
  congrArg Host.Outcome.next (perform_of_ok (rule := serializeRule) ((phaseIn_serialize_iff _).mpr h) rfl)

theorem exec_serialize_of_not_built (h : s.phase ≠ .built) :
    exec .serialize s = .next (s.raiseError .sequence 0) :=
  congrArg Host.Outcome.next (perform_of_not_phaseIn ((phaseIn_serialize_iff _).not.mpr h))

theorem serialized_tree_read? (s : State) (j : Nat) : s.serialized.tree.read? j =
    if j < s.nnodes.toNat then s.flattened[j]? else s.tree.read? j := by
  rw [State.serialized, Memory.read?_writeRun, State.flattened, serialized_length]

/-- Where there is a node, NODE holds a tree. -/
theorem builtTree_of_lt (r : s.Results) (hb : Phase.built.rank ≤ s.phase.rank) {j : Nat} (hj : j < s.nnodes.toNat) :
    ∃ t, BuiltTree (initLeaves s.freqList) s.nodeList t :=
  builtTree_of_nsym_ne_zero r hb (nsym_ne_zero_of_lt r hb hj)

theorem BuiltTree.size_eq_nnodes {leaves : List Node} {t : CodeTree} (h : BuiltTree leaves s.nodeList t) :
    t.size = s.nnodes.toNat := by
  rw [h.size, nodeList_length]

/-- SERIALIZE lists the tree that NODE holds (43_serializer.md R162). -/
theorem BuiltTree.flattened_eq_listing {t : CodeTree} (h : BuiltTree (initLeaves s.freqList) s.nodeList t) :
    s.flattened = t.listing 0 := by
  rw [State.flattened, flatten_holds (t := some t) h s.nodeAt s.nnodes.toNat rfl]
  rfl

/-- Settles O30: SERIALIZE by its phase; TREE by the run it writes, which lists the tree that BUILD left in NODE. -/
theorem serializeListsTheTree : Obligations.SerializeListsTheTree := by
  unfold Obligations.SerializeListsTheTree
  refine ⟨fun s _ r hp => ?_, fun s => exec_serialize_of_not_built⟩
  have hb : Phase.built.rank ≤ s.phase.rank := by rw [hp]
  refine ⟨s.serialized, exec_serialize_of_built hp, rfl, fun i hi => ?kept, fun hn => ?listed, fun hone => ?single⟩
  case kept => rw [serialized_tree_read?, if_neg (Nat.not_lt.mpr hi)]
  case listed =>
    have hpos : 0 < s.nnodes.toNat := Nat.pos_of_ne_zero fun h => hn (BitVec.eq_of_toNat_eq h)
    obtain ⟨t, ht⟩ := builtTree_of_lt r hb hpos
    refine ⟨t, ht.pictures_nodeAt.1, ht.size_eq_nnodes, fun i hi => ?_⟩
    rw [serialized_tree_read?, if_pos hi, ht.flattened_eq_listing]
  case single =>
    have hone : s.nnodes.toNat = 1 := by rw [hone]; rfl
    have hpos : 0 < s.nnodes.toNat := by omega
    obtain ⟨t, ht⟩ := builtTree_of_lt r hb hpos
    have pictures := ht.pictures_nodeAt.1
    rw [hone] at pictures
    rw [serialized_tree_read?, if_pos hpos, ht.flattened_eq_listing,
      listing_of_size_one pictures (ht.size_eq_nnodes.trans hone)]
    rfl

/-! ## TREE from SERIALIZED on -/

/-- TREE's elements are those of the tree's listing (43_serializer.md R162). -/
theorem treeAt_eq_listing {t : CodeTree} (r : s.Results) (hp : Phase.serialized.rank ≤ s.phase.rank)
    (ht : BuiltTree (initLeaves s.freqList) s.nodeList t) {i : Nat} (hi : i < s.nnodes.toNat) :
    (t.listing 0)[i]? = some (s.treeAt i) := by
  have same : s.treeList = t.listing 0 := holds_treeList r hp (t := some t) ht
  rw [← same, State.treeList, List.getElem?_map, List.getElem?_range hi]
  rfl

/-- Settles O31: an element of TREE is one of the listing, where a marker names a right child within the tree. -/
theorem treeElementsAreInRange : Obligations.TreeElementsAreInRange := by
  unfold Obligations.TreeElementsAreInRange
  intro s hs r hp i hi
  obtain ⟨t, ht⟩ := builtTree_of_lt r (Nat.le_trans (by decide) hp) hi
  have nnodes := hs.bounded.nnodes
  have size := ht.size_eq_nnodes
  have range := t.listing_getElem?_range 0 i (treeAt_eq_listing r hp ht hi)
  refine ⟨s.treeAt i, (hs.listed.tree hp).read?_eq_some hi _, ?_⟩
  rcases range with ⟨low, high⟩ | ⟨c, marker, past, within⟩
  case inl => exact ⟨by omega, .inl ⟨low, high⟩, by omega, by omega⟩
  case inr => exact ⟨by omega, .inr ⟨c, marker, by omega, by omega, by omega⟩, by omega, by omega⟩

end Sys2Proof.Machine
end

section
/-! PROOFS. DERIVE (44_code_table.md R180, R182, R183) and the codes it leaves (R185, R186). -/

namespace Sys2Proof.Machine

variable {s : State}

/-! ## The codes of a tree -/

/-- Every code has a bit: a branch lies above each leaf, and a lone leaf has "0" (44_code_table.md R183, R185). -/
theorem CodeTree.codes_length_pos (t : CodeTree) : ∀ c ∈ t.codes, 1 ≤ c.2.length := by
  cases t with
  | leaf v => simp [CodeTree.codes]
  | branch l u =>
    intro c hc
    simp only [CodeTree.codes, CodeTree.paths, List.mem_append, List.mem_map] at hc
    rcases hc with ⟨d, -, rfl⟩ | ⟨d, -, rfl⟩ <;> simp

/-- Two leaves make a branch, whose codes are the paths (44_code_table.md R185). -/
theorem CodeTree.codes_eq_paths {t : CodeTree} (h : 2 ≤ t.leaves.length) : t.codes = t.paths := by
  cases t with
  | leaf v => exact absurd h (by simp [CodeTree.leaves])
  | branch l u => rfl

/-- The codes of the tree in NODE, none where there is no node. -/
def treeCodes : Option CodeTree → List (Symbol × BitString)
  | none => []
  | some t => t.codes

theorem treeTable_eq_storePaths (t : Option CodeTree) : treeTable t = storePaths emptyTable [] (treeCodes t) := by
  cases t with
  | none => rfl
  | some t => exact t.table_eq

theorem treeTable_getD_of_notMem {t : Option CodeTree} {v : Symbol} (h : v ∉ (treeCodes t).map Prod.fst) :
    (treeTable t).getD v.toNat [] = [] := by
  rw [treeTable_eq_storePaths, storePaths_getD_of_notMem _ _ _ v h, emptyTable_getD]

section Held

variable {nodes : List Node} {freq : List Word} {t : Option CodeTree}

/-- The coded symbols are those of the leaves (44_code_table.md R182). -/
theorem treeCodes_symbols_perm (h : Holds nodes freq t) :
    ((treeCodes t).map Prod.fst).Perm ((initLeaves freq).map Node.sym) := by
  cases t with
  | none => rw [h.1]; rfl
  | some t => exact t.codes_symbols ▸ h.symbols

variable (hf : freq.length = 256) (h : Holds nodes freq t)
include hf h

theorem treeCodes_symbols_nodup : ((treeCodes t).map Prod.fst).Nodup :=
  (treeCodes_symbols_perm h).nodup_iff.mpr (initLeaves_nodup freq hf.le)

theorem mem_treeCodes_symbols (v : Symbol) : v ∈ (treeCodes t).map Prod.fst ↔ 0 < (freq.getD v.toNat 0).toNat := by
  rw [(treeCodes_symbols_perm h).mem_iff, mem_initLeaves_symbols freq hf]

theorem treeTable_getD_of_mem {c : Symbol × BitString} (hc : c ∈ treeCodes t) :
    (treeTable t).getD c.1.toNat [] = c.2 := by
  rw [treeTable_eq_storePaths, storePaths_getD _ _ _ emptyTable_length (treeCodes_symbols_nodup hf h) c hc]
  rfl

/-- A code has from 1 to 255 bits (44_code_table.md R186). -/
theorem treeCodes_length {c : Symbol × BitString} (hc : c ∈ treeCodes t) : 1 ≤ c.2.length ∧ c.2.length ≤ 255 := by
  cases t with
  | none => exact absurd hc List.not_mem_nil
  | some t =>
    obtain ⟨-, leaves, -⟩ := holds_leaves hf h
    exact ⟨t.codes_length_pos c hc, t.codes_length leaves c hc⟩

end Held

/-! ## A code as a length and a number -/

theorem codeLength_toNat {p : BitString} (h : p.length ≤ 255) : (codeLength p).toNat = p.length :=
  (BitVec.toNat_ofNat _ 8).trans (Nat.mod_eq_of_lt (by omega))

theorem codeValue_toNat {p : BitString} (h : p.length ≤ 255) : (codeValue p).toNat = bitsValue p := by
  have fits : bitsValue p < 2 ^ 256 :=
    (bitsValue_lt p).trans_le (Nat.pow_le_pow_right (by decide) (by omega))
  exact (BitVec.toNat_ofNat _ 256).trans (Nat.mod_eq_of_lt fits)

/-- The number of a bit string, its first bit the most significant (44_code_table.md R182). -/
theorem bitsValue_eq_sum (p : BitString) : bitsValue p =
    ((List.range p.length).map (fun j => (p.getD j false).toNat * 2 ^ (p.length - 1 - j))).sum := by
  induction p with
  | nil => rfl
  | cons b p ih =>
    simp [bitsValue_cons, ih, List.range_succ_eq_map, Function.comp_def, Nat.sub_sub, Nat.add_comm 1]

/-! ## The code memories from DERIVED on -/

/-- Two functions that agree along a list, index by index. -/
theorem eq_getD_of_map_range {α β : Type} {f : Nat → α} {g : β → α} {xs : List β} {n i : Nat}
    (h : (List.range n).map f = xs.map g) (hi : i < n) (d : β) : f i = g (xs.getD i d) := by
  have hlen : i < xs.length := by simpa [← List.length_map (f := g), ← h] using hi
  simpa [hi, hlen, List.getD_eq_getElem?_getD] using congrArg (·[i]?) h

section Derived

variable (r : s.Results) (hp : Phase.derived.rank ≤ s.phase.rank) (root : s.root = 0) {t : Option CodeTree}
  (ht : Holds s.nodeList s.freqList t)
include r hp root ht

theorem codeAt_eq_table (v : Symbol) :
    s.codeLenAt v.toNat = codeLength ((treeTable t).getD v.toNat []) ∧
      s.codeValAt v.toNat = codeValue ((treeTable t).getD v.toNat []) := by
  obtain ⟨table, derived, lengths, values⟩ := r.derived hp
  have same : treeTable t = table := by
    rw [root, show (0 : BitVec _).toNat = 0 from rfl,
      deriveCodes_elements t _ _ (holds_treeList r (Nat.le_trans (by decide) hp) ht)] at derived
    exact Option.some.inj derived
  rw [same]
  exact ⟨eq_getD_of_map_range lengths v.isLt [], eq_getD_of_map_range values v.isLt []⟩

theorem codeAt_of_mem {c : Symbol × BitString} (hc : c ∈ treeCodes t) :
    (s.codeLenAt c.1.toNat).toNat = c.2.length ∧ (s.codeValAt c.1.toNat).toNat = bitsValue c.2 := by
  obtain ⟨length, value⟩ := codeAt_eq_table r hp root ht c.1
  obtain ⟨-, bound⟩ := treeCodes_length (freqList_length s) ht hc
  rw [length, value, treeTable_getD_of_mem (freqList_length s) ht hc]
  exact ⟨codeLength_toNat bound, codeValue_toNat bound⟩

theorem codeAt_of_notMem {v : Symbol} (hv : v ∉ (treeCodes t).map Prod.fst) :
    s.codeLenAt v.toNat = 0 ∧ s.codeValAt v.toNat = 0 := by
  obtain ⟨length, value⟩ := codeAt_eq_table r hp root ht v
  rw [length, value, treeTable_getD_of_notMem hv]
  exact ⟨rfl, rfl⟩

/-- The symbols with a code length are the coded ones. -/
theorem codeLenAt_ne_zero_perm : ((List.range 256).filter (fun v => decide ((s.codeLenAt v).toNat ≠ 0))).Perm
    ((treeCodes t).map (fun c => c.1.toNat)) := by
  have nodup : ((treeCodes t).map (fun c => c.1.toNat)).Nodup := by
    simpa [Function.comp_def] using
      (treeCodes_symbols_nodup (freqList_length s) ht).map (f := BitVec.toNat) fun _ _ => BitVec.eq_of_toNat_eq
  refine (List.perm_ext_iff_of_nodup (List.nodup_range.filter _) nodup).mpr fun n => ?_
  simp only [List.mem_filter, List.mem_range, decide_eq_true_eq, List.mem_map]
  constructor
  case mp =>
    rintro ⟨hn, length⟩
    obtain ⟨v, rfl⟩ : ∃ v : Symbol, v.toNat = n := ⟨BitVec.ofNat 8 n, by simp; omega⟩
    by_contra absent
    have uncoded : v ∉ (treeCodes t).map Prod.fst := fun hv =>
      have ⟨c, hc, hcv⟩ := List.mem_map.mp hv
      absent ⟨c, hc, congrArg _ hcv⟩
    exact length (congrArg BitVec.toNat (codeAt_of_notMem r hp root ht uncoded).1)
  case mpr =>
    rintro ⟨c, hc, rfl⟩
    have length := (codeAt_of_mem r hp root ht hc).1
    have pos := (treeCodes_length (freqList_length s) ht hc).1
    exact ⟨c.1.isLt, by omega⟩

/-- A sum over the elements of CODE_LEN that are not 0 is one over the codes. -/
theorem sum_codeLenAt_eq (f : Nat → Nat) :
    (((List.range 256).filter (fun v => decide ((s.codeLenAt v).toNat ≠ 0))).map
      (fun v => f (s.codeLenAt v).toNat)).sum = ((treeCodes t).map (fun c => f c.2.length)).sum := by
  rw [((codeLenAt_ne_zero_perm r hp root ht).map _).sum_eq, List.map_map]
  exact congrArg List.sum (List.map_congr_left fun c hc => congrArg f (codeAt_of_mem r hp root ht hc).1)

end Derived

/-! ## DERIVE -/

/-- The state that DERIVE leaves (44_code_table.md R180). -/
def State.derived (s : State) : State :=
  { s with
    codeLen := s.codeLen.writeRun (s.derivedLengths (deriveCodes s.treeAt s.nnodes.toNat s.root.toNat))
    codeVal := s.codeVal.writeRun (s.derivedValues (deriveCodes s.treeAt s.nnodes.toNat s.root.toNat))
    phase := .derived
    walk := [] }

/-- DERIVE's phase in (30_encoding.md R84). -/
theorem phaseIn_derive_iff (p : Phase) : phaseIn .derive p = true ↔ p = .serialized := by simp [phaseIn]

theorem exec_derive_of_serialized (h : s.phase = .serialized) : exec .derive s = .next s.derived :=
  congrArg Host.Outcome.next (perform_of_ok (rule := deriveRule) ((phaseIn_derive_iff _).mpr h) rfl)

theorem exec_derive_of_not_serialized (h : s.phase ≠ .serialized) :
    exec .derive s = .next (s.raiseError .sequence 0) :=
  congrArg Host.Outcome.next (perform_of_not_phaseIn ((phaseIn_derive_iff _).not.mpr h))

/-- DERIVE writes all 256 elements of both memories (44_code_table.md R180). -/
theorem derived_codeAt_read? {s : State} (c : State.Shape s) (h : s.phase = .serialized) {i : Nat} (hi : i < 256) :
    s.derived.codeLen.read? i = some (s.derived.codeLenAt i) ∧
      s.derived.codeVal.read? i = some (s.derived.codeValAt i) := by
  have listed := (shape_derive c ((phaseIn_derive_iff _).mpr h) rfl).listed
  exact ⟨(listed.codeLen (Nat.le_refl _)).read?_eq_some hi _, (listed.codeVal (Nat.le_refl _)).read?_eq_some hi _⟩

theorem derived_codeAt_kept (s : State) {i : Nat} (hi : 256 ≤ i) :
    s.derived.codeLen.read? i = s.codeLen.read? i ∧ s.derived.codeVal.read? i = s.codeVal.read? i := by
  constructor
  · rw [State.derived, Memory.read?_writeRun, derivedLengths_length, if_neg (Nat.not_lt.mpr hi)]
  · rw [State.derived, Memory.read?_writeRun, derivedValues_length, if_neg (Nat.not_lt.mpr hi)]

/-- A symbol has a code exactly where its count is not 0 (44_code_table.md R182). -/
theorem mem_treeCodes_iff_freqAt {t : Option CodeTree} (ht : Holds s.nodeList s.freqList t) (v : Symbol) :
    v ∈ (treeCodes t).map Prod.fst ↔ s.freqAt v.toNat ≠ 0 := by
  have count : s.freqList.getD v.toNat 0 = s.freqAt v.toNat :=
    (eq_getD_of_map_range (List.map_id s.freqList).symm v.isLt 0).symm
  rw [mem_treeCodes_symbols (freqList_length s) ht, count, Nat.pos_iff_ne_zero]
  exact BitVec.toNat_ne_iff_ne (y := 0#32)

/-- TREE lists the tree that the codes are of, or nothing (43_serializer.md R162). -/
theorem treeCodes_of_tree (l : s.Listed) (r : s.Results) (hp : Phase.serialized.rank ≤ s.phase.rank)
    {t : Option CodeTree} (ht : Holds s.nodeList s.freqList t) :
    (s.nnodes = 0 ∧ treeCodes t = []) ∨
      ∃ tr : CodeTree, (∀ i, i < s.nnodes.toNat → s.tree.read? i = (tr.listing 0)[i]?) ∧
        tr.size = s.nnodes.toNat ∧ treeCodes t = tr.codes := by
  cases t with
  | none =>
    have nnodes : s.nnodes.toNat = 0 := by rw [← nodeList_length, ht.2]; rfl
    exact .inl ⟨BitVec.eq_of_toNat_eq nnodes, rfl⟩
  | some t =>
    refine .inr ⟨t, fun i hi => ?_, BuiltTree.size_eq_nnodes ht, rfl⟩
    rw [treeAt_eq_listing r hp ht hi]
    exact (l.tree hp).read?_eq_some hi _

/-- Settles O32: DERIVE by its phase; the two memories by the codes of the tree that TREE lists. -/
theorem deriveWritesTheCodes : Obligations.DeriveWritesTheCodes := by
  unfold Obligations.DeriveWritesTheCodes
  refine ⟨fun s hs r h => ?_, fun s => exec_derive_of_not_serialized⟩
  have shape : State.Shape s := ⟨hs.bounded, hs.canonical, hs.listed⟩
  have results : s.derived.Results := results_derive shape ((phaseIn_derive_iff _).mpr h) r rfl
  have root : s.derived.root = 0 := hs.bounded.root
  obtain ⟨t, ht⟩ := results_tree r (by rw [h]; decide)
  have ht' : Holds s.derived.nodeList s.derived.freqList t := ht
  refine ⟨s.derived, treeCodes t, exec_derive_of_serialized h, rfl, treeCodes_of_tree hs.listed r (by rw [h]) ht,
    mem_treeCodes_iff_freqAt ht, fun v hv => ?uncoded, fun c hc => ?coded, fun i => derived_codeAt_kept s⟩
  case uncoded =>
    obtain ⟨length, value⟩ := codeAt_of_notMem results (Nat.le_refl _) root ht' hv
    rw [← length, ← value]
    exact derived_codeAt_read? shape h v.isLt
  case coded =>
    obtain ⟨length, value⟩ := codeAt_of_mem results (Nat.le_refl _) root ht' hc
    obtain ⟨readLength, readValue⟩ := derived_codeAt_read? shape h c.1.isLt
    exact ⟨_, _, readLength, length, readValue, value.trans (bitsValue_eq_sum c.2)⟩

/-! ## Codes of two or more symbols -/

/-- From DERIVED on, with k >= 2, NODE holds a tree of k leaves, whose codes are its paths. -/
theorem builtTree_of_two_symbols (r : s.Results) (hp : Phase.derived.rank ≤ s.phase.rank) (hk : 2 ≤ s.nsym.toNat) :
    ∃ t, BuiltTree (initLeaves s.freqList) s.nodeList t ∧ t.leaves.length = s.nsym.toNat ∧ t.codes = t.paths := by
  have hb : Phase.built.rank ≤ s.phase.rank := Nat.le_trans (by decide) hp
  obtain ⟨t, ht⟩ := builtTree_of_nsym_ne_zero r hb (fun h => absurd hk (by rw [h]; decide))
  have leaves : t.leaves.length = s.nsym.toNat := by
    rw [ht.symbols.length_eq, List.length_map, initLeaves_length_eq_nsym r (counted_le_of_built_le hb)]
  exact ⟨t, ht, leaves, CodeTree.codes_eq_paths (leaves ▸ hk)⟩

/-- Settles O33: each leaf's path is its code, and the paths of a tree are prefix-free. -/
theorem codesArePrefixFree : Obligations.CodesArePrefixFree := by
  unfold Obligations.CodesArePrefixFree
  intro s hs r hp hk
  obtain ⟨t, ht, leaves, paths⟩ := builtTree_of_two_symbols r hp hk
  obtain ⟨nodup, -, mem⟩ := holds_leaves (t := t) (freqList_length s) ht
  have hc : Phase.counted.rank ≤ s.phase.rank := Nat.le_trans (by decide) hp
  have code : ∀ v, s.codeOf v = t.table.getD v.toNat [] := codeOf_of_results r hp (t := some t) ht hs.bounded.root
  have onLeaf : ∀ v ∈ t.leaves, (v, s.codeOf v) ∈ t.paths := fun v hv => by
    rw [code, ← paths]
    exact mem_codes_getD t nodup v hv
  have onText : ∀ v ∈ s.textList, (v, s.codeOf v) ∈ t.paths := fun v hv =>
    onLeaf v ((mem v).mpr (freq_pos_of_mem r hc v hv))
  refine ⟨⟨t, ht.pictures_nodeAt.1, leaves, fun v hv => ⟨onLeaf v hv, fun p path => ?only⟩⟩,
    fun v hv => t.codes_length_pos _ (paths ▸ onText v hv), fun v hv w hw hne begins => ?free⟩
  case only =>
    rw [code]
    exact (t.table_getD nodup (v, p) (paths ▸ path)).symm
  case free =>
    exact hne (congrArg Prod.fst (t.path_unique _ (onText v hv) _ (onText w hw) begins))

/-- Settles O34: the codes are a tree's paths, which its depth bounds and which meet Kraft's sum. -/
theorem codesMeetKraftsSum : Obligations.CodesMeetKraftsSum := by
  unfold Obligations.CodesMeetKraftsSum
  refine fun s hs r hp => ⟨fun v => ⟨Nat.le_of_lt_succ (s.codeLenAt v.toNat).isLt, ?value⟩, fun hk => ?full⟩
  case value =>
    obtain ⟨t, ht⟩ := results_tree r (Nat.le_trans (by decide) hp)
    by_cases hv : v ∈ (treeCodes t).map Prod.fst
    · obtain ⟨c, hc, rfl⟩ := List.mem_map.mp hv
      obtain ⟨-, bound⟩ := treeCodes_length (freqList_length s) ht hc
      rw [(codeAt_of_mem r hp hs.bounded.root ht hc).2]
      exact (bitsValue_lt c.2).trans_le (Nat.pow_le_pow_right (by decide) bound)
    · rw [(codeAt_of_notMem r hp hs.bounded.root ht hv).2]
      decide
  case full =>
    obtain ⟨t, ht, leaves, paths⟩ := builtTree_of_two_symbols r hp hk
    have ht : Holds s.nodeList s.freqList (some t) := ht
    have nsym := hs.bounded.nsym
    have depth := t.depth_lt
    refine ⟨fun v => ?length, ?kraft⟩
    case length =>
      by_cases hv : v ∈ (treeCodes (some t)).map Prod.fst
      · obtain ⟨c, hc, rfl⟩ := List.mem_map.mp hv
        have := t.path_length_le c (paths ▸ hc)
        rw [(codeAt_of_mem r hp hs.bounded.root ht hc).1]
        omega
      · rw [(codeAt_of_notMem r hp hs.bounded.root ht hv).1]
        exact Nat.zero_le _
    case kraft =>
      rw [sum_codeLenAt_eq r hp hs.bounded.root ht (fun n => 2 ^ (255 - n)), treeCodes, paths]
      exact t.kraft 255 (by omega)

end Sys2Proof.Machine
end

section
/-! PROOFS. PACK (45_bit_packer.md R200 to R203), its streaming form (R207) and TOTAL_BITS (R205, R206). -/

namespace Sys2Proof.Machine

variable {s t : State}

/-! ## Groups -/

/-- GROUP[j] as a number: its bits weighted by their places, the first one most significant (45_bit_packer.md R201). -/
theorem groupOf_toNat (bits : BitString) (j : Nat) : (groupOf bits j).toNat =
    ((List.range 6).map (fun p => (bits.getD (6 * j + p) false).toNat * 2 ^ (5 - p))).sum := by
  have fits := bitsValue_lt ((List.range 6).map (fun p => bits.getD (6 * j + p) false))
  rw [List.length_map, List.length_range] at fits
  rw [groupOf, BitVec.toNat_ofNat, Nat.mod_eq_of_lt fits, bitsValue_eq_sum, List.length_map, List.length_range]
  refine congrArg List.sum (List.map_congr_left fun p hp => ?_)
  simp [List.getD_eq_getElem?_getD, List.mem_range.mp hp]

theorem packGroups_getElem? {bits : BitString} {j : Nat} (h : j < groupsNeeded bits.length) :
    (packGroups bits)[j]? = some (groupOf bits j) := by
  simp [packGroups, h]

/-! ## PACK -/

/-- The state that PACK leaves where the groups fit (45_bit_packer.md R201). -/
def State.packed (s : State) : State :=
  { s with
    group := s.group.writeRun (packGroups s.packedBits)
    totalBits := BitVec.ofNat 32 s.packedBits.length
    ngroups := BitVec.ofNat 32 (groupsNeeded s.packedBits.length)
    phase := .packed
    accumulator := [] }

/-- PACK's phase in (30_encoding.md R84). -/
theorem phaseIn_pack_iff (p : Phase) : phaseIn .pack p = true ↔ p = .derived := by simp [phaseIn]

theorem exec_pack_of_fits (hp : s.phase = .derived) (h : groupsNeeded s.packedBits.length ≤ s.maxGroups) :
    exec .pack s = .next s.packed :=
  congrArg Host.Outcome.next
    (perform_of_ok (rule := packRule) ((phaseIn_pack_iff _).mpr hp) (if_neg (Nat.not_lt.mpr h)))

theorem exec_pack_of_overflow (hp : s.phase = .derived) (h : s.maxGroups < groupsNeeded s.packedBits.length) :
    exec .pack s = .next (s.raiseError .outOverflow (BitVec.ofNat 32 (groupsNeeded s.packedBits.length))) :=
  congrArg Host.Outcome.next (perform_of_error (rule := packRule) ((phaseIn_pack_iff _).mpr hp) (if_pos h))

theorem exec_pack_of_not_derived (h : s.phase ≠ .derived) : exec .pack s = .next (s.raiseError .sequence 0) :=
  congrArg Host.Outcome.next (perform_of_not_phaseIn ((phaseIn_pack_iff _).not.mpr h))

/-- A PACK that reaches PACKED had the room: an overflow leaves PHASE at DERIVED (45_bit_packer.md R202). -/
theorem packed_of_exec_pack (hp : s.phase = .derived) (he : exec .pack s = .next t) (ht : t.phase = .packed) :
    groupsNeeded s.packedBits.length ≤ s.maxGroups ∧ t = s.packed := by
  rcases Nat.lt_or_ge s.maxGroups (groupsNeeded s.packedBits.length) with overflow | fits
  · rw [exec_pack_of_overflow hp overflow] at he
    cases he
    simp [hp] at ht
  · rw [exec_pack_of_fits hp fits] at he
    cases he
    exact ⟨fits, rfl⟩

theorem packed_group_read? (s : State) (j : Nat) : s.packed.group.read? j =
    if j < groupsNeeded s.packedBits.length then (packGroups s.packedBits)[j]? else s.group.read? j := by
  rw [State.packed, Memory.read?_writeRun, packGroups_length]

/-- An empty text packs to no bits, and PACK then leaves GROUP as it is (45_bit_packer.md R203). -/
theorem packed_of_empty (h : s.len = 0) :
    s.packed.totalBits = 0 ∧ s.packed.ngroups = 0 ∧ s.packed.group = s.group := by
  have bits : s.packedBits = [] := by simp [State.packedBits, State.textList, h]
  have kept : s.group.writeRun [] = s.group := by simp [Memory.writeRun, Memory.listing]
  rw [State.packed, bits]
  exact ⟨rfl, rfl, kept⟩

section Fits

variable (b : s.Bounded) (fits : groupsNeeded s.packedBits.length ≤ s.maxGroups)
include b fits

/-- Groups that fit are few enough for NGROUPS (00_scope.md R8, R9). -/
theorem packed_ngroups_toNat : s.packed.ngroups.toNat = groupsNeeded s.packedBits.length := by
  have cap : s.maxGroups ≤ 4194304 := b.maxGroups.2
  exact toNat_ofNat_small (by omega)

/-- The bits of groups that fit are few enough for TOTAL_BITS (00_scope.md R8, R9). -/
theorem packed_totalBits_toNat : s.packed.totalBits.toNat = s.packedBits.length := by
  have cap : s.maxGroups ≤ 4194304 := b.maxGroups.2
  have room : (s.packedBits.length + 5) / 6 ≤ s.maxGroups := fits
  exact toNat_ofNat_small (by omega)

end Fits

/-- Settles O35: PACK by its three outcomes, and the first by what each register and element then holds. -/
theorem packWritesTheGroups : Obligations.PackWritesTheGroups := by
  unfold Obligations.PackWritesTheGroups
  refine ⟨fun s bits hs hp hbits => ?_, fun s => exec_pack_of_not_derived⟩
  obtain rfl : bits = s.packedBits := hbits
  refine ⟨fun v => rfl, fun fits => ?fits, exec_pack_of_overflow hp⟩
  have ngroups := packed_ngroups_toNat hs.bounded fits
  refine ⟨s.packed, exec_pack_of_fits hp fits, rfl, packed_totalBits_toNat hs.bounded fits, ngroups,
    fun j hj => ?written, fun j hj => ?kept, packed_of_empty⟩
  case written =>
    rw [ngroups] at hj
    exact ⟨groupOf s.packedBits j, by rw [packed_group_read?, if_pos hj, packGroups_getElem? hj],
      groupOf_toNat s.packedBits j⟩
  case kept => rw [packed_group_read?, if_neg (Nat.not_lt.mpr (ngroups ▸ hj))]

/-! ## The streaming form -/

/-- With fewer than 6 bits held, the streaming packer gives the groups of the held bits and the codes to come. -/
theorem packStream_eq_packGroups (codes : List BitString) {held : BitString} (h : held.length < 6) :
    packStream codes held = packGroups (held ++ codes.flatten) := by
  induction codes generalizing held with
  | nil => rw [packStream, List.flatten_nil, List.append_nil, packGroups_short held h]
  | cons code codes ih =>
    rw [packStream, ih (takeGroups_short _), List.flatten_cons, ← List.append_assoc, ← packGroups_takeGroups]

/-- Settles O36: the two forms agree from an empty accumulator, and PACK writes the one of R201. -/
theorem streamingPackerAgrees : Obligations.StreamingPackerAgrees := by
  unfold Obligations.StreamingPackerAgrees
  have agrees (codes : List BitString) : packStream codes [] = packGroups codes.flatten :=
    packStream_eq_packGroups codes (by decide)
  refine ⟨agrees, fun s t hs hp he ht j hj => ?_⟩
  obtain ⟨fits, rfl⟩ := packed_of_exec_pack hp he ht
  rw [packed_ngroups_toNat hs.bounded fits] at hj
  rw [packed_group_read?, if_pos hj, agrees, ← List.flatMap_def, State.packedBits]

/-! ## TOTAL_BITS as a weighted length -/

theorem packedBits_length (s : State) :
    s.packedBits.length = (s.textList.map (fun v => (s.codeLenAt v.toNat).toNat)).sum := by
  simp [State.packedBits, State.codeOf, codeBits, List.length_flatMap]

/-- A code has at most 255 bits, the text at most MAX_LEN symbols (45_bit_packer.md R206). -/
theorem packedBits_length_le (b : s.Bounded) : s.packedBits.length ≤ 255 * s.maxLen := by
  have bound : ∀ n ∈ s.textList.map (fun v => (s.codeLenAt v.toNat).toNat), n ≤ 255 := by
    simp only [List.mem_map]
    rintro n ⟨v, -, rfl⟩
    exact Nat.le_of_lt_succ (s.codeLenAt v.toNat).isLt
  have sum := List.sum_le_card_nsmul _ 255 bound
  have len := b.len
  rw [List.length_map, textList_length, smul_eq_mul] at sum
  rw [packedBits_length]
  omega

/-- A sum along a text is one over the symbols, each weighted by its count (45_bit_packer.md R205). -/
theorem sum_map_eq_sum_counts (text : List Symbol) (f : Nat → Nat) : (text.map (fun v => f v.toNat)).sum =
    ((List.range 256).map (fun v => text.count (BitVec.ofNat 8 v) * f v)).sum := by
  induction text with
  | nil => simp only [List.count_nil, Nat.zero_mul, List.map_nil, List.sum_nil, List.sum_map_zero]
  | cons u text ih =>
    have once : ((List.range 256).map (fun v => if u = BitVec.ofNat 8 v then f v else 0)).sum = f u.toNat := by
      rw [List.sum_map_eq_nsmul_single u.toNat,
        List.count_eq_one_of_mem List.nodup_range (List.mem_range.mpr u.isLt)]
      · simp
      · intro v hne hv
        exact if_neg fun h => hne (by rw [h, BitVec.toNat_ofNat, Nat.mod_eq_of_lt (List.mem_range.mp hv)])
    simp only [List.map_cons, List.sum_cons, List.count_cons, beq_iff_eq, Nat.add_mul, ite_mul, Nat.one_mul,
      Nat.zero_mul, List.sum_map_add, once, ih]
    exact Nat.add_comm _ _

theorem freqAt_toNat (r : s.Results) (hc : Phase.counted.rank ≤ s.phase.rank) (v : Symbol) :
    (s.freqAt v.toNat).toNat = s.textList.count v := by
  have element : s.freqList[v.toNat]? = some (s.freqAt v.toNat) := by
    simp [State.freqList, Config.symbolCount, v.isLt]
  rw [← Option.some.inj ((freqList_getElem? r hc v).symm.trans element), toNat_count (textList_length_lt s)]

/-- A lone leaf has the one-bit code "0" (44_code_table.md R183). -/
theorem CodeTree.codes_length_of_single {t : CodeTree} (h : t.leaves.length = 1) : ∀ c ∈ t.codes, c.2.length = 1 := by
  cases t with
  | leaf v => simp [CodeTree.codes]
  | branch l u =>
    have left := l.leaves_pos
    have right := u.leaves_pos
    rw [CodeTree.leaves, List.length_append] at h
    omega

theorem treeCodes_length_of_single {nodes : List Node} {freq : List Word} {o : Option CodeTree}
    (h : Holds nodes freq o) (single : (initLeaves freq).length = 1) : ∀ c ∈ treeCodes o, c.2.length = 1 := by
  cases o with
  | none => exact fun c hc => absurd hc List.not_mem_nil
  | some t => exact CodeTree.codes_length_of_single (by rw [h.symbols.length_eq, List.length_map, single])

section Derived

variable (r : s.Results) (hp : Phase.derived.rank ≤ s.phase.rank) (root : s.root = 0)
include r hp root

/-- A symbol of the text has the length of one of the tree's codes. -/
theorem exists_code_of_mem_textList {o : Option CodeTree} (ho : Holds s.nodeList s.freqList o) {v : Symbol}
    (hv : v ∈ s.textList) : ∃ c ∈ treeCodes o, (s.codeLenAt v.toNat).toNat = c.2.length := by
  have hc : Phase.counted.rank ≤ s.phase.rank := Nat.le_trans (by decide) hp
  have coded := (mem_treeCodes_symbols (freqList_length s) ho v).mpr ((freqList_pos_iff r hc v).mpr hv)
  obtain ⟨c, hmem, rfl⟩ := List.mem_map.mp coded
  exact ⟨c, hmem, (codeAt_of_mem r hp root ho hmem).1⟩

theorem codeLenAt_pos_of_mem_textList {v : Symbol} (hv : v ∈ s.textList) : 1 ≤ (s.codeLenAt v.toNat).toNat := by
  obtain ⟨o, ho⟩ := results_tree r (Nat.le_trans (by decide) hp)
  obtain ⟨c, hc, length⟩ := exists_code_of_mem_textList r hp root ho hv
  exact length ▸ (treeCodes_length (freqList_length s) ho hc).1

theorem packedBits_length_of_single (single : s.nsym = 1) : s.packedBits.length = s.len.toNat := by
  have hb : Phase.built.rank ≤ s.phase.rank := Nat.le_trans (by decide) hp
  obtain ⟨o, ho⟩ := results_tree r hb
  have leaves : (initLeaves s.freqList).length = 1 := by
    rw [initLeaves_length_eq_nsym r (counted_le_of_built_le hb), single]
    rfl
  have one : ∀ n ∈ s.textList.map (fun v => (s.codeLenAt v.toNat).toNat), n = 1 := by
    simp only [List.mem_map]
    rintro n ⟨v, hv, rfl⟩
    obtain ⟨c, hc, length⟩ := exists_code_of_mem_textList r hp root ho hv
    exact length.trans (treeCodes_length_of_single ho leaves c hc)
  rw [packedBits_length, List.sum_eq_card_nsmul _ 1 one, List.length_map, textList_length, smul_eq_mul, Nat.mul_one]

end Derived

/-- The bits packed are the counts times the code lengths (45_bit_packer.md R205). -/
theorem packedBits_length_eq_weighted (r : s.Results) (hc : Phase.counted.rank ≤ s.phase.rank) :
    s.packedBits.length = ((List.range 256).map (fun v => (s.freqAt v).toNat * (s.codeLenAt v).toNat)).sum := by
  rw [packedBits_length, sum_map_eq_sum_counts s.textList (fun v => (s.codeLenAt v).toNat)]
  refine congrArg List.sum (List.map_congr_left fun v hv => ?_)
  have index : (BitVec.ofNat 8 v).toNat = v := Nat.mod_eq_of_lt (List.mem_range.mp hv)
  rw [← freqAt_toNat r hc, index]

/-- Settles O37: each text symbol has one of the tree's codes, and TOTAL_BITS adds up their lengths. -/
theorem totalBitsIsTheWeightedLength : Obligations.TotalBitsIsTheWeightedLength := by
  unfold Obligations.TotalBitsIsTheWeightedLength
  refine fun s hs r => ⟨fun hp v => codeLenAt_pos_of_mem_textList r hp hs.bounded.root, fun hp => ?_⟩
  have hd : Phase.derived.rank ≤ s.phase.rank := Nat.le_trans (by decide) hp
  obtain ⟨-, total⟩ := r.packed hp
  have bound := packedBits_length_le hs.bounded
  have cap : s.maxLen ≤ 4194304 := hs.bounded.maxLen.2
  rw [total]
  refine ⟨packedBits_length_eq_weighted r (Nat.le_trans (by decide) hd), fun single => ?single, bound, by omega⟩
  case single =>
    exact BitVec.eq_of_toNat_eq (total.trans (packedBits_length_of_single r hd hs.bounded.root single))

end Sys2Proof.Machine
end

section
/-! PROOFS. The safe alphabet (46_transcoder.md R220, R221, R228), XLATE (R225) and UNXLATE (R226), TRANSCODE (R222
to R224) and the segments it leaves (R227, R229). -/

namespace Sys2Proof

/-- The words of a row by their IMM field: legal below `n`, the number of the row's operands, and a stray operand bit
from there on (30_encoding.md R84, R85). -/
theorem decode_by_imm {r : Row} (hr : r ∈ rows) {w : Word} (hop : opField w = opField r.pattern)
    (hrsv : rsvField w = 0) {n : Nat} (hn : 2 ^ (formOf (opField r.pattern)).width = n) :
    ((immField w).toNat < n → decode w = .ok (r.command w)) ∧
      (n ≤ (immField w).toNat → decode w = .error .operandBits) := by
  have assigned := (exists_row_of_opcode_iff (opField w)).mp ⟨r, hr, hop.symm⟩
  rw [← hn, ← hop]
  exact ⟨decode_of_imm_lt hr hop hrsv, decode_of_imm_ge assigned hrsv⟩

end Sys2Proof

namespace Sys2Proof.Machine

variable {s : State}

/-! ## The safe alphabet -/

/-- T by its formula (46_transcoder.md R220). -/
theorem toSafe_toNat (v : Group) :
    (toSafe v).toNat = if 42 + v.toNat ≥ 92 then 42 + v.toNat + 1 else 42 + v.toNat := by
  have := v.isLt
  rw [toSafe, Config.alphabetBase, Config.alphabetSkip, apply_ite BitVec.toNat, BitVec.toNat_ofNat, BitVec.toNat_ofNat,
    Nat.mod_eq_of_lt (by omega), Nat.mod_eq_of_lt (by omega)]

/-- T's range (46_transcoder.md R220, R221). -/
theorem isSafe_iff (b : Symbol) :
    isSafe b = true ↔ (42 ≤ b.toNat ∧ b.toNat ≤ 91) ∨ (93 ≤ b.toNat ∧ b.toNat ≤ 106) := by
  simp [isSafe]

/-- U by its formula, on T's range (46_transcoder.md R221). -/
theorem fromSafe_toNat {b : Symbol} (h : isSafe b = true) :
    (fromSafe b).toNat = (if b.toNat > 92 then b.toNat - 1 else b.toNat) - 42 := by
  have range := (isSafe_iff b).mp h
  rw [fromSafe, Config.alphabetBase, Config.alphabetSkip, BitVec.toNat_ofNat]
  exact Nat.mod_eq_of_lt (by split <;> omega)

/-- U loses nothing of a byte of T's range (46_transcoder.md R228). -/
theorem toSafe_fromSafe {b : Symbol} (h : isSafe b = true) : toSafe (fromSafe b) = b := by
  have range := (isSafe_iff b).mp h
  refine BitVec.eq_of_toNat_eq ?_
  rw [toSafe_toNat, fromSafe_toNat h]
  split <;> split <;> omega

/-- A byte of T's range is neither the byte it skips, nor the double quote, nor a control character (46_transcoder.md
R229). -/
theorem ne_special_of_isSafe {b : Symbol} (h : isSafe b = true) :
    b.toNat ≠ 92 ∧ b.toNat ≠ 34 ∧ 32 ≤ b.toNat ∧ b.toNat ≠ 127 := by
  have range := (isSafe_iff b).mp h
  omega

/-- Settles O39: T and U by their formulas; each undoes the other on T's range. -/
theorem transcodingIsInvertible : Obligations.TranscodingIsInvertible := by
  unfold Obligations.TranscodingIsInvertible
  exact ⟨fun v => ⟨toSafe_toNat v, isSafe_toSafe v, (ne_special_of_isSafe (isSafe_toSafe v)).1, fromSafe_toSafe v⟩,
    isSafe_iff, fun b h => ⟨fromSafe_toNat h, toSafe_fromSafe h⟩⟩

/-! ## XLATE and UNXLATE -/

theorem exec_xlate (s : State) (v : Group) : exec (.xlate v) s = .next { s with result := (toSafe v).setWidth 32 } :=
  congrArg Host.Outcome.next (perform_of_ok (rule := xlateRule v) rfl rfl)

theorem exec_unxlate_of_isSafe (s : State) {b : Symbol} (h : isSafe b = true) :
    exec (.unxlate b) s = .next { s with result := (fromSafe b).setWidth 32 } :=
  congrArg Host.Outcome.next (perform_of_ok (rule := unxlateRule b) rfl (if_pos h))

theorem exec_unxlate_of_not_isSafe (s : State) {b : Symbol} (h : ¬ isSafe b = true) :
    exec (.unxlate b) s = .next (s.raiseError .badOperand 0) :=
  congrArg Host.Outcome.next (perform_of_error (rule := unxlateRule b) rfl (if_neg h))

/-- Settles O40: XLATE, which no check can stop, T's corner values, and its words by their IMM field. -/
theorem xlateMapsTheValue : Obligations.XlateMapsTheValue := by
  unfold Obligations.XlateMapsTheValue
  exact ⟨exec_xlate, by decide, by decide, by decide, by decide, fun w hop hrsv =>
    decode_by_imm (r := ⟨0x0A000000#32, 0xFFFFFFC0#32, fun w => .xlate (v6Operand w)⟩) (by simp [rows]) hop hrsv rfl⟩

/-- Settles O41: UNXLATE on T's range and outside it, U's corner values, and its words by their IMM field. -/
theorem unxlateMapsTheByteBack : Obligations.UnxlateMapsTheByteBack := by
  unfold Obligations.UnxlateMapsTheByteBack
  refine ⟨fun s b h => exec_unxlate_of_isSafe s ((isSafe_iff b).mpr h),
    fun s b h => exec_unxlate_of_not_isSafe s ((isSafe_iff b).not.mpr (by omega)),
    by decide, by decide, by decide, by decide, fun w hop hrsv => ?words⟩
  case words =>
    exact decode_by_imm (r := ⟨0x0B000000#32, 0xFFFFFF00#32, fun w => .unxlate (b8Operand w)⟩) (by simp [rows]) hop
      hrsv rfl

/-! ## The two segments -/

/-- The two characters of element `i` stand at 2i and 2i + 1 (46_transcoder.md R223). -/
theorem transcodeTree_getElem? (elements : List Int) (i : Nat) :
    (transcodeTree elements)[2 * i]? = elements[i]?.map (fun e => toSafe ((elementBits e).extractLsb' 6 6)) ∧
      (transcodeTree elements)[2 * i + 1]? = elements[i]?.map (fun e => toSafe ((elementBits e).extractLsb' 0 6)) := by
  induction elements generalizing i with
  | nil => exact ⟨rfl, rfl⟩
  | cons e es ih =>
    have twoFirst : transcodeTree (e :: es) = toSafe ((elementBits e).extractLsb' 6 6) ::
        toSafe ((elementBits e).extractLsb' 0 6) :: transcodeTree es := rfl
    rw [twoFirst]
    cases i with
    | zero => exact ⟨rfl, rfl⟩
    | succ i => exact ih i

/-- The halves of a biased element that 12 bits hold, as numbers (46_transcoder.md R223). -/
theorem elementBits_halves {e : Int} {u : Nat} (hu : (u : Int) = e + 512) (fits : u < 4096) :
    (elementBits e).extractLsb' 6 6 = BitVec.ofNat 6 (u / 64) ∧
      (elementBits e).extractLsb' 0 6 = BitVec.ofNat 6 (u % 64) := by
  have bits : (elementBits e).toNat = u := by
    rw [elementBits, Config.elementBias, BitVec.toNat_ofInt]
    omega
  refine ⟨BitVec.eq_of_toNat_eq ?high, BitVec.eq_of_toNat_eq ?low⟩
  case high => rw [BitVec.extractLsb'_toNat, bits, BitVec.toNat_ofNat, Nat.shiftRight_eq_div_pow]
  case low => rw [BitVec.extractLsb'_toNat, bits, BitVec.toNat_ofNat, Nat.shiftRight_zero, Nat.mod_mod]

theorem transcodeBits_getElem? (groups : List Group) (j : Nat) : (transcodeBits groups)[j]? = groups[j]?.map toSafe :=
  List.getElem?_map

theorem transcodeTree_treeList_length (s : State) : (transcodeTree s.treeList).length = 2 * s.nnodes.toNat := by
  rw [transcodeTree_length, State.treeList, List.length_map, List.length_range]

theorem transcodeBits_groupList_length (s : State) : (transcodeBits s.groupList).length = s.ngroups.toNat := by
  rw [transcodeBits, State.groupList, List.length_map, List.length_map, List.length_range]

/-! ## TRANSCODE -/

/-- The state that TRANSCODE leaves (46_transcoder.md R222). -/
def State.transcoded (s : State) : State :=
  { s with
    outTree := s.outTree.writeRun (transcodeTree s.treeList)
    outBits := s.outBits.writeRun (transcodeBits s.groupList)
    phase := .transcoded }

/-- TRANSCODE's phase in (30_encoding.md R84). -/
theorem phaseIn_transcode_iff (p : Phase) : phaseIn .transcode p = true ↔ p = .packed := by simp [phaseIn]

theorem exec_transcode_of_packed (h : s.phase = .packed) : exec .transcode s = .next s.transcoded :=
  congrArg Host.Outcome.next (perform_of_ok (rule := transcodeRule) ((phaseIn_transcode_iff _).mpr h) rfl)

theorem exec_transcode_of_not_packed (h : s.phase ≠ .packed) :
    exec .transcode s = .next (s.raiseError .sequence 0) :=
  congrArg Host.Outcome.next (perform_of_not_phaseIn ((phaseIn_transcode_iff _).not.mpr h))

theorem transcoded_outTree_read? (s : State) (c : Nat) : s.transcoded.outTree.read? c =
    if c < 2 * s.nnodes.toNat then (transcodeTree s.treeList)[c]? else s.outTree.read? c := by
  rw [State.transcoded, Memory.read?_writeRun, transcodeTree_treeList_length]

theorem transcoded_outBits_read? (s : State) (j : Nat) : s.transcoded.outBits.read? j =
    if j < s.ngroups.toNat then (transcodeBits s.groupList)[j]? else s.outBits.read? j := by
  rw [State.transcoded, Memory.read?_writeRun, transcodeBits_groupList_length]

/-- OUT_TREE after TRANSCODE, by the biased element's halves (46_transcoder.md R223). -/
theorem transcoded_outTree_halves {i u : Nat} (hi : i < s.nnodes.toNat) (hu : (u : Int) = s.treeAt i + 512)
    (fits : u < 4096) :
    s.transcoded.outTree.read? (2 * i) = some (toSafe (BitVec.ofNat 6 (u / 64))) ∧
      s.transcoded.outTree.read? (2 * i + 1) = some (toSafe (BitVec.ofNat 6 (u % 64))) := by
  have element : s.treeList[i]? = some (s.treeAt i) := by simp [State.treeList, hi]
  obtain ⟨high, low⟩ := transcodeTree_getElem? s.treeList i
  obtain ⟨highBits, lowBits⟩ := elementBits_halves hu fits
  rw [transcoded_outTree_read?, transcoded_outTree_read?, if_pos (by omega), if_pos (by omega), high, low, element,
    ← highBits, ← lowBits]
  exact ⟨rfl, rfl⟩

/-- A tree element with its bias is in 2..767 (43_serializer.md R165). -/
theorem treeAt_biased (hs : s.Sound) (r : s.Results) (hp : Phase.serialized.rank ≤ s.phase.rank) {i : Nat}
    (hi : i < s.nnodes.toNat) : 2 ≤ s.treeAt i + 512 ∧ s.treeAt i + 512 ≤ 767 := by
  obtain ⟨e, stored, -, -, range⟩ := treeElementsAreInRange s hs r hp i hi
  have same : s.treeAt i = e := by rw [State.treeAt, stored, Option.getD_some]
  exact same ▸ range

/-- Settles O38: TRANSCODE by its phase, and OUT_TREE and OUT_BITS by the runs it writes. -/
theorem transcodeWritesTheSegments : Obligations.TranscodeWritesTheSegments := by
  unfold Obligations.TranscodeWritesTheSegments
  refine ⟨fun s hs r hp => ?_, fun s => exec_transcode_of_not_packed⟩
  refine ⟨s.transcoded, exec_transcode_of_packed hp, rfl, fun i hi => ?tree, fun j hj => ?bits, fun c hc => ?treeKept,
    fun j hj => ?bitsKept⟩
  case tree =>
    obtain ⟨low, high⟩ := treeAt_biased hs r (by rw [hp]; decide) hi
    obtain ⟨u, hu⟩ := Int.eq_ofNat_of_zero_le (a := s.treeAt i + 512) (by omega)
    exact ⟨u, hu.symm, by omega, by omega, transcoded_outTree_halves hi hu.symm (by omega)⟩
  case bits =>
    rw [transcoded_outBits_read?, if_pos hj, transcodeBits_getElem?]
    simp [State.groupList, hj]
  case treeKept => rw [transcoded_outTree_read?, if_neg (Nat.not_lt.mpr hc)]
  case bitsKept => rw [transcoded_outBits_read?, if_neg (Nat.not_lt.mpr hj)]

/-! ## The segments from TRANSCODED on -/

section Transcoded

variable (r : s.Results) (hp : s.phase = .transcoded)
include r hp

theorem artifact_outTree : s.artifact.outTree = transcodeTree s.treeList := (r.transcoded hp).1

theorem artifact_outBits : s.artifact.outBits = transcodeBits s.groupList := (r.transcoded hp).2

theorem artifact_outTree_length : s.artifact.outTree.length = 2 * s.nnodes.toNat := by
  rw [artifact_outTree r hp, transcodeTree_treeList_length]

theorem artifact_outBits_length : s.artifact.outBits.length = s.ngroups.toNat := by
  rw [artifact_outBits r hp, transcodeBits_groupList_length]

/-- Every character of either segment is in T's range (46_transcoder.md R229). -/
theorem isSafe_of_mem_artifact {b : Symbol} (h : b ∈ s.artifact.outTree ∨ b ∈ s.artifact.outBits) :
    isSafe b = true := by
  rw [artifact_outTree r hp, artifact_outBits r hp] at h
  rcases h with inTree | inBits
  · exact List.all_eq_true.mp (transcodeTree_safe _) b inTree
  · exact List.all_eq_true.mp (transcodeBits_safe _) b inBits

end Transcoded

/-- Settles O42: the segments are the characters of TREE and of GROUP, NNODES and NGROUPS of them, each in T's
range. -/
theorem segmentsAreSafeAndSized : Obligations.SegmentsAreSafeAndSized := by
  unfold Obligations.SegmentsAreSafeAndSized
  intro s hs r hp
  have treeLength := artifact_outTree_length r hp
  have bitsLength := artifact_outBits_length r hp
  refine ⟨hs.listed.outTree hp, hs.listed.outBits hp, treeLength, bitsLength, fun _ => ?total, fun b hb => ?safe⟩
  case total =>
    have nnodes := nnodes_eq r (by rw [hp]; decide)
    rw [treeLength, bitsLength, nnodes, hs.bounded.groups, groupsNeeded]
  case safe =>
    have safe := isSafe_of_mem_artifact r hp hb
    exact ⟨(isSafe_iff b).mp safe, ne_special_of_isSafe safe⟩

end Sys2Proof.Machine
end

section
/-! PROOFS. The decode contract: its checks in order, un-transcoding and the two walks (48_decode_contract.md R241 to
R245). -/

namespace Sys2Proof.Machine

/-! ## The checks in order -/

theorem isSafe_iff_range (b : Symbol) : isSafe b = true ↔ 42 ≤ b.toNat ∧ b.toNat ≤ 106 ∧ b.toNat ≠ 92 := by
  rw [isSafe_iff]
  omega

theorem elementOk_iff {n : Nat} {e : Int} :
    elementOk n e = true ↔ e ≤ 255 ∧ e ≠ -1 ∧ -((n : Int) - 1) ≤ e := by
  simp [elementOk, and_assoc]

section Checks

variable {ot ob : List Symbol}

theorem decodeOutput_of_odd (odd : ot.length % 2 = 1) (n r : Nat) : decodeOutput ot ob n r = .error .oddTree :=
  if_pos odd

variable (even : ot.length % 2 = 0)
include even

theorem decodeOutput_of_not_safe (bad : ∃ b ∈ ot ++ ob, ¬ isSafe b = true) (n r : Nat) :
    decodeOutput ot ob n r = .error .badChar := by
  obtain ⟨b, hb, outside⟩ := bad
  have notAll : (ot.all isSafe && ob.all isSafe) = false := by
    rw [← List.all_append]
    exact List.all_eq_false.mpr ⟨b, hb, outside⟩
  simp [decodeOutput, even, notAll]

variable (safe : ∀ b ∈ ot ++ ob, isSafe b = true)
include safe

/-- Past the checks of the characters (48_decode_contract.md R241) those of R242 follow. -/
theorem decodeOutput_of_safe (n r : Nat) : decodeOutput ot ob n r =
    if n = 0 then .ok []
    else if (elementsOf ot).length = 0 then .error .emptyTree
    else if !((elementsOf ot).all (elementOk (elementsOf ot).length)) then .error .badElement
    else if (elementsOf ot).length ≤ r then .error .badIndex
    else walkBits (elementsOf ot) r n (bitsOf ob) := by
  have all : (ot.all isSafe && ob.all isSafe) = true := by
    rw [← List.all_append]
    exact List.all_eq_true.mpr safe
  rw [decodeOutput, if_neg (by omega), all]
  rfl

theorem decodeOutput_zero (r : Nat) : decodeOutput ot ob 0 r = .ok [] := by
  rw [decodeOutput_of_safe even safe, if_pos rfl]

variable {n : Nat} (hn : n ≠ 0)
include hn

theorem decodeOutput_of_no_element (empty : (elementsOf ot).length = 0) (r : Nat) :
    decodeOutput ot ob n r = .error .emptyTree := by
  rw [decodeOutput_of_safe even safe, if_neg hn, if_pos empty]

theorem decodeOutput_of_bad_element (bad : ∃ e ∈ elementsOf ot, ¬ elementOk (elementsOf ot).length e = true)
    (r : Nat) : decodeOutput ot ob n r = .error .badElement := by
  obtain ⟨e, he, notOk⟩ := bad
  have notAll : (elementsOf ot).all (elementOk (elementsOf ot).length) = false :=
    List.all_eq_false.mpr ⟨e, he, notOk⟩
  have pos := List.length_pos_of_mem he
  rw [decodeOutput_of_safe even safe, if_neg hn, if_neg (by omega), notAll]
  rfl

variable (elements : ∀ e ∈ elementsOf ot, elementOk (elementsOf ot).length e = true)
include elements

theorem decodeOutput_of_root_ge {r : Nat} (pos : (elementsOf ot).length ≠ 0) (root : (elementsOf ot).length ≤ r) :
    decodeOutput ot ob n r = .error .badIndex := by
  rw [decodeOutput_of_safe even safe, if_neg hn, if_neg pos, List.all_eq_true.mpr elements, if_pos root]
  rfl

theorem decodeOutput_eq_walkBits {r : Nat} (root : r < (elementsOf ot).length) :
    decodeOutput ot ob n r = walkBits (elementsOf ot) r n (bitsOf ob) := by
  rw [decodeOutput_of_safe even safe, if_neg hn, if_neg (by omega), List.all_eq_true.mpr elements,
    if_neg (Nat.not_le.mpr root)]
  rfl

end Checks

/-- A decode that succeeds passed every check; with a symbol to give it came to the walk. -/
theorem checks_of_decodeOutput_ok {ot ob : List Symbol} {n r : Nat} {out : List Symbol}
    (h : decodeOutput ot ob n r = .ok out) :
    ot.length % 2 = 0 ∧ (∀ b ∈ ot ++ ob, isSafe b = true) ∧
      ((n = 0 ∧ out = []) ∨
        (n ≠ 0 ∧ (∀ e ∈ elementsOf ot, elementOk (elementsOf ot).length e = true) ∧ r < (elementsOf ot).length ∧
          walkBits (elementsOf ot) r n (bitsOf ob) = .ok out)) := by
  have even : ot.length % 2 = 0 := by
    by_contra odd
    rw [decodeOutput_of_odd (by omega)] at h
    cases h
  have safe : ∀ b ∈ ot ++ ob, isSafe b = true := by
    by_contra bad
    rw [decodeOutput_of_not_safe even (by simpa only [not_forall, exists_prop] using bad)] at h
    cases h
  refine ⟨even, safe, ?_⟩
  rw [decodeOutput_of_safe even safe] at h
  split at h
  case isTrue zero =>
    cases h
    exact .inl ⟨zero, rfl⟩
  case isFalse hn =>
    split at h
    · cases h
    split at h
    · cases h
    case isFalse ok =>
      split at h
      · cases h
      case isFalse root =>
        exact .inr ⟨hn, List.all_eq_true.mp (by simpa using ok), Nat.not_le.mp root, h⟩

/-! ## Un-transcoding -/

theorem elementsOf_length : ∀ ot : List Symbol, (elementsOf ot).length = ot.length / 2
  | [] => rfl
  | [_] => by simp [elementsOf]
  | _ :: _ :: rest => by
    simp only [elementsOf, List.length_cons, elementsOf_length rest]
    omega

/-- Element i is made of the two characters at 2i and 2i + 1 (48_decode_contract.md R241). -/
theorem elementsOf_getElem? : ∀ {ot : List Symbol} {i : Nat} {h l : Symbol}, ot[2 * i]? = some h →
    ot[2 * i + 1]? = some l →
    (elementsOf ot)[i]? = some (((fromSafe h).toNat * 64 + (fromSafe l).toNat : Int) - 512)
  | [], _, _, _, high, _ => by cases high
  | [_], _, _, _, _, low => by cases low
  | _ :: _ :: _, 0, _, _, high, low => by
    cases high
    cases low
    rfl
  | _ :: _ :: rest, _ + 1, _, _, high, low => elementsOf_getElem? (ot := rest) high low

theorem bitsOf_cons (c : Symbol) (ob : List Symbol) : bitsOf (c :: ob) = groupBits (fromSafe c) ++ bitsOf ob := rfl

theorem groupBits_length (g : Group) : (groupBits g).length = 6 := by simp [groupBits]

theorem bitsOf_length (ob : List Symbol) : (bitsOf ob).length = 6 * ob.length := by
  induction ob with
  | nil => rfl
  | cons c ob ih =>
    rw [bitsOf_cons, List.length_append, groupBits_length, ih, List.length_cons]
    omega

/-- Character j gives the bits from 6j on, its high bit first (48_decode_contract.md R241). -/
theorem bitsOf_getElem? {ob : List Symbol} {j t : Nat} {c : Symbol} (char : ob[j]? = some c) (ht : t < 6) :
    (bitsOf ob)[6 * j + t]? = some ((fromSafe c).getLsbD (5 - t)) := by
  induction ob generalizing j with
  | nil => cases char
  | cons d ob ih =>
    rw [bitsOf_cons]
    cases j with
    | zero =>
      cases char
      rw [List.getElem?_append_left (by rw [groupBits_length]; omega)]
      simp [groupBits, ht]
    | succ j =>
      rw [List.getElem?_append_right (by rw [groupBits_length]; omega), groupBits_length,
        show 6 * (j + 1) + t - 6 = 6 * j + t by omega]
      exact ih char

/-! ## What a walk reads -/

/-- A walk that succeeds gives n symbols and reads a run of bits that alone decides it; it fails on any shorter run. -/
def ReadsRun (walk : BitString → Except DecodeError (List Symbol)) (n : Nat) (bits : BitString) (out : List Symbol) :
    Prop :=
  out.length = n ∧ ∃ read, read <+: bits ∧ (∀ more, walk (read ++ more) = .ok out) ∧
    ∀ j, j < read.length → walk (read.take j) = .error .bitsExhausted

theorem ReadsRun.zero {walk : BitString → Except DecodeError (List Symbol)} (h : ∀ bits, walk bits = .ok [])
    {bits : BitString} : ReadsRun walk 0 bits [] :=
  ⟨rfl, [], List.nil_prefix, h, fun j hj => absurd hj (Nat.not_lt_zero j)⟩

theorem walkLeaf_reads {leaf : Int} {n : Nat} {bits : BitString} {out : List Symbol}
    (h : walkLeaf leaf n bits = .ok out) : ReadsRun (walkLeaf leaf n) n bits out := by
  induction n generalizing bits out with
  | zero =>
    cases h
    exact ReadsRun.zero fun _ => rfl
  | succ n ih =>
    match bits with
    | [] => cases h
    | true :: bits => cases h
    | false :: bits =>
      rw [walkLeaf, if_neg Bool.false_ne_true] at h
      split at h
      · cases h
      case h_2 out' rest =>
        cases h
        obtain ⟨length, read, begins, reads, shorter⟩ := ih rest
        refine ⟨by rw [List.length_cons, length], false :: read, List.cons_prefix_cons.mpr ⟨rfl, begins⟩,
          fun more => ?_, fun j hj => ?_⟩
        · simp [walkLeaf, reads]
        · cases j with
          | zero => rfl
          | succ j => simp [walkLeaf, shorter j (Nat.lt_of_succ_lt_succ hj)]

theorem walkTree_reads {elements : List Int} {root n : Nat} {bits : BitString} {out : List Symbol}
    (h : walkTree elements root n bits = .ok out) : ReadsRun (walkTree elements root n) n bits out := by
  induction n generalizing bits out with
  | zero =>
    cases h
    exact ReadsRun.zero fun _ => rfl
  | succ n ih =>
    rw [walkTree] at h
    split at h
    · cases h
    case h_2 e bits' down =>
      split at h
      · cases h
      case h_2 out' rest =>
        cases h
        obtain ⟨first, rfl, firstReads, firstShorter⟩ := descend_reads down
        obtain ⟨length, read, begins, reads, shorter⟩ := ih rest
        refine ⟨by rw [List.length_cons, length], first ++ read, (List.prefix_append_right_inj first).mpr begins,
          fun more => ?_, fun j hj => ?_⟩
        · simp [walkTree, firstReads, reads]
        · rcases Nat.lt_or_ge j first.length with inFirst | past
          · rw [List.take_append_of_le_length inFirst.le, walkTree, firstShorter j inFirst]
          · rw [List.length_append] at hj
            rw [List.take_append, List.take_of_length_le past, walkTree, firstReads]
            simp [shorter (j - first.length) (by omega)]

theorem walkBits_reads {elements : List Int} {root n : Nat} {bits : BitString} {out : List Symbol}
    (h : walkBits elements root n bits = .ok out) : ReadsRun (walkBits elements root n) n bits out := by
  by_cases leaf : 0 ≤ elementIn elements root
  · have walk : walkBits elements root n = walkLeaf (elementIn elements root) n := funext fun _ => if_pos leaf
    rw [walk] at h ⊢
    exact walkLeaf_reads h
  · have walk : walkBits elements root n = walkTree elements root n := funext fun _ => if_neg leaf
    rw [walk] at h ⊢
    exact walkTree_reads h

/-- The bits a decode does not read do not matter (48_decode_contract.md R243). -/
theorem decodeOutput_reads {ot ob : List Symbol} {n r : Nat} {out : List Symbol}
    (h : decodeOutput ot ob n r = .ok out) :
    out.length = n ∧ ∃ k, k ≤ (bitsOf ob).length ∧
      (∀ j, j < k → walkBits (elementsOf ot) r n ((bitsOf ob).take j) = .error .bitsExhausted) ∧
      ∀ ob' : List Symbol, (∀ b ∈ ob', isSafe b = true) → (bitsOf ob).take k <+: bitsOf ob' →
        decodeOutput ot ob' n r = .ok out := by
  obtain ⟨even, safe, outcome⟩ := checks_of_decodeOutput_ok h
  have safe' : ∀ ob' : List Symbol, (∀ b ∈ ob', isSafe b = true) → ∀ b ∈ ot ++ ob', isSafe b = true :=
    fun ob' hob => List.forall_mem_append.mpr ⟨(List.forall_mem_append.mp safe).1, hob⟩
  rcases outcome with ⟨rfl, rfl⟩ | ⟨hn, elements, root, walk⟩
  · exact ⟨rfl, 0, Nat.zero_le _, fun j hj => absurd hj (Nat.not_lt_zero j),
      fun ob' hob _ => decodeOutput_zero even (safe' ob' hob) r⟩
  · obtain ⟨length, read, begins, reads, shorter⟩ := walkBits_reads walk
    obtain ⟨rest, whole⟩ := begins
    refine ⟨length, read.length, by rw [← whole, List.length_append]; omega, fun j hj => ?_, fun ob' hob same => ?_⟩
    · rw [← whole, List.take_append_of_le_length hj.le]
      exact shorter j hj
    · rw [← whole, List.take_left] at same
      obtain ⟨more, hmore⟩ := same
      rw [decodeOutput_eq_walkBits even (safe' ob' hob) hn elements root, ← hmore]
      exact reads more

/-! ## The walk of a lone leaf -/

theorem except_map_nil_append (x : Except DecodeError (List Symbol)) : x.map ([] ++ ·) = x := by
  cases x <;> rfl

theorem except_map_append_append (xs ys : List Symbol) (x : Except DecodeError (List Symbol)) :
    (x.map (ys ++ ·)).map (xs ++ ·) = x.map (xs ++ ys ++ ·) := by
  cases x <;> simp [Except.map]

/-- Over 0 bits a lone leaf gives its symbol, one for each (48_decode_contract.md R244). -/
theorem walkLeaf_replicate (leaf : Int) (j n : Nat) (bits : BitString) :
    walkLeaf leaf (j + n) (List.replicate j false ++ bits) =
      (walkLeaf leaf n bits).map (List.replicate j (elementSymbol leaf) ++ ·) := by
  induction j with
  | zero =>
    rw [Nat.zero_add]
    exact (except_map_nil_append _).symm
  | succ j ih =>
    rw [Nat.succ_add, List.replicate_succ, List.cons_append, walkLeaf, if_neg Bool.false_ne_true, ih]
    cases walkLeaf leaf n bits <;> rfl

theorem eq_replicate_append_drop {bits : BitString} {j : Nat} (h : ∀ i, i < j → bits[i]? = some false) :
    bits = List.replicate j false ++ bits.drop j := by
  have begins : bits.take j = List.replicate j false := by
    refine List.ext_getElem? fun i => ?_
    rw [List.getElem?_take, List.getElem?_replicate]
    exact ite_congr rfl (h i) fun _ => rfl
  rw [← begins, List.take_append_drop]

theorem walkLeaf_of_one {leaf : Int} {n j : Nat} {bits : BitString} (hj : j < n) (one : bits[j]? = some true)
    (zeros : ∀ i, i < j → bits[i]? = some false) : walkLeaf leaf n bits = .error .badBranch := by
  obtain ⟨m, rfl⟩ : ∃ m, n = j + (m + 1) := ⟨n - j - 1, by omega⟩
  obtain ⟨inRange, bit⟩ := List.getElem?_eq_some_iff.mp one
  rw [eq_replicate_append_drop zeros, walkLeaf_replicate, List.drop_eq_getElem_cons inRange, bit]
  rfl

theorem walkLeaf_of_short {leaf : Int} {n : Nat} {bits : BitString} (short : bits.length < n)
    (zeros : ∀ b ∈ bits, b = false) : walkLeaf leaf n bits = .error .bitsExhausted := by
  obtain ⟨m, rfl⟩ : ∃ m, n = bits.length + (m + 1) := ⟨n - bits.length - 1, by omega⟩
  have walk := walkLeaf_replicate leaf bits.length (m + 1) []
  rwa [List.append_nil, ← List.eq_replicate_of_mem zeros] at walk

theorem walkLeaf_of_zeros {leaf : Int} {n : Nat} {bits : BitString} (zeros : ∀ j, j < n → bits[j]? = some false) :
    walkLeaf leaf n bits = .ok (List.replicate n (elementSymbol leaf)) := by
  rw [eq_replicate_append_drop zeros]
  exact (walkLeaf_replicate leaf n 0 _).trans (by simp [walkLeaf, Except.map])

/-! ## The walk of a tree by the indexes its bits lead to -/

/-- The walk that has n symbols to give and stands at index i. -/
def walkFrom (elements : List Int) (root i : Nat) : Nat → BitString → Except DecodeError (List Symbol)
  | 0, _ => .ok []
  | n + 1, bits =>
    match descend elements bits i with
    | .error e => .error e
    | .ok (e, rest) => (walkTree elements root n rest).map (elementSymbol e :: ·)

section Walk

variable {elements : List Int} {root i : Nat}

theorem walkFrom_root (elements : List Int) (root n : Nat) (bits : BitString) :
    walkFrom elements root root n bits = walkTree elements root n bits := by
  cases n with
  | zero => rfl
  | succ n =>
    rw [walkFrom, walkTree]
    cases descend elements bits root with
    | error e => rfl
    | ok down =>
      obtain ⟨e, rest⟩ := down
      cases h : walkTree elements root n rest <;> simp [h, Except.map]

/-- The index that a bit leads to from a branch (48_decode_contract.md R243). -/
def walkTarget (elements : List Int) (i : Nat) (b : Bool) : Nat :=
  if b then (-elementIn elements i).toNat else i + 1

/-- Where the walk stands at the next bit: a leaf is left for the root at once. -/
def walkNext (elements : List Int) (root j : Nat) : Nat := if 0 ≤ elementIn elements j then root else j

theorem walkTargets_cons (elements : List Int) (root i : Nat) (b : Bool) (bits : BitString) :
    walkTargets elements root i (b :: bits) = walkTarget elements i b ::
      walkTargets elements root (walkNext elements root (walkTarget elements i b)) bits := rfl

theorem leafSymbols_cons (elements : List Int) (j : Nat) (targets : List Nat) :
    leafSymbols elements (j :: targets) = leafSymbols elements [j] ++ leafSymbols elements targets := by
  rw [leafSymbols, leafSymbols, leafSymbols, ← List.map_append, ← List.filter_append]
  rfl

theorem walkNext_branch (branch : elementIn elements root < 0) (j : Nat) :
    elementIn elements (walkNext elements root j) < 0 := by
  unfold walkNext
  split
  · exact branch
  · omega

variable (branch : elementIn elements i < 0)
include branch

theorem walkFrom_nil (root : Nat) {n : Nat} (hn : 0 < n) :
    walkFrom elements root i n [] = .error .bitsExhausted := by
  obtain ⟨m, rfl⟩ := Nat.exists_eq_succ_of_ne_zero hn.ne'
  simp [walkFrom, descend, Int.not_le.mpr branch]

theorem walkFrom_of_target_ge (root : Nat) {n : Nat} (hn : 0 < n) {b : Bool}
    (out : elements.length ≤ walkTarget elements i b) (bits : BitString) :
    walkFrom elements root i n (b :: bits) = .error .badIndex := by
  obtain ⟨m, rfl⟩ := Nat.exists_eq_succ_of_ne_zero hn.ne'
  rw [walkFrom, descend_branch branch, ← walkTarget, if_pos out]

/-- One bit of the walk, to an index of the array. -/
theorem walkFrom_cons {n : Nat} {b : Bool} (inside : walkTarget elements i b < elements.length)
    (few : (leafSymbols elements [walkTarget elements i b]).length ≤ n) (bits : BitString) :
    walkFrom elements root i n (b :: bits) =
      (walkFrom elements root (walkNext elements root (walkTarget elements i b))
        (n - (leafSymbols elements [walkTarget elements i b]).length) bits).map
          (leafSymbols elements [walkTarget elements i b] ++ ·) := by
  generalize hj : walkTarget elements i b = j at inside few ⊢
  by_cases leaf : 0 ≤ elementIn elements j
  · have symbols : leafSymbols elements [j] = [elementSymbol (elementIn elements j)] := leafSymbols_leaf leaf []
    have next : walkNext elements root j = root := if_pos leaf
    rw [symbols] at few ⊢
    obtain ⟨m, rfl⟩ : ∃ m, n = m + 1 := ⟨n - 1, by rw [List.length_singleton] at few; omega⟩
    rw [next, walkFrom, descend_branch branch, ← walkTarget, hj, if_neg (Nat.not_le.mpr inside), descend_leaf leaf,
      List.length_singleton, Nat.add_sub_cancel, walkFrom_root]
    rfl
  · have symbols : leafSymbols elements [j] = [] := leafSymbols_branch (by omega) []
    have next : walkNext elements root j = j := if_neg leaf
    have same : walkFrom elements root i n (b :: bits) = walkFrom elements root j n bits := by
      cases n with
      | zero => rfl
      | succ n => rw [walkFrom, descend_branch branch, ← walkTarget, hj, if_neg (Nat.not_le.mpr inside), walkFrom]
    rw [symbols, next, same, except_map_nil_append]
    rfl

end Walk

section Tree

variable {elements : List Int} {root : Nat} (rootBranch : elementIn elements root < 0)
include rootBranch

/-- Over j bits that stay in the array and lead to at most n leaves, the walk gives those leaves' symbols and goes on
from a branch. -/
theorem walkFrom_take {i n j : Nat} {bits : BitString} (branch : elementIn elements i < 0)
    (inside : ∀ k ∈ (walkTargets elements root i bits).take j, k < elements.length)
    (few : (leafSymbols elements ((walkTargets elements root i bits).take j)).length ≤ n) :
    ∃ i', elementIn elements i' < 0 ∧
      walkTargets elements root i' (bits.drop j) = (walkTargets elements root i bits).drop j ∧
      walkFrom elements root i n bits =
        (walkFrom elements root i' (n - (leafSymbols elements ((walkTargets elements root i bits).take j)).length)
          (bits.drop j)).map (leafSymbols elements ((walkTargets elements root i bits).take j) ++ ·) := by
  induction j generalizing i n bits with
  | zero =>
    exact ⟨i, branch, rfl, (except_map_nil_append _).symm⟩
  | succ j ih =>
    cases bits with
    | nil =>
      exact ⟨i, branch, rfl, (except_map_nil_append _).symm⟩
    | cons b bits =>
      rw [walkTargets_cons, List.take_succ_cons] at inside few ⊢
      rw [leafSymbols_cons, List.length_append] at few
      obtain ⟨here, later⟩ := List.forall_mem_cons.mp inside
      obtain ⟨i', branch', targets, walk⟩ := ih (n := n - (leafSymbols elements [walkTarget elements i b]).length)
        (walkNext_branch rootBranch _) later (by omega)
      refine ⟨i', branch', targets, ?_⟩
      rw [leafSymbols_cons, List.length_append, ← Nat.sub_sub, walkFrom_cons branch here (by omega), walk,
        except_map_append_append]
      rfl

theorem walkTree_of_enough {n j : Nat} {bits : BitString}
    (inside : ∀ k ∈ (walkTargets elements root root bits).take j, k < elements.length)
    (enough : (leafSymbols elements ((walkTargets elements root root bits).take j)).length = n) :
    walkTree elements root n bits = .ok (leafSymbols elements ((walkTargets elements root root bits).take j)) := by
  obtain ⟨i, -, -, walk⟩ := walkFrom_take rootBranch rootBranch inside enough.le
  rw [← walkFrom_root, walk, enough, Nat.sub_self]
  simp [walkFrom, Except.map]

theorem walkTree_of_outside {n j i : Nat} {bits : BitString}
    (inside : ∀ k ∈ (walkTargets elements root root bits).take j, k < elements.length)
    (few : (leafSymbols elements ((walkTargets elements root root bits).take j)).length < n)
    (target : (walkTargets elements root root bits)[j]? = some i) (outside : elements.length ≤ i) :
    walkTree elements root n bits = .error .badIndex := by
  obtain ⟨i', branch, targets, walk⟩ := walkFrom_take rootBranch rootBranch inside few.le
  have first : (walkTargets elements root i' (bits.drop j))[0]? = some i := by
    rw [targets, List.getElem?_drop]
    exact target
  cases h : bits.drop j with
  | nil =>
    rw [h] at first
    cases first
  | cons b rest =>
    rw [h, walkTargets_cons] at first
    cases first
    rw [← walkFrom_root, walk, h, walkFrom_of_target_ge branch root (Nat.sub_pos_of_lt few) outside]
    rfl

theorem walkTree_of_exhausted {n : Nat} {bits : BitString}
    (inside : ∀ k ∈ walkTargets elements root root bits, k < elements.length)
    (few : (leafSymbols elements (walkTargets elements root root bits)).length < n) :
    walkTree elements root n bits = .error .bitsExhausted := by
  have all : (walkTargets elements root root bits).take bits.length = walkTargets elements root root bits :=
    List.take_of_length_le (walkTargets_length ..).le
  rw [← all] at inside few
  obtain ⟨i, branch, -, walk⟩ := walkFrom_take rootBranch rootBranch inside few.le
  rw [← walkFrom_root, walk, List.drop_length, walkFrom_nil branch root (Nat.sub_pos_of_lt few)]
  rfl

end Tree

/-- Settles O45: what a decode that succeeds reads, then each check in order, then the walk that the root's element
chooses. -/
theorem decodeGivesNSymbolsAndIgnoresPadding : Obligations.DecodeGivesNSymbolsAndIgnoresPadding := by
  unfold Obligations.DecodeGivesNSymbolsAndIgnoresPadding
  simp only [← isSafe_iff_range]
  refine ⟨fun ot ob n r out => decodeOutput_reads, fun ot => ⟨elementsOf_length ot, fun i h l => elementsOf_getElem?⟩,
    fun ob => ⟨bitsOf_length ob, fun j c t => bitsOf_getElem?⟩, fun ot ob n r => ?_⟩
  simp only [← elementsOf_length, ← elementOk_iff]
  refine ⟨fun odd => decodeOutput_of_odd odd n r, fun even bad => ?badChar, fun even safe => ⟨?zero, fun hn =>
    ⟨?emptyTree, fun nonempty => ⟨?badElement, fun elements => ⟨?badIndex, fun leaf hleaf => ?_⟩⟩⟩⟩⟩
  case badChar =>
    obtain ⟨b, hb, range⟩ := bad
    exact decodeOutput_of_not_safe even ⟨b, hb, by rw [isSafe_iff_range]; omega⟩ n r
  case zero =>
    rintro rfl
    exact decodeOutput_zero even safe r
  case emptyTree =>
    rintro rfl
    exact decodeOutput_of_no_element even safe hn rfl r
  case badElement =>
    rintro ⟨e, he, range⟩
    exact decodeOutput_of_bad_element even safe hn ⟨e, he, by rw [elementOk_iff]; omega⟩ r
  case badIndex =>
    have pos := List.length_pos_iff.mpr nonempty
    exact decodeOutput_of_root_ge even safe hn elements (by rw [elementsOf_length]; omega)
  obtain ⟨root, value⟩ := List.getElem?_eq_some_iff.mp hleaf
  have rootElement : elementIn (elementsOf ot) r = leaf := by rw [elementIn, List.getD_eq_getElem?_getD, hleaf]; rfl
  rw [decodeOutput_eq_walkBits even safe hn elements root, walkBits, rootElement]
  refine ⟨fun nonneg => ?lone, fun neg targets htargets => ?tree⟩
  case lone =>
    rw [if_pos nonneg]
    exact ⟨fun j => walkLeaf_of_one, walkLeaf_of_short, walkLeaf_of_zeros⟩
  case tree =>
    subst htargets
    have branch : elementIn (elementsOf ot) r < 0 := rootElement ▸ neg
    rw [if_neg (Int.not_le.mpr neg)]
    exact ⟨fun j => walkTree_of_enough branch, fun j i => walkTree_of_outside branch, walkTree_of_exhausted branch⟩

end Sys2Proof.Machine
end

section
/-! PROOFS. The round trip (48_decode_contract.md R246). -/

namespace Sys2Proof.Machine

variable {s : State}

/-- The walk over a tree's listing gives back a text, from its symbols' codes, whatever follows them
(48_decode_contract.md R243, R244). -/
theorem walkBits_text (t : CodeTree) (code : Symbol → BitString) (text : List Symbol)
    (coded : ∀ v ∈ text, (v, code v) ∈ t.codes) (more : BitString) :
    walkBits (t.listing 0) 0 text.length (text.flatMap code ++ more) = .ok text := by
  have lists := lists_listing t
  cases t with
  | leaf v =>
    have root : elementIn ((CodeTree.leaf v).listing 0) 0 = (v.toNat : Int) := lists
    have each : ∀ x ∈ text, x = v ∧ code x = [false] := fun x hx => by simpa [CodeTree.codes] using coded x hx
    have bits : text.flatMap code = List.replicate text.length false := by
      rw [List.flatMap_congr fun x hx => (each x hx).2, ← List.map_eq_flatMap, List.map_const']
    rw [walkBits, root, if_pos (Int.natCast_nonneg _), bits, walkLeaf_text]
    exact congrArg Except.ok (replicate_of_all text v fun x hx => (each x hx).1).symm
  | branch l u =>
    have root : elementIn ((CodeTree.branch l u).listing 0) 0 < 0 := by rw [lists.1]; omega
    rw [walkBits, if_neg (Int.not_le.mpr root)]
    exact walkTree_text _ _ lists (CodeTree.listing_length _ 0).ge code text coded more

/-- The segments of a tree and of a text's codes decode to the text (48_decode_contract.md R246). -/
theorem decodeOutput_encoded {o : Option CodeTree} (fits : (treeElements o).length ≤ 511) {code : Symbol → BitString}
    {text : List Symbol} (coded : ∀ v ∈ text, (v, code v) ∈ treeCodes o) :
    decodeOutput (transcodeTree (treeElements o)) (transcodeBits (packGroups (text.flatMap code))) text.length 0 =
      .ok text := by
  have even : (transcodeTree (treeElements o)).length % 2 = 0 := by rw [transcodeTree_length]; omega
  have safe : ∀ b ∈ transcodeTree (treeElements o) ++ transcodeBits (packGroups (text.flatMap code)),
      isSafe b = true := List.forall_mem_append.mpr
    ⟨List.all_eq_true.mp (transcodeTree_safe _), List.all_eq_true.mp (transcodeBits_safe _)⟩
  cases text with
  | nil => exact decodeOutput_zero even safe 0
  | cons v text =>
    cases o with
    | none => exact absurd (coded v List.mem_cons_self) List.not_mem_nil
    | some t =>
      rw [treeElements, t.listing_length] at fits
      have elements : elementsOf (transcodeTree (treeElements (some t))) = t.listing 0 :=
        elementsOf_transcodeTree _ fun e he => by
          rcases t.listing_range 0 e he with symbol | marker <;> omega
      have elementsOk : ∀ e ∈ elementsOf (transcodeTree (treeElements (some t))),
          elementOk (elementsOf (transcodeTree (treeElements (some t)))).length e = true := by
        rw [elements]
        exact List.all_eq_true.mp (listing_ok t)
      have root : 0 < (elementsOf (transcodeTree (treeElements (some t)))).length := by
        rw [elements, t.listing_length]
        exact t.size_pos
      have asked : (v :: text).length ≠ 0 := Nat.succ_ne_zero _
      rw [decodeOutput_eq_walkBits even safe asked elementsOk root, elements, bitsOf_transcodeBits,
        flatMap_groupBits_packGroups]
      exact walkBits_text t code (v :: text) coded _

/-- From DERIVED on, a symbol of the text has its code in the code memories (44_code_table.md R182). -/
theorem codeOf_mem_treeCodes (r : s.Results) (hp : Phase.derived.rank ≤ s.phase.rank) (root : s.root = 0)
    {o : Option CodeTree} (ho : Holds s.nodeList s.freqList o) {v : Symbol} (hv : v ∈ s.textList) :
    (v, s.codeOf v) ∈ treeCodes o := by
  have positive := freq_pos_of_mem r (Nat.le_trans (by decide) hp) v hv
  obtain ⟨c, hc, rfl⟩ := List.mem_map.mp ((mem_treeCodes_symbols (freqList_length s) ho v).mpr positive)
  rw [codeOf_of_results r hp ho root, treeTable_getD_of_mem (freqList_length s) ho hc]
  exact hc

theorem runEnded_phase (h : s.runEnded = true) : s.phase = .transcoded := by
  simp only [State.runEnded, Bool.and_eq_true, decide_eq_true_eq] at h
  exact h.2

/-- Settles O44: TREE lists the tree whose codes PACK wrote, so the two segments decode to the text. -/
theorem roundTrip : Obligations.RoundTrip := by
  unfold Obligations.RoundTrip
  intro s hs r ended
  have hp := runEnded_phase ended
  obtain ⟨o, ho⟩ := results_tree r (by rw [hp]; decide)
  have tree : s.treeList = treeElements o := holds_treeList r (by rw [hp]; decide) ho
  have fits : (treeElements o).length ≤ 511 := by
    rw [← tree, State.treeList, List.length_map, List.length_range]
    exact hs.bounded.nnodes
  have decoded : s.artifact.decode = .ok s.textList := by
    rw [Artifact.decode, artifact_outTree r hp, artifact_outBits r hp, tree, (r.packed (by rw [hp]; decide)).1,
      State.packedBits, State.artifact, hs.bounded.root, ← textList_length]
    exact decodeOutput_encoded fits fun v => codeOf_mem_treeCodes r (by rw [hp]; decide) hs.bounded.root ho
  exact ⟨decoded, decoded⟩

end Sys2Proof.Machine
end

section
/-! PROOFS. Encoding and decoding undo each other (30_encoding.md R80 to R84). -/

namespace Sys2Proof

/-! ## From a word to its command -/

theorem command_opcode {r : Row} (hr : r ∈ rows) (w : Word) : (r.command w).opcode = opField r.pattern := by
  simp only [rows, List.mem_cons, List.not_mem_nil, or_false] at hr
  rcases hr with rfl | rfl | rfl | rfl | rfl | rfl | rfl | rfl | rfl | rfl | rfl | rfl <;> rfl

/-- The low bits of a word are those of its IMM field (30_encoding.md R80). -/
theorem extractLsb'_immField (w : Word) {n : Nat} (hn : n ≤ 16) :
    w.extractLsb' 0 n = (immField w).setWidth n := by
  ext j hj
  simp [immField, show j < 16 by omega]

/-- An operand form of `n` bits loses nothing of an IMM that fits it (30_encoding.md R82, R83). -/
theorem operand_setWidth {w : Word} {n : Nat} (hn : n ≤ 16) (himm : (immField w).toNat < 2 ^ n) :
    (w.extractLsb' 0 n).setWidth 16 = immField w := by
  rw [extractLsb'_immField w hn]
  refine BitVec.eq_of_toNat_eq ?_
  rw [BitVec.toNat_setWidth_of_le hn, BitVec.toNat_setWidth, Nat.mod_eq_of_lt himm]

/-- A row's command carries the whole IMM of a word without stray bits. -/
theorem command_imm {r : Row} (hr : r ∈ rows) {w : Word}
    (himm : (immField w).toNat < 2 ^ (formOf (opField r.pattern)).width) : (r.command w).imm = immField w := by
  have none (h : (immField w).toNat < 2 ^ 0) : 0 = immField w := BitVec.eq_of_toNat_eq (by simp at h ⊢; omega)
  simp only [rows, List.mem_cons, List.not_mem_nil, or_false] at hr
  rcases hr with rfl | rfl | rfl | rfl | rfl | rfl | rfl | rfl | rfl | rfl | rfl | rfl
  case inr.inr.inl => exact operand_setWidth (n := 8) (by decide) himm
  case inr.inr.inr.inr.inr.inr.inr.inr.inr.inr.inl => exact operand_setWidth (n := 6) (by decide) himm
  case inr.inr.inr.inr.inr.inr.inr.inr.inr.inr.inr => exact operand_setWidth (n := 8) (by decide) himm
  all_goals exact none himm

/-- The command of the row a word matches encodes to the word. -/
theorem encode_command {r : Row} (hr : r ∈ rows) {w : Word} (h : w &&& r.mask = r.pattern) :
    encode (r.command w) = w := by
  obtain ⟨hop, hrsv, hstray⟩ := (matches_row_iff hr w).mp h
  have himm := (hasStrayBit_eq_false_iff w).mp hstray
  rw [hop] at himm
  calc encode (r.command w) = opField w ++ rsvField w ++ immField w := by
        rw [encode, command_opcode hr, command_imm hr himm, hop, hrsv]; rfl
    _ = w := (eq_append_fields w).symm

theorem encode_of_decode {w : Word} {i : Instr} (h : decode w = .ok i) : encode i = w := by
  by_cases hrow : ∃ r ∈ rows, w &&& r.mask = r.pattern
  · obtain ⟨r, hr, hw⟩ := hrow
    obtain rfl : r.command w = i := Except.ok.inj ((decode_of_matches hr hw).symm.trans h)
    exact encode_command hr hw
  · rw [decode_of_no_row (by simpa using hrow)] at h
    cases h

/-! ## From a command to its word -/

/-- A command of a row with an operand: its word decodes to it, the operand being the low bits of IMM. -/
theorem decode_encode_operand {n : Nat} {f : BitVec n → Instr} {pattern mask : Word}
    (hr : ⟨pattern, mask, fun w => f (w.extractLsb' 0 n)⟩ ∈ rows) (hn : (formOf (opField pattern)).width = n)
    (h16 : n ≤ 16) {x : BitVec n} (hfields : Laws.Fields.Statement (f x)) (hop : (f x).opcode = opField pattern)
    (himm : (f x).imm = x.setWidth 16) : decode (encode (f x)) = .ok (f x) := by
  obtain ⟨fop, frsv, fimm⟩ := hfields
  rw [hop] at fop
  rw [himm] at fimm
  have fits : (immField (encode (f x))).toNat < 2 ^ (formOf (opField (encode (f x)))).width := by
    rw [fop, hn, fimm, BitVec.toNat_setWidth_of_le h16]
    exact x.isLt
  have operand : (encode (f x)).extractLsb' 0 n = x := by
    rw [extractLsb'_immField _ h16, fimm, BitVec.setWidth_setWidth_of_le _ h16, BitVec.setWidth_eq]
  exact (decode_of_imm_lt hr fop frsv fits).trans (congrArg (fun y => Except.ok (f y)) operand)

theorem decode_encode (i : Instr) : decode (encode i) = .ok i := by
  cases i with
  | push sym =>
    exact decode_encode_operand (f := .push) (pattern := 0x02000000#32) (mask := 0xFFFFFF00#32)
      (by simp [rows, symOperand]) rfl (by decide) (Laws.Fields.push sym) rfl rfl
  | xlate v =>
    exact decode_encode_operand (f := .xlate) (pattern := 0x0A000000#32) (mask := 0xFFFFFFC0#32)
      (by simp [rows, v6Operand]) rfl (by decide) (Laws.Fields.xlate v) rfl rfl
  | unxlate b =>
    exact decode_encode_operand (f := .unxlate) (pattern := 0x0B000000#32) (mask := 0xFFFFFF00#32)
      (by simp [rows, b8Operand]) rfl (by decide) (Laws.Fields.unxlate b) rfl rfl
  | nop | clear | count | build | serialize | derive | pack | transcode | encode => rfl

/-- Settles O1: a word decodes by its row, whose command encodes to it; a command's word decodes to it. -/
theorem decodeAndEncodeAgree : Obligations.DecodeAndEncodeAgree := by
  unfold Obligations.DecodeAndEncodeAgree
  refine fun w i => ⟨encode_of_decode, ?_⟩
  rintro rfl
  exact decode_encode i

/-- Settles O4: the twelve legal words are encodings; the other four are evaluated. -/
theorem decodeSampleWords : Obligations.DecodeSampleWords := by
  unfold Obligations.DecodeSampleWords
  exact ⟨decode_encode .nop, decode_encode .clear, decode_encode (.push 0x61), decode_encode .count,
    decode_encode .build, decode_encode .serialize, decode_encode .derive, decode_encode .pack,
    decode_encode .transcode, decode_encode .encode, decode_encode (.xlate 63), decode_encode (.unxlate 93),
    by decide, by decide, by decide, by decide⟩

end Sys2Proof
end

section
/-! PROOFS. Every step keeps the invariants (10_state.md sections 2 and 3, 60_exceptions.md section 2), and the reset
state meets them (10_state.md section 5). -/

namespace Sys2Proof.Machine

variable {s t u : State}

/-! ## The handshake and the error latch -/

theorem State.Sound.shape (h : s.Sound) : State.Shape s := ⟨h.bounded, h.canonical, h.listed⟩

theorem latch_sameBlock (h : SameBlock s u) (l : s.LatchSound) : u.LatchSound := by
  unfold SameBlock at h
  rw [h]
  exact latch_of_fields l rfl rfl rfl rfl

theorem handshake_sameBlock (h : SameBlock s u) (k : s.Handshake) : u.Handshake := by
  unfold SameBlock at h
  rw [h]
  exact k

theorem handshake_of_idle (h : s.busy = false) : s.Handshake := fun hb => absurd hb (by simp [h])

/-- Every step keeps the error latch consistent (60_exceptions.md R262). -/
theorem latch_step (l : s.LatchSound) (h : step s = .next t) : t.LatchSound := by
  obtain ⟨u, hu, -, event⟩ := step_cases h
  have l := latch_sameBlock hu l
  cases event with
  | quiet e => exact e ▸ l
  | command i v _ _ run e => exact e ▸ latch_of_fields (latch_exec l run) rfl rfl rfl rfl
  | illegal _ _ _ e =>
    have raised := latch_raise u .illegalCmd 0 (by simp) fun _ => rfl
    exact e ▸ latch_of_fields raised rfl rfl rfl rfl
  | clear e => exact e ▸ latch_exec (i := .clear) l rfl
  | overrun _ e => exact e ▸ latch_of_fields l rfl rfl rfl rfl
  | latch _ _ _ _ e => exact e ▸ latch_of_fields l rfl rfl rfl rfl

/-- Every step keeps the handshake: a completion and CLEAR leave BUSY = 0, and only a word other than CLEAR's is
latched, with ERR = 0 (40_control.md R100, R101). -/
theorem handshake_step (k : s.Handshake) (h : step s = .next t) : t.Handshake := by
  obtain ⟨u, hu, -, event⟩ := step_cases h
  have k := handshake_sameBlock hu k
  cases event with
  | quiet e => exact e ▸ k
  | command _ _ _ _ _ e => exact handshake_of_idle (e ▸ rfl)
  | illegal _ _ _ e => exact handshake_of_idle (e ▸ rfl)
  | clear e => exact handshake_of_idle (e ▸ rfl)
  | overrun _ e => exact e ▸ k
  | latch w notClear _ noError e => exact e ▸ fun _ => ⟨noError, rfl, notClear⟩

/-- Settles O59: the shape, the error latch and the handshake, each kept on its own. -/
theorem soundKeptByStep : Obligations.SoundKeptByStep := by
  unfold Obligations.SoundKeptByStep
  intro s t hs h
  have shape := shape_step hs.shape h
  exact ⟨shape.bounded, latch_step hs.latch h, handshake_step hs.handshake h, shape.canonical, shape.listed⟩

/-- Settles O60: event by event, a completed stage making its own results of those before it. -/
theorem resultsKeptByStep : Obligations.ResultsKeptByStep := by
  unfold Obligations.ResultsKeptByStep
  exact fun s t hs r h => results_step hs.shape r h

/-! ## The reset state -/

/-- The open parameters are in range (00_scope.md R7, R8). -/
theorem reset_parameters :
    (1 ≤ State.reset.maxLen ∧ State.reset.maxLen ≤ Config.maxCapacity) ∧
      (1 ≤ State.reset.maxGroups ∧ State.reset.maxGroups ≤ Config.maxCapacity) :=
  ⟨⟨Nat.succ_pos _, Config.freeMaxLen.isLt⟩, ⟨Nat.succ_pos _, Config.freeMaxGroups.isLt⟩⟩

theorem reset_sound : State.reset.Sound := by
  obtain ⟨hlen, hgroups⟩ := reset_parameters
  have shape : State.Shape State.reset := shape_reset hlen hgroups
  exact ⟨shape.bounded, ⟨fun _ => ⟨rfl, rfl, rfl⟩, nofun, fun _ => rfl⟩, handshake_of_idle rfl, shape.canonical,
    shape.listed⟩

/-- Settles O54: the reset state lists nothing and has no stage done. -/
theorem resetMeetsTheInvariants : Obligations.ResetMeetsTheInvariants := by
  unfold Obligations.ResetMeetsTheInvariants
  exact ⟨reset_sound, results_reset _ _, reset_sound⟩

/-- A parameter reads in its register (10_state.md R36, R37). -/
theorem toNat_parameter {n : Nat} (h : n ≤ Config.maxCapacity) : (BitVec.ofNat 32 n).toNat = n :=
  toNat_ofNat_small (h.trans_lt (by decide))

/-- Settles O53: the fields by `State.reset`, the parameters by their range, and no element valid with an empty text
and PHASE = EMPTY. -/
theorem resetLeaves : Obligations.ResetLeaves := by
  unfold Obligations.ResetLeaves
  rintro s rfl
  obtain ⟨⟨len_pos, len_le⟩, groups_pos, groups_le⟩ := reset_parameters
  have unread (loc : Location) (hreg : ∀ r, loc ≠ .register r) (hres : loc ≠ .reserved) :
      State.reset.valid loc = false ∧ State.reset.wordAt loc = none :=
    have hv := valid_of_unloaded (s := State.reset) rfl rfl hreg hres
    ⟨hv, wordAt_of_not_valid hv⟩
  exact ⟨rfl, rfl, rfl, rfl, rfl, rfl, rfl, rfl, rfl, rfl, rfl, rfl, rfl, rfl, rfl, rfl, rfl, toNat_parameter len_le,
    toNat_parameter groups_le, len_pos, len_le, groups_pos, groups_le, unread⟩

end Sys2Proof.Machine
end

section
/-! PROOFS. What a command's rule can do, said once (40_control.md R102), and of it: what no command moves
(70_reset_and_hazards.md R291), and how a command fails (60_exceptions.md R261 to R264). -/

namespace Sys2Proof.Machine

variable {s t : State} {i : Instr} {rule : Rule}

/-! ## Commands by their rules -/

/-- The rule of each command that is one check and one rule: all but CLEAR and ENCODE (40_control.md R102). -/
inductive RuleOf : Instr → Rule → Prop where
  | nop : RuleOf .nop nopRule
  | push (sym : Symbol) : RuleOf (.push sym) (pushRule sym)
  | count : RuleOf .count countRule
  | build : RuleOf .build buildRule
  | serialize : RuleOf .serialize serializeRule
  | derive : RuleOf .derive deriveRule
  | pack : RuleOf .pack packRule
  | transcode : RuleOf .transcode transcodeRule
  | xlate (v : Group) : RuleOf (.xlate v) (xlateRule v)
  | unxlate (b : Symbol) : RuleOf (.unxlate b) (unxlateRule b)

/-- The forms of a command: CLEAR, ENCODE's stages, or a rule after the phase check. -/
theorem exec_form (i : Instr) :
    i = .clear ∨ i = .encode ∨ ∃ rule, RuleOf i rule ∧ ∀ s, exec i s = .next (s.perform i rule) := by
  cases i with
  | clear => exact .inl rfl
  | encode => exact .inr (.inl rfl)
  | nop => exact .inr (.inr ⟨_, .nop, fun _ => rfl⟩)
  | push sym => exact .inr (.inr ⟨_, .push sym, fun _ => rfl⟩)
  | count => exact .inr (.inr ⟨_, .count, fun _ => rfl⟩)
  | build => exact .inr (.inr ⟨_, .build, fun _ => rfl⟩)
  | serialize => exact .inr (.inr ⟨_, .serialize, fun _ => rfl⟩)
  | derive => exact .inr (.inr ⟨_, .derive, fun _ => rfl⟩)
  | pack => exact .inr (.inr ⟨_, .pack, fun _ => rfl⟩)
  | transcode => exact .inr (.inr ⟨_, .transcode, fun _ => rfl⟩)
  | xlate v => exact .inr (.inr ⟨_, .xlate v, fun _ => rfl⟩)
  | unxlate b => exact .inr (.inr ⟨_, .unxlate b, fun _ => rfl⟩)

theorem ruleOf_of_mem_stages {stage : Instr × Rule} (h : stage ∈ encodeStages) : RuleOf stage.1 stage.2 := by
  simp only [encodeStages, List.mem_cons, List.not_mem_nil, or_false] at h
  rcases h with rfl | rfl | rfl | rfl | rfl | rfl
  exacts [.count, .build, .serialize, .derive, .pack, .transcode]

theorem pushRule_ok {sym : Symbol} (h : pushRule sym s = .ok t) :
    t = { s with text := s.text.write s.len.toNat sym, len := s.len + 1 } := by
  unfold pushRule at h
  split at h <;> cases h
  rfl

theorem pushRule_error {sym : Symbol} {e : CommandError} (h : pushRule sym s = .error e) :
    s.len.toNat = s.maxLen ∧ e = ⟨.textFull, 0⟩ := by
  unfold pushRule at h
  split at h <;> cases h
  exact ⟨‹_›, rfl⟩

theorem unxlateRule_ok {b : Symbol} (h : unxlateRule b s = .ok t) :
    t = { s with result := (fromSafe b).setWidth 32 } := by
  unfold unxlateRule at h
  split at h <;> cases h
  rfl

theorem unxlateRule_error {b : Symbol} {e : CommandError} (h : unxlateRule b s = .error e) :
    ¬ isSafe b = true ∧ e = ⟨.badOperand, 0⟩ := by
  unfold unxlateRule at h
  split at h <;> cases h
  exact ⟨‹_›, rfl⟩

/-! ## What no command moves -/

/-- Of what a rule leaves unchanged, what the statements on steps and errors speak of. -/
structure RuleFrame (s t : State) : Prop where
  phase : t.phase = s.phase
  err : t.err = s.err
  pending : t.pending = s.pending
  maxLen : t.maxLen = s.maxLen
  maxGroups : t.maxGroups = s.maxGroups

theorem RuleOf.frame (hr : RuleOf i rule) (h : rule s = .ok t) : RuleFrame s t := by
  cases hr with
  | push sym => exact pushRule_ok h ▸ ⟨rfl, rfl, rfl, rfl, rfl⟩
  | pack => exact (packRule_ok h).2 ▸ ⟨rfl, rfl, rfl, rfl, rfl⟩
  | unxlate b => exact unxlateRule_ok h ▸ ⟨rfl, rfl, rfl, rfl, rfl⟩
  | nop | count | build | serialize | derive | transcode | xlate =>
    cases h
    exact ⟨rfl, rfl, rfl, rfl, rfl⟩

/-- What no command but CLEAR moves, failing or not: PENDING until the completion, and the parameters (10_state.md R23,
70_reset_and_hazards.md R291). -/
structure CommandFrame (s t : State) : Prop where
  pending : t.pending = s.pending
  maxLen : t.maxLen = s.maxLen
  maxGroups : t.maxGroups = s.maxGroups

theorem CommandFrame.refl (s : State) : CommandFrame s s := ⟨rfl, rfl, rfl⟩

theorem CommandFrame.trans {u : State} (h : CommandFrame s t) (k : CommandFrame t u) : CommandFrame s u :=
  ⟨k.pending.trans h.pending, k.maxLen.trans h.maxLen, k.maxGroups.trans h.maxGroups⟩

theorem commandFrame_raise (s : State) (code : ErrCode) (aux : Word) : CommandFrame s (s.raiseError code aux) :=
  ⟨rfl, rfl, rfl⟩

theorem RuleOf.commandFrame (hr : RuleOf i rule) (h : rule s = .ok t) : CommandFrame s (t.advance i) := by
  have kept := hr.frame h
  have advanced : CommandFrame t (t.advance i) := by cases i <;> exact ⟨rfl, rfl, rfl⟩
  exact CommandFrame.trans ⟨kept.pending, kept.maxLen, kept.maxGroups⟩ advanced

theorem perform_frame (hr : RuleOf i rule) (s : State) : CommandFrame s (s.perform i rule) := by
  rcases perform_cases s i rule with ⟨-, e⟩ | ⟨-, _, -, e⟩ | ⟨-, v, hv, e⟩ <;> rw [e]
  · exact commandFrame_raise ..
  · exact commandFrame_raise ..
  · exact hr.commandFrame hv

theorem runStages_frame {stages : List (Instr × Rule)} (h : ∀ stage ∈ stages, RuleOf stage.1 stage.2) (s : State) :
    CommandFrame s (runStages stages s) := by
  induction stages generalizing s with
  | nil => exact .refl s
  | cons stage stages ih =>
    obtain ⟨hr, hrest⟩ := List.forall_mem_cons.mp h
    unfold runStages
    split
    case h_1 v hv => exact (hr.commandFrame hv).trans (ih hrest _)
    case h_2 => exact commandFrame_raise ..

theorem exec_frame (hi : i ≠ .clear) (h : exec i s = .next t) : CommandFrame s t := by
  rcases exec_form i with rfl | rfl | ⟨rule, hr, he⟩
  · exact absurd rfl hi
  · cases h
    split
    · exact runStages_frame (fun _ => ruleOf_of_mem_stages) s
    · exact commandFrame_raise ..
  · rw [he] at h
    cases h
    exact perform_frame hr s

theorem exec_parameters (h : exec i s = .next t) : t.maxLen = s.maxLen ∧ t.maxGroups = s.maxGroups := by
  by_cases hi : i = .clear
  · subst hi
    cases h
    exact ⟨rfl, rfl⟩
  · have kept := exec_frame hi h
    exact ⟨kept.maxLen, kept.maxGroups⟩

theorem step_parameters (h : step s = .next t) : t.maxLen = s.maxLen ∧ t.maxGroups = s.maxGroups := by
  obtain ⟨u, hu, -, event⟩ := step_cases h
  have same := sameShape_of_sameBlock hu
  rw [← same.maxLen, ← same.maxGroups]
  cases event with
  | command _ v _ _ run e => exact e ▸ exec_parameters (t := v) run
  | quiet e | illegal _ _ _ e | clear e | overrun _ e | latch _ _ _ _ e => exact e ▸ ⟨rfl, rfl⟩

/-- Settles O56: event by event, and for a command by what no command moves. -/
theorem parametersNeverChange : Obligations.ParametersNeverChange := by
  unfold Obligations.ParametersNeverChange
  refine ⟨fun s t h => ?_, fun i s t => exec_parameters⟩
  obtain ⟨hlen, hgroups⟩ := step_parameters h
  exact ⟨hlen, hgroups, rfl⟩

/-! ## How a command fails -/

/-- The phase check comes before a command's own (60_exceptions.md R264). -/
theorem exec_of_not_phaseIn (h : phaseIn i s.phase = false) : exec i s = .next (s.raiseError .sequence 0) := by
  have out : ¬ phaseIn i s.phase = true := by simp [h]
  rcases exec_form i with rfl | rfl | ⟨rule, -, hexec⟩
  · cases h
  · exact congrArg Host.Outcome.next (if_neg out)
  · rw [hexec, perform_of_not_phaseIn out]

/-- A command that fails, by its cause (60_exceptions.md R261, R264): the state it ran from and the state it leaves. -/
inductive Raises (s t : State) : Instr → Prop where
  /-- The phase check, of any command that has one. -/
  | sequence {i : Instr} (outOfPhase : phaseIn i s.phase = false) (h : t = s.raiseError .sequence 0) : Raises s t i
  /-- PUSH's own check. -/
  | textFull (sym : Symbol) (full : s.len.toNat = s.maxLen) (inPhase : phaseIn (.push sym) s.phase = true)
      (h : t = s.raiseError .textFull 0) : Raises s t (.push sym)
  /-- UNXLATE's own check. -/
  | badOperand (b : Symbol) (bad : ¬ isSafe b = true) (h : t = s.raiseError .badOperand 0) : Raises s t (.unxlate b)
  /-- PACK's own check. -/
  | packOverflow (exceeds : s.maxGroups < groupsNeeded s.packedBits.length) (inPhase : phaseIn .pack s.phase = true)
      (h : t = s.raiseError .outOverflow (BitVec.ofNat 32 (groupsNeeded s.packedBits.length))) : Raises s t .pack
  /-- PACK's check as a stage of ENCODE, after four stages that succeed. -/
  | encodeOverflow (s1 s2 s3 s4 : State) (count : exec .count s = .next s1) (build : exec .build s1 = .next s2)
      (serialize : exec .serialize s2 = .next s3) (derive : exec .derive s3 = .next s4) (derived : s4.phase = .derived)
      (frame : StageFrame s s4) (exceeds : s4.maxGroups < groupsNeeded s4.packedBits.length)
      (inPhase : phaseIn .encode s.phase = true)
      (h : t = s4.raiseError .outOverflow (BitVec.ofNat 32 (groupsNeeded s4.packedBits.length))) : Raises s t .encode

/-- A command's own check is that of PUSH, UNXLATE or PACK (60_exceptions.md R264). -/
theorem RuleOf.raises {e : CommandError} (hr : RuleOf i rule) (hp : phaseIn i s.phase = true) (h : rule s = .error e) :
    Raises s (s.raiseError e.code e.aux) i := by
  cases hr with
  | push sym =>
    obtain ⟨full, rfl⟩ := pushRule_error h
    exact .textFull sym full hp rfl
  | unxlate b =>
    obtain ⟨bad, rfl⟩ := unxlateRule_error h
    exact .badOperand b bad rfl
  | pack =>
    obtain ⟨exceeds, rfl⟩ := packRule_error h
    exact .packOverflow exceeds hp rfl
  | nop | count | build | serialize | derive | transcode | xlate => cases h

theorem encode_raises (he : s.err = false) (h : exec .encode s = .next t) (ht : t.err = true) : Raises s t .encode := by
  cases hp : phaseIn .encode s.phase with
  | false => exact .sequence hp (Host.Outcome.next.inj (h.symm.trans (exec_of_not_phaseIn hp)))
  | true =>
    obtain rfl : runStages encodeStages s = t := Host.Outcome.next.inj ((exec_encode_of_phaseIn hp).symm.trans h)
    obtain ⟨s1, s2, s3, s4, e1, e2, e3, e4, derived, frame, hpack⟩ := encode_commands hp
    rcases hpack with ⟨exceeds, run⟩ | ⟨-, -, -, -, -, kept⟩
    · exact .encodeOverflow s1 s2 s3 s4 e1 e2 e3 e4 derived frame exceeds hp run
    · rw [kept.err, he] at ht
      cases ht

/-- Every way a command can fail. -/
theorem exec_raises (he : s.err = false) (h : exec i s = .next t) (ht : t.err = true) : Raises s t i := by
  rcases exec_form i with rfl | rfl | ⟨rule, hr, hexec⟩
  · cases h
    cases ht
  · exact encode_raises he h ht
  · rw [hexec] at h
    cases h
    rcases perform_cases s i rule with ⟨hp, e⟩ | ⟨hp, _, herr, e⟩ | ⟨-, v, hv, e⟩ <;> rw [e] at ht ⊢
    · exact .sequence hp rfl
    · exact hr.raises hp herr
    · have kept : (v.advance i).err = v.err := by cases i <;> rfl
      rw [kept, (hr.frame hv).err, he] at ht
      cases ht

/-- A command that fails leaves in ERRINFO the word latched when it began (60_exceptions.md R262). -/
theorem exec_errInfo (he : s.err = false) (h : exec i s = .next t) (ht : t.err = true) : t.errInfo = s.pending := by
  cases exec_raises he h ht with
  | sequence _ e | textFull _ _ _ e | badOperand _ _ e | packOverflow _ _ e => exact e ▸ rfl
  | encodeOverflow s1 s2 s3 s4 _ _ _ _ _ _ _ _ e =>
    calc t.errInfo = t.pending := e ▸ rfl
      _ = s.pending := (exec_frame (by simp) h).pending

/-- Settles O14: the latch by its definition, and a failing command by the causes it can have. -/
theorem errorEntry : Obligations.ErrorEntry := by
  unfold Obligations.ErrorEntry
  refine ⟨fun s code aux => rfl, fun s t hs hb h => ?_⟩
  obtain ⟨he, -, -⟩ := hs.handshake hb
  rw [engineTurn, if_pos hb] at h
  refine ⟨he, fun ht => ?_⟩
  rcases completeCommand_cases h with ⟨i, v, -, run, rfl⟩ | ⟨_, -, rfl⟩
  · exact ⟨(latch_exec hs.latch run).error ht, exec_errInfo (t := v) he run ht, rfl, rfl⟩
  · exact ⟨by simp, rfl, rfl, rfl⟩

/-- Settles O15: each cause latches an error on the state the command ran from, or for ENCODE on that after DERIVE. -/
theorem errorsArePrecise : Obligations.ErrorsArePrecise := by
  unfold Obligations.ErrorsArePrecise
  intro i s t he h ht
  cases exec_raises he h ht with
  | sequence _ e | textFull _ _ _ e | badOperand _ _ e | packOverflow _ _ e => exact .inl (e ▸ rfl)
  | encodeOverflow s1 s2 s3 s4 e1 e2 e3 e4 derived frame _ _ e =>
    subst e
    exact .inr ⟨rfl, derived, s1, s2, s3, s4, e1, e2, e3, e4, frame.err.trans he, rfl⟩

theorem errCode_bits_lt (c : ErrCode) : c.bits.toNat < 6 := by cases c <;> decide

/-- Settles O16: the codes' numbers, the empty latch, the illegal word, and a command's error by its causes. -/
theorem errorCodesByCause : Obligations.ErrorCodesByCause := by
  unfold Obligations.ErrorCodesByCause
  refine ⟨⟨rfl, rfl, rfl, rfl, rfl, rfl, errCode_bits_lt⟩, fun s hs hc => ?noError, fun s t c hd h => ?illegal,
    fun i s t he h ht => ⟨exec_errInfo he h ht, ?command⟩⟩
  case noError =>
    have he : s.err = false := by
      by_contra herr
      exact hs.latch.error (by simpa using herr) hc
    exact (hs.latch.noError he).2
  case illegal =>
    obtain rfl := Host.Outcome.next.inj ((completeCommand_of_illegal hd).symm.trans h)
    exact ⟨rfl, rfl, rfl⟩
  case command =>
    cases exec_raises he h ht with
    | sequence out e =>
      subst e
      refine ⟨?_, ?_, fun v => ?_, rfl, out, fun b => ?_⟩ <;> rintro rfl <;> cases out
    | textFull sym full _ e => exact e ▸ ⟨nofun, nofun, nofun, rfl, ⟨sym, rfl⟩, full⟩
    | badOperand b bad e =>
      have range := (isSafe_iff b).not.mp bad
      exact e ▸ ⟨nofun, nofun, nofun, rfl, b, rfl, by omega⟩
    | packOverflow exceeds _ e => exact e ▸ ⟨nofun, nofun, nofun, .inl rfl, exceeds, rfl⟩
    | encodeOverflow s1 s2 s3 s4 _ _ _ _ _ frame exceeds _ e =>
      subst e
      exact ⟨nofun, nofun, nofun, .inr rfl, frame.maxGroups ▸ exceeds, rfl⟩

/-- Settles O17: an illegal word before the phase, the phase before a command's own check. -/
theorem checksRunInOrder : Obligations.ChecksRunInOrder := by
  unfold Obligations.ChecksRunInOrder
  refine ⟨fun s c => completeCommand_of_illegal,
    fun s i hd hp => completeCommand_of_decode hd (exec_of_not_phaseIn hp), fun s t i he hd hp h ht => ?_⟩
  obtain ⟨v, run⟩ := exec_next i s
  obtain rfl := Host.Outcome.next.inj ((completeCommand_of_decode hd run).symm.trans h)
  cases exec_raises he run ht with
  | sequence out _ => rw [hp] at out; cases out
  | textFull _ _ _ e | badOperand _ _ e | packOverflow _ _ e => exact e ▸ rfl
  | encodeOverflow _ _ _ _ _ _ _ _ _ _ _ _ e => exact e ▸ rfl

end Sys2Proof.Machine
end

section
/-! PROOFS. What a step does, with whose turn it was and whether CLEAR was written, said once; and of it: the error
latch stays (60_exceptions.md R266), PHASE, TEXT, LEN and DONE (10_state.md section 2). Then an overrun
(60_exceptions.md R267). -/

namespace Sys2Proof.Machine

variable {s t u : State} {i : Instr} {rule : Rule}

/-! ## The turns -/

/-- A step from `s` to `t` by the agent whose turn it was, `u` being the block of `s` with the turn and the host's
action taken. -/
inductive Turn (s u t : State) : Prop where
  /-- Nothing of the block moves: a host's action without effect, or an engine that has no command. -/
  | quiet (noClear : ¬ s.clearsNext) (waits : nextAgent s = .engine → s.busy = false) (h : t = u)
  /-- The engine completes a command. -/
  | command (i : Instr) (v : State) (engine : nextAgent s = .engine) (busy : s.busy = true)
      (dec : decode s.pending = .ok i) (run : exec i u = .next v) (h : t = v.complete)
  /-- The engine completes an illegal word. -/
  | illegal (engine : nextAgent s = .engine) (busy : s.busy = true) (h : t = (u.raiseError .illegalCmd 0).complete)
  /-- The host writes the CLEAR word. -/
  | clear (clears : s.clearsNext) (h : t = u.cleared)
  /-- The host writes a word that is dropped. -/
  | overrun (host : nextAgent s = .host) (noClear : ¬ s.clearsNext) (busy : s.busy = true) (h : t = u.setOverrun)
  /-- The host writes a word that is latched. -/
  | latch (w : Word) (host : nextAgent s = .host) (noClear : ¬ s.clearsNext) (idle : s.busy = false)
      (noError : s.err = false) (h : t = u.latch w)

theorem not_clearsNext_of_engine (h : nextAgent s = .engine) : ¬ s.clearsNext := fun ⟨host, _⟩ => by
  rw [h] at host
  cases host

theorem engineTurn_turn (hn : nextAgent s = .engine) (h : engineTurn { s with turns := s.turns.tail } = .next t) :
    Turn s { s with turns := s.turns.tail } t := by
  unfold engineTurn at h
  split at h
  case isTrue hb =>
    rcases completeCommand_cases h with ⟨i, v, dec, run, e⟩ | ⟨_, _, e⟩
    · exact .command i v hn hb dec run e
    · exact .illegal hn hb e
  case isFalse hb =>
    cases h
    exact .quiet (not_clearsNext_of_engine hn) (fun _ => by simpa using hb) rfl

theorem clearsNext_iff {w : Word} {rest : List HostAction} (hn : nextAgent s = .host)
    (hs : s.script = .access ⟨cmdOffset, 4, .write w⟩ :: rest) : s.clearsNext ↔ w = clearWord := by
  simp [State.clearsNext, hn, hs]

theorem hostTurn_turn (hn : nextAgent s = .host) (h : hostTurn { s with turns := s.turns.tail } = .next t) :
    ∃ u, SameBlock s u ∧ Turn s u t := by
  have host : nextAgent s ≠ .engine := by simp [hn]
  rcases hostTurn_submits h with ⟨w, rest, hs, hw⟩ | ⟨hs, same⟩
  · have iff := clearsNext_iff hn hs
    refine ⟨{ s with script := rest, turns := s.turns.tail }, rfl, ?_⟩
    rcases submit_cases hw with ⟨hclear, e⟩ | ⟨hne, hb, e⟩ | ⟨hne, -, -, e⟩ | ⟨hne, hb, he, e⟩
    · exact .clear (iff.mpr hclear) e
    · exact .overrun hn (iff.not.mpr hne) hb e
    · exact .quiet (iff.not.mpr hne) (fun engine => absurd engine host) e
    · exact .latch w hn (iff.not.mpr hne) hb he e
  · have taken : SameBlock s { s with turns := s.turns.tail } := rfl
    exact ⟨t, taken.trans same, .quiet (fun ⟨_, rest, e⟩ => hs _ rest e) (fun engine => absurd engine host) rfl⟩

/-- What a step does. -/
theorem step_turn (h : step s = .next t) : ∃ u, SameBlock s u ∧ Turn s u t := by
  cases hn : nextAgent s with
  | engine =>
    rw [step_of_engine hn] at h
    exact ⟨{ s with turns := s.turns.tail }, rfl, engineTurn_turn hn h⟩
  | host =>
    rw [step_of_host hn] at h
    exact hostTurn_turn hn h

/-- In a sound state the engine completes no CLEAR: its word is never latched (40_control.md R100). -/
theorem State.Sound.not_clear (hs : s.Sound) (hb : s.busy = true) (dec : decode s.pending = .ok i) : i ≠ .clear := by
  rintro rfl
  obtain ⟨-, -, notClear⟩ := hs.handshake hb
  exact notClear (encode_of_decode dec).symm

/-! ## The error latch stays -/

/-- Settles O19: with ERR = 1 no command runs and none is latched, so only CLEAR moves the block. -/
theorem errorLatchIsSticky : Obligations.ErrorLatchIsSticky := by
  unfold Obligations.ErrorLatchIsSticky
  intro s t hs he h
  have idle : ¬ s.busy = true := fun hb => by
    have noError := (hs.handshake hb).1
    rw [he] at noError
    cases noError
  obtain ⟨u, same, turn⟩ := step_turn h
  cases turn with
  | quiet noClear _ e => exact .inl ⟨noClear, e ▸ same⟩
  | command _ _ _ busy => exact absurd busy idle
  | illegal _ busy => exact absurd busy idle
  | clear clears e => exact .inr ⟨clears, e ▸ ⟨rfl, rfl, rfl, rfl, rfl, rfl, u, rfl⟩⟩
  | overrun _ _ busy => exact absurd busy idle
  | latch _ _ _ _ noError =>
    rw [he] at noError
    cases noError

/-! ## PHASE -/

/-- A command's phase out is not before its phases in (30_encoding.md R84). -/
theorem rank_le_advance (hi : i ≠ .clear) (h : phaseIn i s.phase = true) (hp : t.phase = s.phase) :
    s.phase.rank ≤ (t.advance i).phase.rank := by
  cases i with
  | clear => exact absurd rfl hi
  | nop | xlate | unxlate => exact (congrArg Phase.rank hp).ge
  | push | count | encode =>
    have low := rank_of_loadable (phaseIn_loadable h)
    simp
    omega
  | build | serialize | derive | pack | transcode =>
    simp only [phaseIn, beq_iff_eq] at h
    simp [h]

theorem rank_le_encode (hp : phaseIn .encode s.phase = true) :
    s.phase.rank ≤ (runStages encodeStages s).phase.rank := by
  have low := (phaseIn_encode_iff s.phase).mp hp
  obtain ⟨s1, s2, s3, s4, -, -, -, -, derived, -, ⟨-, run⟩ | ⟨-, -, -, -, transcoded, -⟩⟩ := encode_commands hp
  · have high : (runStages encodeStages s).phase = .derived := run ▸ derived
    simp only [high, Phase.rank_derived, Phase.rank_counted] at low ⊢
    omega
  · simp only [transcoded, Phase.rank_transcoded, Phase.rank_counted] at low ⊢
    omega

theorem rank_le_exec (hi : i ≠ .clear) (h : exec i s = .next t) : s.phase.rank ≤ t.phase.rank := by
  rcases exec_form i with rfl | rfl | ⟨rule, hr, hexec⟩
  · exact absurd rfl hi
  · cases h
    split
    case isTrue hp => exact rank_le_encode hp
    case isFalse => exact Nat.le_refl _
  · rw [hexec] at h
    cases h
    rcases perform_cases s i rule with ⟨-, e⟩ | ⟨-, _, -, e⟩ | ⟨hp, v, hv, e⟩ <;> rw [e]
    · exact Nat.le_refl _
    · exact Nat.le_refl _
    · exact rank_le_advance hi hp (hr.frame hv).phase

/-- Settles O55: only a command and CLEAR move PHASE, and a command's phase out is not before its phases in. -/
theorem phaseNeverDecreases : Obligations.PhaseNeverDecreases := by
  unfold Obligations.PhaseNeverDecreases
  intro s t hs h
  obtain ⟨u, same, turn⟩ := step_turn h
  rw [← (sameShape_of_sameBlock same).phase]
  cases turn with
  | command i v _ busy dec run e => exact .inl (e ▸ rank_le_exec (t := v) (hs.not_clear busy dec) run)
  | clear clears e => exact .inr ⟨clears, e ▸ rfl⟩
  | quiet _ _ e | illegal _ _ e | overrun _ _ _ e | latch _ _ _ _ _ e => exact .inl (e ▸ Nat.le_refl _)

/-! ## TEXT and LEN -/

/-- TEXT and LEN do not move. -/
structure KeepsText (s t : State) : Prop where
  text : t.text = s.text
  len : t.len = s.len

theorem KeepsText.trans (h : KeepsText s t) (k : KeepsText t u) : KeepsText s u :=
  ⟨k.text.trans h.text, k.len.trans h.len⟩

theorem RuleOf.keepsText (hr : RuleOf i rule) (hi : ∀ sym, i ≠ .push sym) (h : rule s = .ok t) :
    KeepsText s (t.advance i) := by
  cases hr with
  | push sym => exact absurd rfl (hi sym)
  | pack => exact (packRule_ok h).2 ▸ ⟨rfl, rfl⟩
  | unxlate b => exact unxlateRule_ok h ▸ ⟨rfl, rfl⟩
  | nop | count | build | serialize | derive | transcode | xlate =>
    cases h
    exact ⟨rfl, rfl⟩

theorem runStages_keepsText {stages : List (Instr × Rule)}
    (h : ∀ stage ∈ stages, RuleOf stage.1 stage.2 ∧ ∀ sym, stage.1 ≠ .push sym) (s : State) :
    KeepsText s (runStages stages s) := by
  induction stages generalizing s with
  | nil => exact ⟨rfl, rfl⟩
  | cons stage stages ih =>
    obtain ⟨⟨hr, hi⟩, hrest⟩ := List.forall_mem_cons.mp h
    unfold runStages
    split
    case h_1 v hv => exact (hr.keepsText hi hv).trans (ih hrest _)
    case h_2 => exact ⟨rfl, rfl⟩

theorem not_push_of_mem_stages {stage : Instr × Rule} (h : stage ∈ encodeStages) (sym : Symbol) :
    stage.1 ≠ .push sym := by
  simp only [encodeStages, List.mem_cons, List.not_mem_nil, or_false] at h
  rcases h with rfl | rfl | rfl | rfl | rfl | rfl <;> nofun

/-- A command but CLEAR keeps TEXT and LEN, or is a PUSH that succeeds (41_frequency.md R120). -/
theorem exec_text (hi : i ≠ .clear) (h : exec i s = .next t) : KeepsText s t ∨
    ∃ sym, i = .push sym ∧ t.len = s.len + 1 ∧ t.text = s.text.write s.len.toNat sym := by
  rcases exec_form i with rfl | rfl | ⟨rule, hr, hexec⟩
  · exact absurd rfl hi
  · cases h
    split
    · exact .inl (runStages_keepsText (fun _ hm => ⟨ruleOf_of_mem_stages hm, not_push_of_mem_stages hm⟩) s)
    · exact .inl ⟨rfl, rfl⟩
  · rw [hexec] at h
    cases h
    rcases perform_cases s i rule with ⟨-, e⟩ | ⟨-, _, -, e⟩ | ⟨-, v, hv, e⟩ <;> rw [e]
    · exact .inl ⟨rfl, rfl⟩
    · exact .inl ⟨rfl, rfl⟩
    · by_cases hpush : ∃ sym, i = .push sym
      · obtain ⟨sym, rfl⟩ := hpush
        cases hr
        exact .inr ⟨sym, rfl, pushRule_ok hv ▸ ⟨rfl, rfl⟩⟩
      · exact .inl (hr.keepsText (not_exists.mp hpush) hv)

/-- Settles O57: only CLEAR and a command move them, and of the commands only PUSH. -/
theorem textMovesOnlyByPush : Obligations.TextMovesOnlyByPush := by
  unfold Obligations.TextMovesOnlyByPush
  intro s t hs h
  obtain ⟨u, same, turn⟩ := step_turn h
  have shape := sameShape_of_sameBlock same
  rw [← shape.text, ← shape.len]
  cases turn with
  | command i v engine busy dec run e =>
    rcases exec_text (hs.not_clear busy dec) run with kept | ⟨sym, rfl, hlen, htext⟩
    · exact .inl (e ▸ ⟨kept.text, kept.len⟩)
    · exact .inr (.inr ⟨busy, engine, sym, dec, e ▸ ⟨hlen, htext⟩⟩)
  | clear clears e => exact .inr (.inl ⟨clears, e ▸ rfl⟩)
  | quiet _ _ e | illegal _ _ e | overrun _ _ _ e | latch _ _ _ _ _ e => exact .inl (e ▸ ⟨rfl, rfl⟩)

/-! ## DONE -/

theorem SameBlock.done_eq (h : SameBlock s t) : t.done = s.done := by
  unfold SameBlock at h
  rw [h]

/-- Settles O58: by whose turn it was and what it did. -/
theorem doneFollowsTheHandshake : Obligations.DoneFollowsTheHandshake := by
  unfold Obligations.DoneFollowsTheHandshake
  refine ⟨rfl, fun s t h => ?_⟩
  obtain ⟨u, same, turn⟩ := step_turn h
  have hbusy := same.busy_eq
  have hdone := same.done_eq
  cases turn with
  | quiet noClear waits e =>
    subst e
    refine ⟨?_, fun hb hb' => ?_, fun _ _ => hdone⟩
    · rintro (clears | ⟨hb, engine⟩)
      · exact absurd clears noClear
      · simp [waits engine] at hb
    · simp [hbusy, hb] at hb'
  | command _ v _ busy _ _ e =>
    subst e
    exact ⟨fun _ => rfl, fun _ hb => by simp at hb, fun _ hb => by simp [busy] at hb⟩
  | illegal _ busy e =>
    subst e
    exact ⟨fun _ => rfl, fun _ hb => by simp at hb, fun _ hb => by simp [busy] at hb⟩
  | clear clears e =>
    subst e
    exact ⟨fun _ => rfl, fun _ hb => by simp at hb, fun noClear => absurd clears noClear⟩
  | overrun host noClear busy e =>
    subst e
    refine ⟨?_, fun hb => by simp [busy] at hb, fun _ _ => hdone⟩
    rintro (clears | ⟨-, engine⟩)
    · exact absurd clears noClear
    · simp [host] at engine
  | latch w host noClear idle _ e =>
    subst e
    refine ⟨?_, fun _ _ => rfl, fun _ hb => by simp [idle] at hb⟩
    rintro (clears | ⟨busy, -⟩)
    · exact absurd clears noClear
    · simp [idle] at busy

/-! ## An overrun -/

/-- No rule reads or moves OVERRUN. -/
theorem RuleOf.setOverrun (hr : RuleOf i rule) (s : State) : rule s.setOverrun = (rule s).map State.setOverrun := by
  cases hr with
  | push | pack | unxlate =>
    simp only [pushRule, packRule, unxlateRule, apply_ite (Except.map State.setOverrun)]
    rfl
  | nop | count | build | serialize | derive | transcode | xlate => rfl

theorem advance_setOverrun (s : State) (i : Instr) : s.setOverrun.advance i = (s.advance i).setOverrun := by
  cases i <;> rfl

theorem perform_setOverrun (hr : RuleOf i rule) (s : State) :
    s.setOverrun.perform i rule = (s.perform i rule).setOverrun := by
  unfold State.perform
  rw [hr.setOverrun, State.setOverrun_phase]
  split
  · cases rule s with
    | ok v => exact advance_setOverrun v i
    | error e => rfl
  · rfl

theorem runStages_setOverrun {stages : List (Instr × Rule)} (h : ∀ stage ∈ stages, RuleOf stage.1 stage.2) (s : State) :
    runStages stages s.setOverrun = (runStages stages s).setOverrun := by
  induction stages generalizing s with
  | nil => rfl
  | cons stage stages ih =>
    obtain ⟨hr, hrest⟩ := List.forall_mem_cons.mp h
    simp only [runStages, hr.setOverrun]
    cases stage.2 s with
    | ok v => exact (congrArg (runStages stages) (advance_setOverrun v stage.1)).trans (ih hrest _)
    | error e => rfl

theorem exec_setOverrun (hi : i ≠ .clear) (h : exec i s = .next t) : exec i s.setOverrun = .next t.setOverrun := by
  rcases exec_form i with rfl | rfl | ⟨rule, hr, hexec⟩
  · exact absurd rfl hi
  · cases h
    refine congrArg Host.Outcome.next ?_
    rw [State.setOverrun_phase, runStages_setOverrun fun _ => ruleOf_of_mem_stages]
    split <;> rfl
  · rw [hexec] at h ⊢
    cases h
    rw [perform_setOverrun hr]

theorem completeCommand_setOverrun (hw : s.pending ≠ clearWord) (h : completeCommand s = .next t) :
    completeCommand s.setOverrun = .next t.setOverrun := by
  rcases completeCommand_cases h with ⟨i, v, dec, run, rfl⟩ | ⟨c, dec, rfl⟩
  · have notClear : i ≠ .clear := by
      rintro rfl
      exact hw (encode_of_decode dec).symm
    exact completeCommand_of_decode (s := s.setOverrun) dec (exec_setOverrun notClear run)
  · exact completeCommand_of_illegal (s := s.setOverrun) dec

/-- Settles O18: the write by `submit`'s second case, and the completion since no rule reads or moves OVERRUN. -/
theorem overrunDoesNotDisturb : Obligations.OverrunDoesNotDisturb := by
  unfold Obligations.OverrunDoesNotDisturb
  intro s w hb hw
  refine ⟨(if_neg hw).trans (if_pos hb), fun t hp h => ?_⟩
  rw [engineTurn, if_pos hb] at h
  exact (if_pos hb).trans (completeCommand_setOverrun hp h)

end Sys2Proof.Machine
end

section
/-! PROOFS. A latched command completes (40_control.md section 1, 70_reset_and_hazards.md section 4), a step runs the
command that was latched, and what a read returns (20_memory.md R63). -/

namespace Sys2Proof.Machine

variable {s t : State}

/-! ## The host's turn while a command is latched -/

theorem submit_agents {w : Word} (h : submit w s = .next t) : t.script = s.script ∧ t.turns = s.turns := by
  rcases submit_cases h with ⟨-, rfl⟩ | ⟨-, -, rfl⟩ | ⟨-, -, -, rfl⟩ | ⟨-, -, -, rfl⟩ <;> exact ⟨rfl, rfl⟩

theorem busAccess_agents {a : Access} (h : busAccess a s = .next t) : t.script = s.script ∧ t.turns = s.turns := by
  rcases busAccess_cases h with rfl | ⟨-, rfl⟩ | ⟨w, -, -, hs⟩
  · exact ⟨rfl, rfl⟩
  · exact ⟨hostRead_script .., hostRead_turns ..⟩
  · exact submit_agents hs

/-- The host's turn takes at most its next action, and no turn of `turns`. -/
theorem hostTurn_agents (h : hostTurn s = .next t) : t.script <:+ s.script ∧ t.turns = s.turns := by
  unfold hostTurn at h
  split at h
  case h_1 =>
    cases h
    exact ⟨List.suffix_rfl, rfl⟩
  case h_2 a rest hs =>
    obtain ⟨hscript, hturns⟩ := busAccess_agents h
    exact ⟨hscript ▸ hs ▸ List.suffix_cons .., hturns⟩
  case h_3 rest hs =>
    split at h <;> cases h
    · exact ⟨hostRead_script s _ ▸ List.suffix_rfl, hostRead_turns ..⟩
    · exact ⟨by rw [hostRead_script, hs]; exact List.suffix_cons .., hostRead_turns ..⟩

/-- A host whose accesses all have the accepted form meets no fault (20_memory.md R61, R62). -/
theorem hostTurn_next_of_safe (h : s.safeScript = true) : ∃ t, hostTurn s = .next t := by
  unfold hostTurn
  split
  case h_1 => exact ⟨_, rfl⟩
  case h_2 a rest hs =>
    have accepted : a.wellFormed = true := List.all_eq_true.mp h (.access a) (hs ▸ List.mem_cons_self)
    exact busAccess_next_of_wellFormed accepted _
  case h_3 => split <;> exact ⟨_, rfl⟩

theorem safeScript_of_suffix (h : s.safeScript = true) (hs : t.script <:+ s.script) : t.safeScript = true :=
  List.all_eq_true.mpr fun a ha => List.all_eq_true.mp h a (hs.subset ha)

/-! ## A latched command completes -/

theorem afterSteps_succ (n : Nat) (h : step s = .next t) : s.afterSteps (n + 1) = t.afterSteps n := by
  rw [State.afterSteps, h]

/-- On the engine's turn a latched command that decodes runs and completes (40_control.md R101). -/
theorem step_of_latched {i : Instr} (hb : s.busy = true) (hn : nextAgent s = .engine) (hd : decode s.pending = .ok i) :
    ∃ v, exec i { s with turns := s.turns.tail } = .next v ∧ step s = .next v.complete := by
  obtain ⟨v, run⟩ := exec_next i { s with turns := s.turns.tail }
  refine ⟨v, run, ?_⟩
  rw [step_of_engine hn, engineTurn, if_pos hb]
  exact completeCommand_of_decode (s := { s with turns := s.turns.tail }) hd run

/-- The engine's turn completes a latched command (40_control.md R101). -/
theorem step_completes (hn : nextAgent s = .engine) (hb : s.busy = true) :
    ∃ t, s.afterSteps 1 = some t ∧ t.busy = false ∧ t.done = true := by
  cases hd : decode s.pending with
  | ok i =>
    obtain ⟨v, -, h⟩ := step_of_latched hb hn hd
    exact ⟨v.complete, afterSteps_succ 0 h, rfl, rfl⟩
  | error c =>
    have h : step s = .next (State.raiseError { s with turns := s.turns.tail } .illegalCmd 0).complete := by
      rw [step_of_engine hn, engineTurn, if_pos hb]
      exact completeCommand_of_illegal hd
    exact ⟨_, afterSteps_succ 0 h, rfl, rfl⟩

/-- A step on the host's turn with a command latched is CLEAR, or leaves the command latched with one turn less. -/
theorem step_waits (hn : nextAgent s = .host) (hb : s.busy = true) (hsafe : s.safeScript = true) :
    ∃ t, step s = .next t ∧ ((t.busy = false ∧ t.done = true) ∨
      (t.busy = true ∧ t.safeScript = true ∧ t.turns = s.turns.tail)) := by
  obtain ⟨t, ht⟩ := hostTurn_next_of_safe (s := { s with turns := s.turns.tail }) hsafe
  obtain ⟨hscript, hturns⟩ := hostTurn_agents ht
  have hstep := (step_of_host hn).trans ht
  refine ⟨t, hstep, ?_⟩
  have kept : t.safeScript = true := safeScript_of_suffix hsafe hscript
  obtain ⟨u, same, turn⟩ := step_turn hstep
  cases turn with
  | quiet _ _ e => exact .inr ⟨e ▸ same.busy_eq.trans hb, kept, hturns⟩
  | clear _ e => exact .inl (e ▸ ⟨rfl, rfl⟩)
  | overrun _ _ _ e => exact .inr ⟨e ▸ same.busy_eq.trans hb, kept, hturns⟩
  | latch _ _ _ _ _ e => exact .inr ⟨e ▸ rfl, kept, hturns⟩
  | command _ _ engine | illegal engine => simp [hn] at engine

theorem latched_completes {turns : List Agent} (hturns : s.turns = turns) (hb : s.busy = true)
    (hsafe : s.safeScript = true) :
    ∃ n t, n ≤ turns.length + 1 ∧ s.afterSteps n = some t ∧ t.busy = false ∧ t.done = true := by
  induction turns generalizing s with
  | nil =>
    obtain ⟨t, ht, hdone⟩ := step_completes (by simp [nextAgent, hturns, hb]) hb
    exact ⟨1, t, by simp, ht, hdone⟩
  | cons agent rest ih =>
    have hn : nextAgent s = agent := by simp [nextAgent, hturns]
    cases agent with
    | engine =>
      obtain ⟨t, ht, hdone⟩ := step_completes hn hb
      exact ⟨1, t, by simp, ht, hdone⟩
    | host =>
      obtain ⟨t, ht, hdone | ⟨busy, safe, left⟩⟩ := step_waits hn hb hsafe
      · exact ⟨1, t, by simp, afterSteps_succ 0 ht, hdone⟩
      · obtain ⟨n, u, hn, hu, hdone⟩ := ih (s := t) (by rw [left, hturns]; rfl) busy safe
        exact ⟨n + 1, u, Nat.succ_le_succ hn, (afterSteps_succ n ht).trans hu, hdone⟩

/-- Settles O9, by induction on the turns left: the engine's turn completes the command, and a host's turn leaves one
turn less. -/
theorem latchedCommandCompletes : Obligations.LatchedCommandCompletes := by
  unfold Obligations.LatchedCommandCompletes
  exact fun s hb hsafe => latched_completes rfl hb hsafe

/-! ## A step runs the latched command -/

theorem withFetchWord_toNat (s : State) (w : Word) : s.withFetchWord 32 w.toNat = s.withCommand w := by
  rw [State.withFetchWord, Nat.mod_eq_of_lt w.isLt, BitVec.ofNat_toNat, BitVec.setWidth_eq]

/-- Of the twelve commands' words only CLEAR's is the CLEAR word (30_encoding.md R86). -/
theorem encode_ne_clearWord {i : Instr} (hi : i ≠ .clear) : encode i ≠ clearWord := fun h => by
  have hd : decode clearWord = .ok i := h ▸ decode_encode i
  exact hi (Except.ok.inj (hd.symm.trans (decode_encode .clear)))

/-- Settles O7: on the engine's turn by the completion, and for CLEAR by its write. -/
theorem stepRunsTheLatchedCommand : Obligations.StepRunsTheLatchedCommand := by
  unfold Obligations.StepRunsTheLatchedCommand
  refine ⟨fun s i hb hn hd => ?latched, fun s i hi => ?placed, fun s => ?clear⟩
  case latched =>
    obtain ⟨v, run, hstep⟩ := step_of_latched hb hn hd
    exact ⟨v, _, run, hstep, rfl⟩
  case placed =>
    rw [withFetchWord_toNat, State.withCommand, if_neg (encode_ne_clearWord hi)]
    obtain ⟨v, run, hstep⟩ := step_of_latched (s := { s.latch (encode i) with turns := .engine :: s.turns }) rfl rfl
      (decode_encode i)
    exact ⟨v, _, run, hstep, rfl⟩
  case clear =>
    have placed : s.withFetchWord 32 (encode .clear).toNat = { s with
        script := .access ⟨cmdOffset, 4, .write clearWord⟩ :: s.script, turns := .host :: s.turns } := rfl
    rw [placed]
    exact step_cmdWrite (w := clearWord) (rest := s.script) rfl rfl

/-! ## Reads -/

theorem hostRead_receives (s : State) (a : Nat) : ∃ w,
    s.hostRead a = { s with received := w :: s.received, draws := (s.hostRead a).draws } ∧
      ∀ v, s.readWord a = some v → w = v := by
  unfold State.hostRead
  cases s.readWord a with
  | some w => exact ⟨w, rfl, fun v h => Option.some.inj h⟩
  | none => exact ⟨_, rfl, nofun⟩

theorem busAccess_read {a : Nat} (h4 : a % 4 = 0) (ha : a < Config.apertureBytes) :
    busAccess ⟨a, 4, .read⟩ s = .next (s.hostRead a) := by
  simp [busAccess, h4, Nat.not_le.mpr ha]

/-- The index of a window of one element per symbol is below 256 (20_memory.md R60). -/
def Location.SymbolBelow : Location → Prop
  | .freq v | .codeLen v | .codeVal v _ => v < 256
  | .register _ | .reserved | .node _ _ | .tree _ | .outTree _ | .text _ | .group _ | .outBits _ => True

theorem locate_symbolBelow (maxLen maxGroups a : Nat) : (locate maxLen maxGroups a).SymbolBelow := by
  unfold locate
  repeat' refine iteInduction (motive := Location.SymbolBelow) (fun _ => ?_) (fun _ => ?_)
  case refine_1 => split <;> trivial
  all_goals simp only [Location.SymbolBelow] <;> omega

/-- In a sound state a valid element that the address map names is listed (10_state.md R48). -/
theorem windowWord_of_valid (hs : s.Sound) {loc : Location} (hloc : loc.SymbolBelow) (hv : s.valid loc = true) :
    ∃ v, s.windowWord loc = some v := by
  have l := hs.listed
  rw [← Option.isSome_iff_exists]
  cases loc <;> simp only [State.valid, Bool.and_eq_true, decide_eq_true_eq] at hv
  case register r => rfl
  case reserved => rfl
  case text i =>
    obtain ⟨-, hi⟩ := hv
    simpa [State.windowWord] using l.text i hi
  case freq v =>
    obtain ⟨-, hp⟩ := hv
    exact l.freq hp v hloc
  case node j w =>
    obtain ⟨⟨-, hp⟩, hj⟩ := hv
    simpa [State.windowWord] using l.node hp j hj
  case tree i =>
    obtain ⟨⟨-, hp⟩, hi⟩ := hv
    simpa [State.windowWord] using l.tree hp i hi
  case codeLen v =>
    obtain ⟨-, hp⟩ := hv
    simpa [State.windowWord] using l.codeLen hp v hloc
  case codeVal v w =>
    obtain ⟨-, hp⟩ := hv
    simpa [State.windowWord] using l.codeVal hp v hloc
  case group j =>
    obtain ⟨⟨-, hp⟩, hj⟩ := hv
    simpa [State.windowWord] using l.group hp j hj
  case outTree c =>
    obtain ⟨⟨-, hp⟩, hc⟩ := hv
    simpa [State.windowWord] using l.outTree hp c hc
  case outBits j =>
    obtain ⟨⟨-, hp⟩, hj⟩ := hv
    simpa [State.windowWord] using l.outBits hp j hj

/-- What a window that the address map names reads, by its element's validity (10_state.md R48, 20_memory.md R63). -/
theorem readWord_window {a : Nat} {loc : Location} (hloc : locate s.maxLen s.maxGroups a = loc)
    (hreg : ∀ r, loc ≠ .register r) : (s.valid loc = false → s.readWord a = none) ∧
      (s.Sound → s.valid loc = true → ∃ v, s.windowWord loc = some v ∧ s.readWord a = some v) := by
  rw [State.readWord, hloc]
  refine ⟨wordAt_of_not_valid, fun hs hv => ?_⟩
  obtain ⟨v, hw⟩ := windowWord_of_valid hs (hloc ▸ locate_symbolBelow ..) hv
  exact ⟨v, hw, by rw [wordAt_window hreg, if_pos hv, hw]⟩

/-- What a register reads (20_memory.md R63). -/
theorem wordAt_register (s : State) (r : Register) : s.wordAt (.register r) =
    if s.busy = true ∧ r ≠ .id ∧ r ≠ .status ∧ r ≠ .cfgMaxLen ∧ r ≠ .cfgMaxGroups then none
    else some (s.registerWord r) := by
  cases r <;> simp [State.wordAt, Register.definedWhileBusy]

/-- Settles O46, by what the address map names. -/
theorem readReturnsTheWord : Obligations.ReadReturnsTheWord := by
  unfold Obligations.ReadReturnsTheWord
  refine ⟨fun s a h4 ha => ⟨?read, ?word⟩, fun s a hw h4 ha => ?outside⟩
  case read =>
    obtain ⟨w, received, hword⟩ := hostRead_receives s a
    exact ⟨s.hostRead a, w, busAccess_read h4 ha, received, hword⟩
  case word =>
    cases hloc : locate s.maxLen s.maxGroups a with
    | reserved =>
      rw [State.readWord, hloc]
      rfl
    | register r => exact (congrArg s.wordAt hloc).trans (wordAt_register s r)
    | freq | node | tree | codeLen | codeVal | outTree | text | group | outBits => exact readWord_window hloc nofun
  case outside => simp [busAccess, hw, h4, Config.apertureBytes, ha]

end Sys2Proof.Machine
end

section
/-! PROOFS. The assembler's command lines (30_encoding.md R88) and the pseudo-instructions (R89). -/

namespace Sys2Proof

/-- A command's word is `(OP << 24) | operand` (30_encoding.md R88). -/
theorem encode_eq_or {i : Instr} {op : BitVec 8} {x : BitVec 16} (hop : i.opcode = op) (himm : i.imm = x) :
    encode i = (op ++ (0 : BitVec 24)) ||| x.setWidth 32 := by
  subst hop himm
  ext j hj
  simp only [encode, BitVec.getElem_or, BitVec.getElem_append, BitVec.getElem_setWidth]
  grind

/-- An operand in range loses nothing in a field of `n` bits (30_encoding.md R82, R83). -/
theorem setWidth_operand {n k : Nat} (h : k < 2 ^ n) (hn : n ≤ 16) :
    ((BitVec.ofNat n k).setWidth 16).setWidth 32 = BitVec.ofNat 32 k := by
  have le : 2 ^ n ≤ 2 ^ 16 := Nat.pow_le_pow_right (by decide) hn
  refine BitVec.eq_of_toNat_eq ?_
  rw [BitVec.toNat_setWidth_of_le (by decide), BitVec.toNat_setWidth_of_le hn, BitVec.toNat_ofNat, BitVec.toNat_ofNat,
    Nat.mod_eq_of_lt h, Nat.mod_eq_of_lt (by omega)]

theorem encode_push_ofNat {n : Nat} (h : n < 256) :
    encode (.push (BitVec.ofNat 8 n)) = 0x02000000#32 ||| BitVec.ofNat 32 n :=
  (encode_eq_or (op := 0x02#8) rfl rfl).trans (congrArg (0x02000000#32 ||| ·) (setWidth_operand (n := 8) h (by decide)))

theorem encode_xlate_ofNat {n : Nat} (h : n < 64) :
    encode (.xlate (BitVec.ofNat 6 n)) = 0x0A000000#32 ||| BitVec.ofNat 32 n :=
  (encode_eq_or (op := 0x0A#8) rfl rfl).trans (congrArg (0x0A000000#32 ||| ·) (setWidth_operand (n := 6) h (by decide)))

theorem encode_unxlate_ofNat {n : Nat} (h : n < 256) :
    encode (.unxlate (BitVec.ofNat 8 n)) = 0x0B000000#32 ||| BitVec.ofNat 32 n :=
  (encode_eq_or (op := 0x0B#8) rfl rfl).trans (congrArg (0x0B000000#32 ||| ·) (setWidth_operand (n := 8) h (by decide)))

end Sys2Proof

namespace Sys2Proof.Machine

/-! ## Command lines -/

/-- A line's actions where its range check takes it (30_encoding.md R88). -/
theorem assembleLine_number {m : Mnemonic} {n bound : Nat} {w w' : Word}
    (hline : assembleLine ⟨m, some (.number n)⟩ = if decide (n < bound) then some [writeCmd w] else none)
    (hw : n < bound → w = w') :
    assembleLine ⟨m, some (.number n)⟩ = if n < bound then some [writeCmd w'] else none := by
  rw [hline]
  exact ite_congr (decide_eq_true_eq) (fun h => by rw [hw h]) fun _ => rfl

/-- Settles O5, line by line. -/
theorem assemblerEncodesLines : Obligations.AssemblerEncodesLines := by
  unfold Obligations.AssemblerEncodesLines
  refine fun n => ⟨assembleLine_number rfl encode_push_ofNat, assembleLine_number rfl encode_xlate_ofNat,
    assembleLine_number rfl encode_unxlate_ofNat, assembleLine_number rfl fun _ => rfl, fun c hc => ?character⟩
  case character =>
    have ascii : (⟨.push, some (.character c)⟩ : Line).wellFormed = true := decide_eq_true hc
    rw [assembleLine, if_pos ascii, ← encode_push_ofNat (n := c.toNat) (by omega)]
    rfl

/-! ## The pseudo-instructions -/

/-- PUSHS takes ASCII text alone (30_encoding.md R89). -/
theorem assembleLine_pushs (cs : List Char) :
    assembleLine ⟨.pushs, some (.quoted cs)⟩ = if cs.all isAscii then some (expandPushs cs) else none := rfl

theorem assembleLine_compress (cs : List Char) : assembleLine ⟨.compress, some (.quoted cs)⟩ =
    if cs.all isAscii then
      some (writeCmd (encode .clear) :: (expandPushs cs ++ [writeCmd (encode .encode), .wait]))
    else none := rfl

theorem assembleLine_pushs_eq_some {cs : List Char} {actions : List HostAction}
    (h : assembleLine ⟨.pushs, some (.quoted cs)⟩ = some actions) :
    cs.all isAscii = true ∧ expandPushs cs = actions := by
  rw [assembleLine_pushs] at h
  split at h <;> cases h
  exact ⟨‹_›, rfl⟩

theorem expandPushs_cons {c : Char} (hc : c.toNat < 128) (cs : List Char) : expandPushs (c :: cs) =
    writeCmd (0x02000000#32 ||| BitVec.ofNat 32 c.toNat) :: .wait :: expandPushs cs := by
  rw [← encode_push_ofNat (n := c.toNat) (by omega)]
  rfl

/-! ## The poll of WAIT -/

theorem hostTurn_wait {s : State} {rest : List HostAction} (hs : s.script = .wait :: rest) : hostTurn s =
    if s.busy then .next (s.receive s.statusWord)
    else .next (({ s with script := rest } : State).receive s.statusWord) := by
  simp only [hostTurn, hs, hostRead_status]
  rfl

section Wait

variable {s : State} {rest : List HostAction} (hn : nextAgent s = .host) (hs : s.script = .wait :: rest)

include hn hs

theorem step_wait_of_busy (hb : s.busy = true) :
    step s = .next { s with turns := s.turns.tail, received := s.statusWord :: s.received } := by
  rw [step_of_host hn, hostTurn_wait (s := { s with turns := s.turns.tail }) hs]
  exact if_pos hb

theorem step_wait_of_idle (hb : s.busy = false) : step s =
    .next { s with script := rest, turns := s.turns.tail, received := s.statusWord :: s.received } := by
  rw [step_of_host hn, hostTurn_wait (s := { s with turns := s.turns.tail }) hs]
  exact if_neg (by simp [hb])

end Wait

/-- Settles O6: each expansion by its line, and the poll by the BUSY it reads. -/
theorem pseudoInstructionsExpand : Obligations.PseudoInstructionsExpand := by
  unfold Obligations.PseudoInstructionsExpand
  refine ⟨rfl, fun c cs rest hc h => ?pushs, fun cs pushes h => ?compress, rfl, rfl, fun s rest hn hs =>
    ⟨statusWord_getLsbD s 0, step_wait_of_busy hn hs, step_wait_of_idle hn hs⟩⟩
  case pushs =>
    obtain ⟨hcs, rfl⟩ := assembleLine_pushs_eq_some h
    have ascii : (c :: cs).all isAscii = true := by simpa [isAscii, hc] using hcs
    rw [assembleLine_pushs, if_pos ascii, expandPushs_cons hc]
  case compress =>
    obtain ⟨hcs, rfl⟩ := assembleLine_pushs_eq_some h
    rw [assembleLine_compress, if_pos hcs]
    rfl

end Sys2Proof.Machine
end
